-- ==== Sys2Proof/Word.lean ====
section
/-! DEFINITION. The word types of the block (00_scope.md R9: u8, u16, u32). -/

namespace Sys2Proof

/-- A byte on the wire, in host memory or in an 8-bit field (u8). -/
abbrev Byte := BitVec 8

/-- A coordinate, a size or a pixel value (u16). -/
abbrev Half := BitVec 16

/-- A register of the block or a host-memory address (u32). -/
abbrev Word := BitVec 32

/-- A brightness or backlight output value 0..65536 (10_state.md R37, R38: 17 bits). -/
abbrev Duty := BitVec 17

end Sys2Proof
end

