-- ==== Sys2Proof/Config.lean ====
section
/-! DEFINITION. The implementation parameters of 00_scope.md R7, their default values, and the
free values: what the spec leaves open is an opaque constant here, applied to a counter of State. -/

namespace Sys2Proof

/-- Channel order of the source pixel buffer (R7 `SRC_ORDER`, 43_color.md R200). -/
inductive SrcOrder
  | rgb
  | bgr
  deriving DecidableEq, Repr

/-- One entry of `INIT_TABLE` (R7, 30_encoding.md R109): a command, its parameter bytes and the
wait after it in milliseconds. -/
structure TableEntry where
  cmd    : Byte
  bytes  : List Byte
  waitMs : Nat
  deriving DecidableEq, Repr

/-- The parameters of R7, under their own names. `maxXfer = none` is `MAX_XFER = INF`. -/
structure Params where
  cmdSwreset : Byte
  cmdSlpout  : Byte
  cmdInvoff  : Byte
  cmdInvon   : Byte
  cmdDispoff : Byte
  cmdDispon  : Byte
  cmdCaset   : Byte
  cmdRaset   : Byte
  cmdRamwr   : Byte
  cmdMadctl  : Byte
  oriMirrorV : Byte
  oriMirrorH : Byte
  oriSwap    : Byte
  oriLine    : Byte
  oriBgr     : Byte
  initTable  : List TableEntry
  tRstMs     : Nat
  tSwresetMs : Nat
  tSlpoutMs  : Nat
  tDisponMs  : Nat
  maxXfer    : Option Nat
  srcOrder   : SrcOrder
  spiMode    : Nat
  pwmRes     : Nat
  deriving DecidableEq, Repr

/-- The default values of R7. PRESUMED (log 10): the command bytes, orientation bits, `MAX_XFER`,
`T_SWRESET_MS` and `T_SLPOUT_MS` are general knowledge by the spec's own mark (G1, G2, G4, G5);
unsafe for a panel that uses others. DESIGN CHOICE (log 11): `INIT_TABLE`, `SPI_MODE` and
`PWM_RES` are OPEN in R7. No statement rests on any of them: each holds for every `Params`. -/
def Params.default : Params where
  cmdSwreset := 0x01
  cmdSlpout  := 0x11
  cmdInvoff  := 0x20
  cmdInvon   := 0x21
  cmdDispoff := 0x28
  cmdDispon  := 0x29
  cmdCaset   := 0x2A
  cmdRaset   := 0x2B
  cmdRamwr   := 0x2C
  cmdMadctl  := 0x36
  oriMirrorV := 0x80
  oriMirrorH := 0x40
  oriSwap    := 0x20
  oriLine    := 0x10
  oriBgr     := 0x08
  initTable  := []
  tRstMs     := 100
  tSwresetMs := 150
  tSlpoutMs  := 120
  tDisponMs  := 0
  maxXfer    := some 4096
  srcOrder   := .rgb
  spiMode    := 0
  pwmRes     := 100

/-- What the bus answers to a transfer (40_transport.md R134). -/
inductive BusOutcome
  | ok
  | fail
  | stall
  deriving DecidableEq, Repr, Inhabited

/-- FREE VALUE (U4, log 5): the outcome of the n-th transfer where the bus input gives none
("drawn freely, under no law", R134). Safe. -/
opaque Config.busOutcome : Nat → BusOutcome

/-- FREE VALUE (U5, R81, log 6): whether the payload byte with the given payload index takes the
new value when the host's n-th racing store hits it. Safe. -/
opaque Config.raceTakesNew : Nat → Nat → Bool

/-- FREE VALUE (R225, log 14): whether a pending change of BL_OUT reaches the PWM waveform at this
moment, where the next period has not yet begun. Safe. -/
opaque Config.pwmUpdatesNow : Nat → Bool

/-- FREE VALUE (U12, log 8): the phase of the PWM counter after a block reset, taken modulo
`PWM_RES`. Safe. -/
opaque Config.pwmPhase : Nat → Nat

end Sys2Proof
end

