-- ==== Sys2Proof/Syntax.lean ====
section
/-! DEFINITION. The instructions of the block: one constructor per row of spec/opcode_table.json. -/

namespace Sys2Proof

/-- A decoded CTRL word (30_encoding.md R90 to R92). An instruction's operands are in registers,
not in the word (R90), except the two omission bits `CTRL[8]` and `CTRL[9]`: every operation
start latches them (10_state.md R43, 40_transport.md R142) and only SET_WINDOW uses them (R97).
NOP is discarded before anything is latched (R139), so it carries no bit. -/
inductive Instr
  /-- OP 0x00, R139. -/
  | nop
  /-- OP 0x01, R160: `initialize(config)`. -/
  | init (omitX1 omitY1 : Bool)
  /-- OP 0x02, R140: `write_command(byte)`. -/
  | writeCmd (omitX1 omitY1 : Bool)
  /-- OP 0x03, R141: `write_data(bytes)`. -/
  | writeData (omitX1 omitY1 : Bool)
  /-- OP 0x04, R185: `set_window(x0, y0, x1?, y1?)`. -/
  | setWindow (omitX1 omitY1 : Bool)
  /-- OP 0x05, R207: `render(image)`, placement and streaming. -/
  | render (omitX1 omitY1 : Bool)
  /-- OP 0x06, R205: `render_raw(image)`. -/
  | renderRaw (omitX1 omitY1 : Bool)
  /-- OP 0x07, R186: `clear()`. -/
  | clear (omitX1 omitY1 : Bool)
  /-- OP 0x08, R187: `clear_window()`. -/
  | clearWindow (omitX1 omitY1 : Bool)
  /-- OP 0x09, R222: `set_brightness(v)`. -/
  | setBrightness (omitX1 omitY1 : Bool)
  /-- OP 0x0A, R163: `shutdown()`. -/
  | shutdown (omitX1 omitY1 : Bool)
  deriving DecidableEq, Repr

end Sys2Proof
end

