-- ==== Sys2Proof/WellFormed.lean ====
section
/-! DEFINITION. Well-formedness of instructions and of parameter values. -/

namespace Sys2Proof

/-- Every instruction is well formed: an instruction's only fields are the two omission bits, both
of whose values every operation admits (30_encoding.md R91, R98). -/
def Instr.wellFormed : Instr → Bool
  | .nop => true
  | .init _ _ => true
  | .writeCmd _ _ => true
  | .writeData _ _ => true
  | .setWindow _ _ => true
  | .render _ _ => true
  | .renderRaw _ _ => true
  | .clear _ _ => true
  | .clearWindow _ _ => true
  | .setBrightness _ _ => true
  | .shutdown _ _ => true

/-- A byte with exactly one bit set. -/
def singleBit (b : Byte) : Bool :=
  (List.range 8).any fun i => b == 1#8 <<< i

/-- The orientation parameters are "distinct single bits" (30_encoding.md R107). -/
def Params.orientationBitsLegal (p : Params) : Bool :=
  [p.oriMirrorV, p.oriMirrorH, p.oriSwap, p.oriLine, p.oriBgr].all singleBit &&
  decide [p.oriMirrorV, p.oriMirrorH, p.oriSwap, p.oriLine, p.oriBgr].Nodup

/-- `MAX_XFER` is "an integer >= 1 or INF" (R7). -/
def Params.maxXferLegal (p : Params) : Bool := decide (p.maxXfer ≠ some 0)

/-- `SPI_MODE` is "clock polarity/phase mode 0..3" (R7). -/
def Params.spiModeLegal (p : Params) : Bool := decide (p.spiMode ≤ 3)

/-- There is at least one PWM tick in a period, or the phase counter would have no value
(10_state.md R46: `pwm_cnt` in 0..PWM_RES-1). -/
def Params.pwmResLegal (p : Params) : Bool := decide (1 ≤ p.pwmRes)

/-- Parameter values R7 and R107 admit. -/
def Params.wellFormed (p : Params) : Bool :=
  p.orientationBitsLegal && p.maxXferLegal && p.spiModeLegal && p.pwmResLegal

end Sys2Proof
end

