-- ==== Sys2Proof/Decode.lean ====
section
/-! DEFINITION. Decoding and encoding of the CTRL word (30_encoding.md R90 to R92, R98 to R101). -/

namespace Sys2Proof

/-- `OP = CTRL[7:0]` (R91). -/
def ctrlOp (w : Word) : Byte := w.extractLsb' 0 8

/-- `OMIT_X1 = CTRL[8]` (R91). -/
def ctrlOmitX1 (w : Word) : Bool := w.getLsbD 8

/-- `OMIT_Y1 = CTRL[9]` (R91). -/
def ctrlOmitY1 (w : Word) : Bool := w.getLsbD 9

/-- The answer of the decoder: an instruction, or the reserved operation code that was written. -/
inductive Decoded
  /-- A defined OP. -/
  | instr (i : Instr)
  /-- "OP in 0x0B..0xFF is reserved and illegal" (R100). -/
  | reservedOp (op : Byte)
  deriving DecidableEq, Repr

/-- "A decoder selects on `CTRL[7:0]` alone" (R92). Bits 31:10 are ignored (R98), as are all bits
but OP for NOP (R99, R139). -/
def decode (w : Word) : Decoded :=
  let x := ctrlOmitX1 w
  let y := ctrlOmitY1 w
  match (ctrlOp w).toNat with
  | 0x00 => .instr .nop
  | 0x01 => .instr (.init x y)
  | 0x02 => .instr (.writeCmd x y)
  | 0x03 => .instr (.writeData x y)
  | 0x04 => .instr (.setWindow x y)
  | 0x05 => .instr (.render x y)
  | 0x06 => .instr (.renderRaw x y)
  | 0x07 => .instr (.clear x y)
  | 0x08 => .instr (.clearWindow x y)
  | 0x09 => .instr (.setBrightness x y)
  | 0x0A => .instr (.shutdown x y)
  | _    => .reservedOp (ctrlOp w)

/-- The operation code of an instruction (R92). -/
def Instr.opcode : Instr → Byte
  | .nop => 0x00
  | .init _ _ => 0x01
  | .writeCmd _ _ => 0x02
  | .writeData _ _ => 0x03
  | .setWindow _ _ => 0x04
  | .render _ _ => 0x05
  | .renderRaw _ _ => 0x06
  | .clear _ _ => 0x07
  | .clearWindow _ _ => 0x08
  | .setBrightness _ _ => 0x09
  | .shutdown _ _ => 0x0A

/-- The omission bits an instruction carries (R97); none for NOP. -/
def Instr.omits : Instr → Bool × Bool
  | .nop => (false, false)
  | .init x y => (x, y)
  | .writeCmd x y => (x, y)
  | .writeData x y => (x, y)
  | .setWindow x y => (x, y)
  | .render x y => (x, y)
  | .renderRaw x y => (x, y)
  | .clear x y => (x, y)
  | .clearWindow x y => (x, y)
  | .setBrightness x y => (x, y)
  | .shutdown x y => (x, y)

/-- The CTRL word of an operation code and two omission bits, reserved bits 0
("Software should write 0 to them", R98). -/
def ctrlWord (op : Byte) (omitX1 omitY1 : Bool) : Word :=
  0#22 ++ (BitVec.ofBool omitY1 ++ BitVec.ofBool omitX1) ++ op

/-- The CTRL word software writes for an instruction (R91, R92). -/
def encode (i : Instr) : Word := ctrlWord i.opcode i.omits.1 i.omits.2

/-- The 32-bit word whose low `nbits` bits are those of `w` and whose other bits are 0. -/
def tableWord (nbits w : Nat) : Word := BitVec.ofNat 32 (w % 2 ^ nbits)

/-- What `decode` reads from an instruction of the opcode table. An instruction is one 32-bit CTRL
word, which has no byte order of its own (20_memory.md R73), so no byte layout comes between. -/
def decodeTableWord (nbits w : Nat) : Option Instr :=
  match decode (tableWord nbits w) with
  | .instr i => some i
  | .reservedOp _ => none

end Sys2Proof
end

