-- ==== Sys2Proof/Machine/State.lean ====
section
/-! DEFINITION. The state of the block and of what it is connected to (10_state.md), as plain
data; the reset state (R49); why a step can stop. -/

namespace Sys2Proof.Machine

/-- The level of a line (10_state.md R45): `low` is 0, `high` is 1. -/
inductive Level
  | low
  | high
  deriving DecidableEq, Repr

/-- The operations `op` can hold (10_state.md R44, 30_encoding.md R92). -/
inductive Operation
  | init
  | writeCmd
  | writeData
  | setWindow
  | render
  | renderRaw
  | clear
  | clearWindow
  | setBrightness
  | shutdown
  deriving DecidableEq, Repr

/-- The errors that abort an operation (60_exceptions.md R241 to R243). -/
inductive ErrorKind
  | configuration
  | precondition
  | busIO
  deriving DecidableEq, Repr

/-- The event alphabet (00_scope.md R8). -/
inductive Event
  /-- DC line driven to a level. -/
  | dcSet (l : Level)
  /-- One bus transfer that completed ok. -/
  | xfer (bs : List Byte)
  /-- A transfer that failed; the panel may have received any prefix of it. -/
  | xferFail (bs : List Byte)
  /-- RST line driven to a level. -/
  | rstSet (l : Level)
  /-- The block waits at least `ms` milliseconds before its next event. -/
  | wait (ms : Nat)
  /-- Backlight output value set. -/
  | blSet (d : Duty)
  deriving DecidableEq, Repr

/-- One payload byte read from host memory: its index from `L.ADDR` and its value
(20_memory.md R64, 30_encoding.md R96). -/
structure Fetched where
  index : Nat
  value : Byte
  deriving DecidableEq, Repr

/-- A byte to be sent in a data frame: a constant of the rule, a payload byte (R141), or the low or
high byte of a converted pixel (43_color.md R202). The payload bytes it is made of stay visible
until the transfer, because a host write can race with their reading (20_memory.md R81). -/
inductive OutByte
  | lit (b : Byte)
  | payload (f : Fetched)
  | pixelLow (r g b : Fetched)
  | pixelHigh (r g b : Fetched)
  deriving DecidableEq, Repr

/-- One micro-step of an operation's event program (10_state.md R44). Each writes at most one
register or line, with the event that reports it (DEDUCED, log 2). -/
inductive Micro
  /-- The first micro-step of an INIT or RENDER whose check fails (R241, R242). -/
  | raise (e : ErrorKind)
  /-- `dc <- l ; Emit(DcSet(l))` (R130). -/
  | dcSet (l : Level)
  /-- `Transfer([b])` inside `Cmd(b)` (R130, R135). -/
  | cmdTransfer (b : Byte)
  /-- `Transfer(c)` inside `Data(bs)` (R131, R136). -/
  | dataTransfer (c : List OutByte)
  /-- `rst <- l ; Emit(RstSet(l))` (R153). -/
  | rstSet (l : Level)
  /-- `Emit(Wait(ms))` (R153, R154, R156 to R158). -/
  | wait (ms : Nat)
  /-- `REG[INIT_DONE] <- 0` (R160). -/
  | clearInitDone
  /-- `REG[BL_OUT] <- 0 ; Emit(BlSet(0))` (R160, R163). -/
  | blackout
  /-- `REG[ORIENT] <- o` (R155). -/
  | setOrient (o : Byte)
  /-- The recording of LAST_WIN (R181). -/
  | recordWindow (w h : Half)
  /-- `WinWarn()` (R183, R247). -/
  | winWarn
  /-- `REG[BL_DUTY] <- d` (R222, R163). -/
  | setDuty (d : Duty)
  /-- `REG[BL_OUT] <- blout(REG[BL_DUTY], L.BLM) ; Emit(BlSet(REG[BL_OUT]))` (R160, R222). -/
  | driveBacklight
  /-- `REG[INIT_DONE] <- 1 ; REG[CFG_LOCK] <- 1` (R160). -/
  | finishInit
  /-- `REG[INIT_DONE] <- 0 ; REG[CFG_LOCK] <- 0` (R163). -/
  | finishShutdown
  deriving DecidableEq, Repr

/-- The width of a host access to the register window (20_memory.md R62). -/
inductive Width
  | w8
  | w16
  | w32
  deriving DecidableEq, Repr

/-- What the host does: reads and writes of the 0x100-byte register window at a byte offset
(20_memory.md R61 to R63), and writes to its own memory (00_scope.md R6). -/
inductive HostAccess
  | read (offset : BitVec 8) (width : Width)
  | write (offset : BitVec 8) (width : Width) (value : Word)
  | store (address : Word) (value : Byte)
  deriving DecidableEq, Repr

/-- Who moves next (DESIGN CHOICE, log 1): the list of turns fixes the interleaving of the agents
of 00_scope.md R6. -/
inductive Turn
  /-- One host access. -/
  | host (a : HostAccess)
  /-- The host polls STATUS until BUSY reads 0 (30_encoding.md R112). -/
  | waitIdle
  /-- One micro-step of the sequencer. -/
  | sequencer
  /-- One tick of the PWM generator (44_backlight.md R224). -/
  | pwmTick
  /-- The block reset (70_reset_and_hazards.md R270). -/
  | blockReset
  deriving DecidableEq, Repr

/-- The configuration registers (10_state.md R30 to R35). -/
structure CfgRegs where
  size   : Word
  offset : Word
  mode   : Word
  spiHz  : Word
  blHz   : Word
  fps    : Word
  deriving DecidableEq, Repr

/-- The registers of the map that hold a value of their own (10_state.md R22, R26 to R40). -/
structure Regs where
  arg0   : Word
  arg1   : Word
  addr   : Word
  len    : Word
  cfg    : CfgRegs
  blDuty : Duty
  blOut  : Duty
  lastW  : Half
  lastH  : Half
  orient : Byte
  deriving DecidableEq, Repr

/-- The fields of STATUS (10_state.md R24) but BUSY, which is 1 exactly while an operation runs
(R44) and is computed from `State.op`. -/
structure Status where
  initDone   : Bool
  cfgLock    : Bool
  cfgErr     : Bool
  precondErr : Bool
  busErr     : Bool
  opErr      : Bool
  winWarn    : Bool
  errOp      : Byte
  deriving DecidableEq, Repr

/-- The latch `L` (10_state.md R43). -/
structure Latch where
  arg0   : Word
  arg1   : Word
  addr   : Word
  len    : Word
  omitX1 : Bool
  omitY1 : Bool
  cfg    : CfgRegs
  deriving DecidableEq, Repr

/-- Host memory: (address, byte) pairs in canonical form, addresses strictly rising and below
2^32, no byte equal to what an unlisted address reads as (`Memory.wf` in Machine/Ops.lean). -/
abbrev Memory := List Host.Cell

/-- The whole state. The fields up to `trace` are the spec's; the others are the model's own: what
host reads returned, the inputs still to come, counters for free values, and where in the trace the
last block reset fell (log 22). -/
structure State where
  /-- The parameters of 00_scope.md R7: the model's arguments. No step changes them (log 10). -/
  params   : Params
  /-- Host-visible registers (R22). -/
  regs     : Regs
  /-- STATUS (R24). -/
  status   : Status
  /-- The running operation, none when idle (R44). -/
  op       : Option Operation
  /-- The index `step` of the next micro-step in the operation's program (R44). -/
  stepIx   : Nat
  /-- The operation's program from that index on (R44). -/
  todo     : List Micro
  /-- A transfer of the running operation has stalled (40_transport.md R137). -/
  stalled  : Bool
  /-- The latch (R43). -/
  latch    : Latch
  /-- The command/data line (R45). -/
  dc       : Level
  /-- The reset line (R45). -/
  rst      : Level
  /-- The PWM phase counter (R46). -/
  pwmCnt   : Nat
  /-- The output value the PWM waveform currently uses (44_backlight.md R225, log 14). -/
  pwmOut   : Duty
  /-- Host memory (20_memory.md R64). -/
  mem      : Memory
  /-- The observation trace, oldest event first (00_scope.md R8, R10). -/
  trace    : List Event
  /-- The values host register reads have returned, oldest first (log 17). -/
  reads    : List Word
  /-- The outside actions still to come, next one first (log 1). -/
  turns    : List Turn
  /-- The outcomes the bus will answer, next one first (R134, log 5). -/
  bus      : List BusOutcome
  /-- The number of transfers so far: the index of the free bus outcome (log 5). -/
  busCount : Nat
  /-- The index of the next other free value (log 6, 8, 14). -/
  freeIx   : Nat
  /-- The number of events emitted before the last block reset, which emits none itself
  (70_reset_and_hazards.md R270): what the panel has seen since is the trace after them (log 16). -/
  resetMark : Nat
  deriving DecidableEq, Repr

/-- Why the machine would stop with a fault: never. The block has no traps (60_exceptions.md R249);
every error of R240 is recorded in STATUS and the machine goes on, and no host-memory read faults
(20_memory.md R64). The type has no constructor, so no step can answer with a fault. -/
inductive Fault : Type
  deriving DecidableEq, Repr

/-- Why a step has no meaning. -/
inductive Refusal
  /-- Raised by exec's arm for an instruction without a meaning. No arm raises it. Safe. -/
  | notModelled (mnemonic : String)
  /-- Raised by a host access to the register window that is not 32 bits wide or not at an offset
  that is a multiple of 4: "The model refuses any other access" (20_memory.md R62, U6). Safe. -/
  | notAlignedWord (offset : BitVec 8) (width : Width)
  deriving DecidableEq, Repr

/-- CFG_* after reset (R49): 0 but CFG_BL_HZ = 500. -/
def CfgRegs.reset : CfgRegs where
  size   := 0
  offset := 0
  mode   := 0
  spiHz  := 0
  blHz   := 500
  fps    := 0

/-- The registers after reset (R22, R49). -/
def Regs.reset : Regs where
  arg0   := 0
  arg1   := 0
  addr   := 0
  len    := 0
  cfg    := CfgRegs.reset
  blDuty := 65536
  blOut  := 0
  lastW  := 0
  lastH  := 0
  orient := 0

/-- STATUS after reset (R49): every bit 0. -/
def Status.reset : Status where
  initDone   := false
  cfgLock    := false
  cfgErr     := false
  precondErr := false
  busErr     := false
  opErr      := false
  winWarn    := false
  errOp      := 0

/-- The latch in the reset state. DESIGN CHOICE (log 9): the spec gives no value ("unspecified and
unread while op = none", R49). Nothing reads it before an operation start writes it. -/
def Latch.reset : Latch where
  arg0   := 0
  arg1   := 0
  addr   := 0
  len    := 0
  omitX1 := false
  omitY1 := false
  cfg    := { size := 0, offset := 0, mode := 0, spiHz := 0, blHz := 0, fps := 0 }

/-- The machine right after reset (R49), with the default parameters of R7, nothing listed in host
memory (log 7), no event emitted and no input given. `pwmCnt` (log 8), `stepIx` and `latch`
(log 9) and the model's own fields (log 22) hold values the spec does not give: DESIGN CHOICE. -/
def State.reset : State where
  params   := Params.default
  regs     := Regs.reset
  status   := Status.reset
  op       := none
  stepIx   := 0
  todo     := []
  stalled  := false
  latch    := Latch.reset
  dc       := .high
  rst      := .high
  pwmCnt   := 0
  pwmOut   := 0
  mem      := []
  trace    := []
  reads    := []
  turns    := []
  bus      := []
  busCount := 0
  freeIx   := 0
  resetMark := 0

end Sys2Proof.Machine
end

