-- ==== Sys2Proof/Machine/Operands.lean ====
section
/-! DEFINITION. Operand assembly (30_encoding.md R93 to R97), the fields of the configuration
registers (10_state.md R30 to R35), and the byte forms of coordinates and pixels. -/

namespace Sys2Proof.Machine

/-- `hi8(v) = v[15:8]` (00_scope.md R9). -/
def hi8 (v : Half) : Byte := v.extractLsb' 8 8

/-- `lo8(v) = v[7:0]` (R9). -/
def lo8 (v : Half) : Byte := v.extractLsb' 0 8

/-- Bits 15:0 of a register. -/
def lowHalf (w : Word) : Half := w.extractLsb' 0 16

/-- Bits 31:16 of a register. -/
def highHalf (w : Word) : Half := w.extractLsb' 16 16

/-- `pack(a, b) = (b << 16) | a` (30_encoding.md R111). -/
def pack (a b : Half) : Word := b ++ a

/-! ### Configuration fields -/

/-- `WIDTH = CFG_SIZE[15:0]` (R30). -/
def CfgRegs.width (c : CfgRegs) : Half := lowHalf c.size

/-- `HEIGHT = CFG_SIZE[31:16]` (R30). -/
def CfgRegs.height (c : CfgRegs) : Half := highHalf c.size

/-- `OFF_LEFT = CFG_OFFSET[15:0]` (R31). -/
def CfgRegs.offLeft (c : CfgRegs) : Half := lowHalf c.offset

/-- `OFF_TOP = CFG_OFFSET[31:16]` (R31). -/
def CfgRegs.offTop (c : CfgRegs) : Half := highHalf c.offset

/-- `ROT_DEG = CFG_MODE[15:0]` (R32). -/
def CfgRegs.rotDeg (c : CfgRegs) : Half := lowHalf c.mode

/-- `BGR = CFG_MODE[16]` (R32). -/
def CfgRegs.bgr (c : CfgRegs) : Bool := c.mode.getLsbD 16

/-- `INV = CFG_MODE[17]` (R32). -/
def CfgRegs.inv (c : CfgRegs) : Bool := c.mode.getLsbD 17

/-- `BLM = CFG_MODE[18]` (R32): true is binary. -/
def CfgRegs.blm (c : CfgRegs) : Bool := c.mode.getLsbD 18

/-- The writable bits of CFG_MODE: "31:19 reserved, reads 0, writes ignored" (R32, R36). -/
def cfgModeWritable : Word := 0x0007FFFF

/-! ### Operands of the operations, from the latch -/

/-- `x0 = L.ARG0[15:0]` (R93). -/
def Latch.startX (l : Latch) : Half := lowHalf l.arg0

/-- `y0 = L.ARG0[31:16]` (R93). -/
def Latch.startY (l : Latch) : Half := highHalf l.arg0

/-- The end column (42_window.md R180): the last visible one where it is omitted. -/
def Latch.endX (l : Latch) : Half := if l.omitX1 then l.cfg.width - 1 else lowHalf l.arg1

/-- The end row (R180). -/
def Latch.endY (l : Latch) : Half := if l.omitY1 then l.cfg.height - 1 else highHalf l.arg1

/-- `iw = L.ARG0[15:0]` (R93). -/
def Latch.imageW (l : Latch) : Half := lowHalf l.arg0

/-- `ih = L.ARG0[31:16]` (R93). -/
def Latch.imageH (l : Latch) : Half := highHalf l.arg0

/-- `b = L.ARG0[7:0]` (R95). -/
def Latch.command (l : Latch) : Byte := l.arg0.extractLsb' 0 8

/-- `v = sext_32(L.ARG0)`, signed Q16.16: the real value is `v / 65536` (R94). -/
def Latch.brightness (l : Latch) : Int := l.arg0.toInt

/-! ### Pixels -/

/-- `pack565` (43_color.md R201): red in bits 15:11, green in 10:5, blue in 4:0, low-order bits of
each channel truncated. PRESUMED (log 10): the placement of the fields is general knowledge by the
spec's own mark (G3); unsafe for a controller with another layout. -/
def pack565 (r g b : Byte) : Half :=
  ((r.extractLsb' 3 5).setWidth 16 <<< 11) ||| ((g.extractLsb' 2 6).setWidth 16 <<< 5) |||
    (b.extractLsb' 3 5).setWidth 16

/-- The byte an entry of a data frame puts on the bus. A pixel goes low byte first (R202). -/
def OutByte.value : OutByte → Byte
  | .lit b => b
  | .payload f => f.value
  | .pixelLow r g b => lo8 (pack565 r.value g.value b.value)
  | .pixelHigh r g b => hi8 (pack565 r.value g.value b.value)

/-- The bits of a byte in the order they go on the wire: "most-significant-bit first"
(20_memory.md R69, 40_transport.md R133). -/
def wireBits (b : Byte) : List Bool := (List.range 8).map fun i => b.getMsbD i

/-- The bits a transfer clocks out: "The bytes of one frame are sent in list order" (R69). -/
def wireStream (bs : List Byte) : List Bool := bs.flatMap wireBits

end Sys2Proof.Machine
end

