-- ==== Sys2Proof/Machine/Flags.lean ====
section
/-! DEFINITION. STATUS and PINS as the host reads them, and every rule that sets or clears a
STATUS bit (10_state.md R24, R25, R41; 60_exceptions.md R240, R244 to R247). -/

namespace Sys2Proof.Machine

/-- The OP code an operation is recorded under (30_encoding.md R92). -/
def Operation.code : Operation → Byte
  | .init => 0x01
  | .writeCmd => 0x02
  | .writeData => 0x03
  | .setWindow => 0x04
  | .render => 0x05
  | .renderRaw => 0x06
  | .clear => 0x07
  | .clearWindow => 0x08
  | .setBrightness => 0x09
  | .shutdown => 0x0A

/-- A word with one bit set or none. -/
def flagBit (b : Bool) (i : Nat) : Word := if b then 1#32 <<< i else 0

/-- "REG[BUSY] = 1 exactly while op != none" (10_state.md R44). -/
def State.busy (s : State) : Bool := s.op.isSome

/-- The STATUS register as read (R24); reserved bits read 0. -/
def State.statusWord (s : State) : Word :=
  flagBit s.busy 0 ||| flagBit s.status.initDone 1 ||| flagBit s.status.cfgLock 2 |||
    flagBit s.status.cfgErr 8 ||| flagBit s.status.precondErr 9 ||| flagBit s.status.busErr 10 |||
    flagBit s.status.opErr 11 ||| flagBit s.status.winWarn 12 |||
    (s.status.errOp.setWidth 32 <<< 16)

/-- 1 for a high line. -/
def Level.isHigh : Level → Bool
  | .low => false
  | .high => true

/-- The PINS register as read (R41): DC, RST, and BL_ON = 1 if and only if BL_OUT is not 0. -/
def State.pinsWord (s : State) : Word :=
  flagBit s.dc.isHigh 0 ||| flagBit s.rst.isHigh 1 ||| flagBit (s.regs.blOut != 0) 2

/-- A host write of `v` to STATUS "clears every bit i in {8,9,10,11,12} for which v[i] = 1, and
changes no other bit" (R25). -/
def Status.writeOneToClear (v : Word) (st : Status) : Status :=
  { st with
    cfgErr := st.cfgErr && !v.getLsbD 8
    precondErr := st.precondErr && !v.getLsbD 9
    busErr := st.busErr && !v.getLsbD 10
    opErr := st.opErr && !v.getLsbD 11
    winWarn := st.winWarn && !v.getLsbD 12 }

/-- `REG[bit(E)] <- 1 ; REG[ERR_OP] <- op` (R240, R245). -/
def Status.recordError (e : ErrorKind) (op : Byte) (st : Status) : Status :=
  match e with
  | .configuration => { st with cfgErr := true, errOp := op }
  | .precondition => { st with precondErr := true, errOp := op }
  | .busIO => { st with busErr := true, errOp := op }

/-- `raise_reject(opc)`: OP_ERR = 1 and ERR_OP = opc (40_transport.md R142). -/
def Status.recordReject (op : Byte) (st : Status) : Status := { st with opErr := true, errOp := op }

/-- `WinWarn()`: WIN_WARN = 1 and ERR_OP = op (42_window.md R183). -/
def Status.recordWinWarn (op : Byte) (st : Status) : Status :=
  { st with winWarn := true, errOp := op }

/-- Whether an abort of the operation also clears INIT_DONE: BusIOError in INIT or SHUTDOWN
(R245, 41_init_sequencer.md R161). -/
def abortClearsInitDone (e : ErrorKind) (o : Operation) : Bool :=
  e == .busIO && (o == .init || o == .shutdown)

end Sys2Proof.Machine
end

