-- ==== Sys2Proof/Machine/Ops.lean ====
section
/-! DEFINITION. The shared operations: host memory, events and lines, the bus outcome, operation
start, the raising of an error (60_exceptions.md R245), the rejection of a CTRL write (R244) and
the block reset (70_reset_and_hazards.md R270). -/

namespace Sys2Proof.Machine

/-! ### Host memory (20_memory.md R64) -/

/-- What a byte of host memory that nothing has written reads as. DESIGN CHOICE (log 7): the spec
gives host memory no contents at reset, and "every address holds a byte" (R64). Unsafe. -/
def Memory.unlisted : Byte := 0

/-- `HMEM[a]` for an address below 2^32. -/
def Memory.read : Memory → Nat → Byte
  | [], _ => Memory.unlisted
  | (b, v) :: m, a => if a = b then v else Memory.read m a

/-- The memory with byte `v` at address `a`, in canonical form. -/
def Memory.write : Memory → Nat → Byte → Memory
  | [], a, v => if v = Memory.unlisted then [] else [(a, v)]
  | (b, w) :: m, a, v =>
    if a < b then
      if v = Memory.unlisted then (b, w) :: m else (a, v) :: (b, w) :: m
    else if a = b then
      if v = Memory.unlisted then m else (a, v) :: m
    else (b, w) :: Memory.write m a v

/-- Every address of the list is above `a`, rising, below 2^32, and holds a byte other than the
unlisted one. -/
def Memory.wfAbove : Nat → Memory → Bool
  | _, [] => true
  | a, (b, v) :: m => decide (a < b) && decide (b < 2 ^ 32) && decide (v ≠ Memory.unlisted) &&
      Memory.wfAbove b m

/-- The canonical form of host memory: equal memories are equal lists. -/
def Memory.wf : Memory → Bool
  | [] => true
  | (b, v) :: m => decide (b < 2 ^ 32) && decide (v ≠ Memory.unlisted) && Memory.wfAbove b m

/-- The address of the payload byte with index `i`: `(L.ADDR + i) mod 2^32` (R64). -/
def payloadAddress (start : Word) (i : Nat) : Word := start + BitVec.ofNat 32 i

/-- `MemRead(start + i, 1)` as the payload byte with index `i` (R64). -/
def fetch (m : Memory) (start : Word) (i : Nat) : Fetched :=
  { index := i, value := m.read (payloadAddress start i).toNat }

/-! ### Events and lines -/

/-- `Emit(ev)` (00_scope.md R10). -/
def State.emit (e : Event) (s : State) : State := { s with trace := s.trace ++ [e] }

/-- `dc <- l ; Emit(DcSet(l))` (40_transport.md R130). -/
def State.driveDc (l : Level) (s : State) : State := { s with dc := l, trace := s.trace ++ [.dcSet l] }

/-- `rst <- l ; Emit(RstSet(l))` (41_init_sequencer.md R153). -/
def State.driveRst (l : Level) (s : State) : State :=
  { s with rst := l, trace := s.trace ++ [.rstSet l] }

/-- `REG[BL_OUT] <- d ; Emit(BlSet(d))`: "Every change is emitted as `BlSet(OUT)`" (10_state.md
R38). "A change of BL_OUT takes effect on the `bl` waveform no later than the start of the next PWM
period" (44_backlight.md R225): whether it does at once is a free value (log 14). -/
def State.setBlOut (d : Duty) (s : State) : State :=
  { s with
    regs := { s.regs with blOut := d }
    pwmOut := if Config.pwmUpdatesNow s.freeIx then d else s.pwmOut
    freeIx := s.freeIx + 1
    trace := s.trace ++ [.blSet d] }

/-! ### The bus outcome (40_transport.md R134) -/

/-- The outcome of the k-th transfer from now: the bus input where it reaches that far, else a free
value (log 5). -/
def State.outcomeAt (s : State) (k : Nat) : BusOutcome :=
  match s.bus[k]? with
  | some o => o
  | none => Config.busOutcome (s.busCount + k)

/-- One transfer has taken its outcome. -/
def State.drawOutcome (s : State) : State :=
  { s with bus := s.bus.tail, busCount := s.busCount + 1 }

/-! ### Errors -/

/-- `raise E(info)` inside an operation (60_exceptions.md R245), in one step. "No later micro-step
of the operation is performed", and everything emitted or written before stays. -/
def raiseError (e : ErrorKind) (s : State) : State :=
  match s.op with
  | none => s
  | some o =>
    let st := s.status.recordError e o.code
    { s with
      status := if abortClearsInitDone e o then { st with initDone := false } else st
      op := none
      todo := [] }

/-- `raise_reject(opc)` (40_transport.md R142, 60_exceptions.md R244): it "changes nothing
else". -/
def raiseReject (op : Byte) (s : State) : State := { s with status := s.status.recordReject op }

/-- `WinWarn()` (42_window.md R183, 60_exceptions.md R247): a report, not an abort. -/
def reportWindow (s : State) : State :=
  match s.op with
  | none => s
  | some o => { s with status := s.status.recordWinWarn o.code }

/-! ### Operation start and end -/

/-- The latch an operation start takes (10_state.md R43, 40_transport.md R142). -/
def State.latchNow (omitX1 omitY1 : Bool) (s : State) : Latch :=
  { arg0 := s.regs.arg0, arg1 := s.regs.arg1, addr := s.regs.addr, len := s.regs.len
    omitX1 := omitX1, omitY1 := omitY1, cfg := s.regs.cfg }

/-- The common start of every operation (R142): a CTRL write while BUSY = 1 is rejected; otherwise
the operands and the configuration are latched and the operation's program, fixed from the latch
and from host memory (10_state.md R44), starts at step 0. -/
def startOperation (o : Operation) (omitX1 omitY1 : Bool) (program : Latch → List Micro)
    (s : State) : State :=
  match s.op with
  | some _ => raiseReject o.code s
  | none =>
    { s with
      latch := s.latchNow omitX1 omitY1
      op := some o
      stepIx := 0
      todo := program (s.latchNow omitX1 omitY1)
      stalled := false }

/-- `op <- none ; REG[BUSY] <- 0` (R143). -/
def endOperation (s : State) : State := { s with op := none }

/-- The block reset (70_reset_and_hazards.md R270): the running operation is abandoned, every
register and line takes its value of 10_state.md R49, and no event is emitted. The PWM phase is
"unspecified" (R46, U12): a free value within its range (log 8). The latch and the step index are
"unspecified and unread" (R49): they keep what they hold (log 9). What is outside the block (host
memory, the trace so far, the inputs) and its parameters stay (log 25). DESIGN CHOICE (log 26): the
reset input is a level ("While it is asserted, and on its release"); the model makes the interval in
which it is held one indivisible turn, with no access or tick inside it. -/
def blockReset (s : State) : State :=
  { s with
    regs := Regs.reset
    status := Status.reset
    op := none
    todo := []
    stalled := false
    dc := .high
    rst := .high
    pwmCnt := Config.pwmPhase s.freeIx % s.params.pwmRes
    pwmOut := 0
    freeIx := s.freeIx + 1
    resetMark := s.trace.length }

end Sys2Proof.Machine
end

