-- ==== Sys2Proof/Machine/Backlight.lean ====
section
/-! DEFINITION. The Brightness Controller (44_backlight.md): the clamp, the output value, the
instruction SET_BRIGHTNESS and the PWM generator. -/

namespace Sys2Proof.Machine

/-- `clampQ(v)` (R220). -/
def clampQ (v : Int) : Duty :=
  if v < 0 then 0 else if v > 65536 then 65536 else BitVec.ofInt 17 v

/-- `blout(d, blm)` (R221): the duty itself in continuous mode, on or off in binary mode. -/
def blout (d : Duty) (blm : Bool) : Duty := if blm then if d = 0 then 0 else 65536 else d

/-- The program of SET_BRIGHTNESS (R222). The output is computed from BL_DUTY, which the
micro-step before has just set to the clamped value. -/
def setBrightnessProgram (l : Latch) : List Micro := [.setDuty (clampQ l.brightness), .driveBacklight]

/-- SET_BRIGHTNESS (R222). -/
def execSetBrightness (omitX1 omitY1 : Bool) (s : State) : Host.Outcome State Fault Refusal :=
  .next (startOperation .setBrightness omitX1 omitY1 setBrightnessProgram s)

/-- `hi = (OUT * PWM_RES) div 65536`: the ticks of a period for which `bl` is high (R224). -/
def pwmHighTicks (out : Duty) (res : Nat) : Nat := out.toNat * res / 65536

/-- The level of the `bl` line: in binary mode high while BL_OUT is not 0, at once (R223); in
continuous mode high for the first `hi` ticks of the period (R224). The generator reads the
registers directly, not a latch (R224). The same for CFG_BL_HZ = 0 (DESIGN CHOICE, log 27). -/
def State.blLine (s : State) : Level :=
  if s.regs.cfg.blm then
    if s.regs.blOut = 0 then .low else .high
  else if s.pwmCnt < pwmHighTicks s.pwmOut s.params.pwmRes then .high else .low

/-- One tick of the PWM generator (R224). A change of BL_OUT is in the waveform "no later than the
start of the next PWM period" (R225): at the start of a period it is taken over, at any other tick
a free value says (log 14). DESIGN CHOICE (log 27): with CFG_BL_HZ = 0 the period 1/CFG_BL_HZ has no
value in the spec; the model ticks and drives `bl` as for any other CFG_BL_HZ. -/
def pwmTick (s : State) : State :=
  let cnt := (s.pwmCnt + 1) % s.params.pwmRes
  { s with
    pwmCnt := cnt
    pwmOut := if cnt = 0 || Config.pwmUpdatesNow s.freeIx then s.regs.blOut else s.pwmOut
    freeIx := s.freeIx + 1 }

end Sys2Proof.Machine
end

