-- ==== Sys2Proof/Machine/Transport.lean ====
section
/-! DEFINITION. The Transport (40_transport.md): framing, chunking, and the instructions NOP,
WRITE_CMD and WRITE_DATA. -/

namespace Sys2Proof.Machine

/-- The micro-steps of `Cmd(b)` (R130). -/
def cmdFrame (b : Byte) : List Micro := [.dcSet .low, .cmdTransfer b, .dcSet .high]

/-- At most `fuel` consecutive pieces of `m` elements each, the last one shorter where the list
ends. -/
def piecesOf {α : Type} (m : Nat) : Nat → List α → List (List α)
  | 0, _ => []
  | _ + 1, [] => []
  | fuel + 1, x :: xs => (x :: xs).take m :: piecesOf m fuel ((x :: xs).drop m)

/-- `chunks(bs)` (R132) for a non-empty or empty list: no piece for the empty list (R138), the list
itself for MAX_XFER = INF, else pieces of MAX_XFER bytes. MAX_XFER = 0 is no value R7 admits. -/
def chunks {α : Type} (p : Params) (bs : List α) : List (List α) :=
  match p.maxXfer with
  | none => if bs.isEmpty then [] else [bs]
  | some m => piecesOf m bs.length bs

/-- The micro-steps of `Data(bs)` (R131). -/
def dataFrame (p : Params) (bs : List OutByte) : List Micro := (chunks p bs).map .dataTransfer

/-- A data frame of bytes the rule gives. -/
def litFrame (p : Params) (bs : List Byte) : List Micro := dataFrame p (bs.map .lit)

/-- `Data(zeros(n))` (00_scope.md R9). -/
def zeroFrame (p : Params) (n : Nat) : List Micro := dataFrame p (List.replicate n (.lit 0))

/-- The payload of WRITE_DATA (R141): `n` bytes of host memory from `a`, addresses mod 2^32. -/
def payloadBytes (m : Memory) (a : Word) (n : Nat) : List OutByte :=
  (List.range n).map fun i => .payload (fetch m a i)

/-- The program of WRITE_CMD (R140). -/
def writeCmdProgram (l : Latch) : List Micro := cmdFrame l.command

/-- The program of WRITE_DATA (R141). -/
def writeDataProgram (p : Params) (m : Memory) (l : Latch) : List Micro :=
  dataFrame p (payloadBytes m l.addr l.len.toNat)

/-- NOP (R139): "The write is discarded before rule R142's checks." -/
def execNop (s : State) : Host.Outcome State Fault Refusal := .next s

/-- WRITE_CMD (R140). -/
def execWriteCmd (omitX1 omitY1 : Bool) (s : State) : Host.Outcome State Fault Refusal :=
  .next (startOperation .writeCmd omitX1 omitY1 writeCmdProgram s)

/-- WRITE_DATA (R141). -/
def execWriteData (omitX1 omitY1 : Bool) (s : State) : Host.Outcome State Fault Refusal :=
  .next (startOperation .writeData omitX1 omitY1 (writeDataProgram s.params s.mem) s)

end Sys2Proof.Machine
end

