-- ==== Sys2Proof/Machine/Window.lean ====
section
/-! DEFINITION. The Window Manager (42_window.md): the addressing step and the instructions
SET_WINDOW, CLEAR and CLEAR_WINDOW. -/

namespace Sys2Proof.Machine

/-- The window invariant (R183): `x0 <= x1 < WIDTH and y0 <= y1 < HEIGHT`. -/
def windowLegal (c : CfgRegs) (x0 y0 x1 y1 : Half) : Bool :=
  decide (x0.toNat ≤ x1.toNat) && decide (x1.toNat < c.width.toNat) &&
    (decide (y0.toNat ≤ y1.toNat) && decide (y1.toNat < c.height.toNat))

/-- The parameter bytes of an address-set command (30_encoding.md R104), big-endian. -/
def addressBytes (start stop : Half) : List Byte := [hi8 start, lo8 start, hi8 stop, lo8 stop]

/-- The five frames of the addressing step (R184), with the offsets added mod 2^16 (R182). -/
def addressingFrames (p : Params) (c : CfgRegs) (x0 y0 x1 y1 : Half) : List Micro :=
  cmdFrame p.cmdCaset ++ litFrame p (addressBytes (x0 + c.offLeft) (x1 + c.offLeft)) ++
    (cmdFrame p.cmdRaset ++ litFrame p (addressBytes (y0 + c.offTop) (y1 + c.offTop))) ++
    cmdFrame p.cmdRamwr

/-- `SetWindowCore(x0, y0, x1, y1)` (R184): LAST_WIN is recorded mod 2^16 (R181), the invariant is
checked only to report (R183), then the frames are sent. -/
def setWindowCore (p : Params) (c : CfgRegs) (x0 y0 x1 y1 : Half) : List Micro :=
  .recordWindow (x1 - x0 + 1) (y1 - y0 + 1) ::
    ((if windowLegal c x0 y0 x1 y1 then [] else [.winWarn]) ++ addressingFrames p c x0 y0 x1 y1)

/-- `FullClear(L)` (R186). The byte count is a natural number and does not wrap. -/
def fullClear (p : Params) (c : CfgRegs) : List Micro :=
  setWindowCore p c 0 0 (c.width - 1) (c.height - 1) ++
    zeroFrame p (2 * c.width.toNat * c.height.toNat)

/-- The program of SET_WINDOW (R185). -/
def setWindowProgram (p : Params) (l : Latch) : List Micro :=
  setWindowCore p l.cfg l.startX l.startY l.endX l.endY

/-- The program of CLEAR (R186). -/
def clearProgram (p : Params) (l : Latch) : List Micro := fullClear p l.cfg

/-- The program of CLEAR_WINDOW (R187), from LAST_WIN "read at the start of the operation". -/
def clearWindowProgram (p : Params) (w h : Half) : List Micro :=
  zeroFrame p (2 * w.toNat * h.toNat)

/-- SET_WINDOW (R185). -/
def execSetWindow (omitX1 omitY1 : Bool) (s : State) : Host.Outcome State Fault Refusal :=
  .next (startOperation .setWindow omitX1 omitY1 (setWindowProgram s.params) s)

/-- CLEAR (R186). -/
def execClear (omitX1 omitY1 : Bool) (s : State) : Host.Outcome State Fault Refusal :=
  .next (startOperation .clear omitX1 omitY1 (clearProgram s.params) s)

/-- CLEAR_WINDOW (R187). -/
def execClearWindow (omitX1 omitY1 : Bool) (s : State) : Host.Outcome State Fault Refusal :=
  .next (startOperation .clearWindow omitX1 omitY1
    (fun _ => clearWindowProgram s.params s.regs.lastW s.regs.lastH) s)

end Sys2Proof.Machine
end

