-- ==== Sys2Proof/Machine/Color.lean ====
section
/-! DEFINITION. The Color Pipeline (43_color.md): pixel conversion and the instructions RENDER_RAW
and RENDER. -/

namespace Sys2Proof.Machine

/-- The two bytes of source pixel `k` of a payload at `a` (R200, R202): three payload bytes at
`a + 3k ..` in the order SRC_ORDER, packed, low byte first. -/
def pixelBytes (o : SrcOrder) (m : Memory) (a : Word) (k : Nat) : List OutByte :=
  let c0 := fetch m a (3 * k)
  let c1 := fetch m a (3 * k + 1)
  let c2 := fetch m a (3 * k + 2)
  match o with
  | .rgb => [.pixelLow c0 c1 c2, .pixelHigh c0 c1 c2]
  | .bgr => [.pixelLow c2 c1 c0, .pixelHigh c2 c1 c0]

/-- `StreamPixels(a, n)` (R203): one data frame of 2n bytes. -/
def streamPixels (p : Params) (m : Memory) (a : Word) (n : Nat) : List Micro :=
  dataFrame p ((List.range n).flatMap (pixelBytes p.srcOrder m a))

/-- RENDER's precondition fails (R208). -/
def imageUnfit (l : Latch) : Bool :=
  decide (l.imageW.toNat = 0) || decide (l.imageH.toNat = 0) ||
    (decide (l.cfg.width.toNat < l.imageW.toNat) || decide (l.cfg.height.toNat < l.imageH.toNat))

/-- The first coordinate of an image of `size` pixels centred on `extent` (R206), "using integer
(floor) division". -/
def placeStart (extent size : Half) : Half := BitVec.ofNat 16 ((extent.toNat - size.toNat) / 2)

/-- The last coordinate: "inclusive end: the window holds exactly iw x ih pixels" (R206, C1). -/
def placeEnd (extent size : Half) : Half := placeStart extent size + size - 1

/-- The program of RENDER_RAW (R205). -/
def renderRawProgram (p : Params) (m : Memory) (l : Latch) : List Micro :=
  streamPixels p m l.addr l.len.toNat

/-- The program of RENDER (R207): the check comes first, before any event and any read (R208). -/
def renderProgram (p : Params) (m : Memory) (l : Latch) : List Micro :=
  if imageUnfit l then [.raise .precondition]
  else
    setWindowCore p l.cfg (placeStart l.cfg.width l.imageW) (placeStart l.cfg.height l.imageH)
        (placeEnd l.cfg.width l.imageW) (placeEnd l.cfg.height l.imageH) ++
      streamPixels p m l.addr (l.imageW.toNat * l.imageH.toNat)

/-- RENDER (R207). -/
def execRender (omitX1 omitY1 : Bool) (s : State) : Host.Outcome State Fault Refusal :=
  .next (startOperation .render omitX1 omitY1 (renderProgram s.params s.mem) s)

/-- RENDER_RAW (R205). -/
def execRenderRaw (omitX1 omitY1 : Bool) (s : State) : Host.Outcome State Fault Refusal :=
  .next (startOperation .renderRaw omitX1 omitY1 (renderRawProgram s.params s.mem) s)

end Sys2Proof.Machine
end

