-- ==== Sys2Proof/Machine/Sequence.lean ====
section
/-! DEFINITION. The Initialization Sequencer (41_init_sequencer.md): INIT and SHUTDOWN. -/

namespace Sys2Proof.Machine

/-- `rotbits` (R151). "rotbits is not defined for other values": no answer, not a value. -/
def rotBits (p : Params) (deg : Half) : Option Byte :=
  match deg.toNat with
  | 0 => some 0
  | 90 => some (p.oriMirrorV ||| p.oriSwap)
  | 180 => some (p.oriMirrorH ||| p.oriMirrorV)
  | 270 => some (p.oriMirrorH ||| p.oriSwap)
  | _ => none

/-- `orient(L)` (R152), where the rotation is one of the four. -/
def orientByte (p : Params) (c : CfgRegs) : Option Byte :=
  (rotBits p c.rotDeg).map fun r => p.oriLine ||| (if c.bgr then p.oriBgr else 0) ||| r

/-- The rotation is one of {0, 90, 180, 270} (R150, 30_encoding.md R108). -/
def rotationLegal (c : CfgRegs) : Bool :=
  c.rotDeg.toNat == 0 || c.rotDeg.toNat == 90 || (c.rotDeg.toNat == 180 || c.rotDeg.toNat == 270)

/-- `malformed(L)` (R150), sums in Nat. -/
def malformed (c : CfgRegs) : Bool :=
  !rotationLegal c ||
  (decide (c.width.toNat = 0) || decide (c.height.toNat = 0)) ||
  (decide (65536 < c.offLeft.toNat + c.width.toNat) ||
    decide (65536 < c.offTop.toNat + c.height.toNat)) ||
  (decide (c.spiHz.toNat = 0) || (!c.blm && decide (c.blHz.toNat = 0)))

/-- `Emit(Wait(ms))` where ms > 0 (R154, R156 to R158). -/
def waitIfPositive (ms : Nat) : List Micro := if ms = 0 then [] else [.wait ms]

/-- HARDWARE_RESET (R153): three levels, a wait after each. -/
def hardwareReset (p : Params) : List Micro :=
  [.rstSet .high, .wait p.tRstMs, .rstSet .low, .wait p.tRstMs, .rstSet .high, .wait p.tRstMs]

/-- SOFT_RESET (R154). -/
def softReset (p : Params) : List Micro := cmdFrame p.cmdSwreset ++ waitIfPositive p.tSwresetMs

/-- CONFIGURE_ORIENTATION (R155) with the orientation byte `o`. -/
def configureOrientation (p : Params) (c : CfgRegs) (o : Byte) : List Micro :=
  .setOrient o :: (cmdFrame p.cmdMadctl ++ litFrame p [o] ++
    cmdFrame (if c.inv then p.cmdInvon else p.cmdInvoff))

/-- The replay of one INIT_TABLE entry (R156, 30_encoding.md R109). -/
def replayEntry (p : Params) (e : TableEntry) : List Micro :=
  cmdFrame e.cmd ++ litFrame p e.bytes ++ waitIfPositive e.waitMs

/-- CONFIGURE_TIMING/POWER/GAMMA (R156): the table in list order. -/
def replayTable (p : Params) : List Micro := p.initTable.flatMap (replayEntry p)

/-- EXIT_SLEEP (R157). -/
def exitSleep (p : Params) : List Micro := cmdFrame p.cmdSlpout ++ waitIfPositive p.tSlpoutMs

/-- DISPLAY_ON (R158). -/
def displayOn (p : Params) : List Micro := cmdFrame p.cmdDispon ++ waitIfPositive p.tDisponMs

/-- SET_DEFAULT_WINDOW (R159). -/
def setDefaultWindow (p : Params) (c : CfgRegs) : List Micro :=
  setWindowCore p c 0 0 (c.width - 1) (c.height - 1)

/-- INIT after its validation (R160), with the orientation byte `o`. -/
def initSequence (p : Params) (c : CfgRegs) (o : Byte) : List Micro :=
  [.clearInitDone, .blackout] ++ hardwareReset p ++ softReset p ++ configureOrientation p c o ++
    replayTable p ++ exitSleep p ++ displayOn p ++ setDefaultWindow p c ++ fullClear p c ++
    [.driveBacklight, .finishInit]

/-- The program of INIT (R160): a malformed configuration raises ConfigurationError as the first
micro-step and nothing else happens (R241). The orientation byte exists wherever the configuration
is not malformed. -/
def initProgram (p : Params) (l : Latch) : List Micro :=
  match malformed l.cfg, orientByte p l.cfg with
  | false, some o => initSequence p l.cfg o
  | _, _ => [.raise .configuration]

/-- The program of SHUTDOWN (R163). "SHUTDOWN performs no configuration check." -/
def shutdownProgram (p : Params) (l : Latch) : List Micro :=
  fullClear p l.cfg ++ cmdFrame p.cmdDispoff ++ [.setDuty 0, .blackout, .finishShutdown]

/-- INIT (R160). -/
def execInit (omitX1 omitY1 : Bool) (s : State) : Host.Outcome State Fault Refusal :=
  .next (startOperation .init omitX1 omitY1 (initProgram s.params) s)

/-- SHUTDOWN (R163). -/
def execShutdown (omitX1 omitY1 : Bool) (s : State) : Host.Outcome State Fault Refusal :=
  .next (startOperation .shutdown omitX1 omitY1 (shutdownProgram s.params) s)

end Sys2Proof.Machine
end

