-- ==== Sys2Proof/Machine/Dispatch.lean ====
section
/-! DEFINITION. One arm per instruction. -/

namespace Sys2Proof.Machine

def exec (i : Instr) (s : State) : Host.Outcome State Fault Refusal :=
  match i with
  | .nop => Sys2Proof.Machine.execNop s
  | .init omitX1 omitY1 => Sys2Proof.Machine.execInit omitX1 omitY1 s
  | .writeCmd omitX1 omitY1 => Sys2Proof.Machine.execWriteCmd omitX1 omitY1 s
  | .writeData omitX1 omitY1 => Sys2Proof.Machine.execWriteData omitX1 omitY1 s
  | .setWindow omitX1 omitY1 => Sys2Proof.Machine.execSetWindow omitX1 omitY1 s
  | .render omitX1 omitY1 => Sys2Proof.Machine.execRender omitX1 omitY1 s
  | .renderRaw omitX1 omitY1 => Sys2Proof.Machine.execRenderRaw omitX1 omitY1 s
  | .clear omitX1 omitY1 => Sys2Proof.Machine.execClear omitX1 omitY1 s
  | .clearWindow omitX1 omitY1 => Sys2Proof.Machine.execClearWindow omitX1 omitY1 s
  | .setBrightness omitX1 omitY1 => Sys2Proof.Machine.execSetBrightness omitX1 omitY1 s
  | .shutdown omitX1 omitY1 => Sys2Proof.Machine.execShutdown omitX1 omitY1 s

end Sys2Proof.Machine
end

