-- ==== Sys2Proof/Machine/Sequencer.lean ====
section
/-! DEFINITION. The block sequencer (10_state.md R44): what one micro-step does, one step of the
sequencer, and several of them. -/

namespace Sys2Proof.Machine

/-- `Transfer(c)` (40_transport.md R134) with what a failure leads to. A stalled transfer leaves the
operation running for good (R137). -/
def transfer (bs : List Byte) (onFail : State → State) (s : State) : State :=
  match s.outcomeAt 0 with
  | .ok => s.drawOutcome.emit (.xfer bs)
  | .fail => onFail (s.drawOutcome.emit (.xferFail bs))
  | .stall => { s.drawOutcome with stalled := true }

/-- A failed transfer inside `Cmd(b)`: "the block still performs `dc <- 1 ; Emit(DcSet(1))` before
the abort" (R135). One micro-step (DEDUCED, log 3). -/
def failCommand (s : State) : State := raiseError .busIO (s.driveDc .high)

/-- A failed transfer inside `Data(bs)`: "the remaining chunks are not sent and the operation
aborts" (R136). -/
def failData (s : State) : State := raiseError .busIO s

/-- The effect of one micro-step. -/
def perform (m : Micro) (s : State) : State :=
  match m with
  | .raise e => raiseError e s
  | .dcSet l => s.driveDc l
  | .cmdTransfer b => transfer [b] failCommand s
  | .dataTransfer c => transfer (c.map OutByte.value) failData s
  | .rstSet l => s.driveRst l
  | .wait ms => s.emit (.wait ms)
  | .clearInitDone => { s with status := { s.status with initDone := false } }
  | .blackout => s.setBlOut 0
  | .setOrient o => { s with regs := { s.regs with orient := o } }
  | .recordWindow w h => { s with regs := { s.regs with lastW := w, lastH := h } }
  | .winWarn => reportWindow s
  | .setDuty d => { s with regs := { s.regs with blDuty := d } }
  | .driveBacklight => s.setBlOut (blout s.regs.blDuty s.latch.cfg.blm)
  | .finishInit => { s with status := { s.status with initDone := true, cfgLock := true } }
  | .finishShutdown => { s with status := { s.status with initDone := false, cfgLock := false } }

/-- One step of the sequencer: nothing while idle or stalled; else the next micro-step, "`step`
advances by exactly 1" (R44), or the end of the operation where none is left (R143; a step of its
own: DEDUCED, log 4). -/
def seqStep (s : State) : State :=
  match s.op, s.stalled, s.todo with
  | none, _, _ => s
  | some _, true, _ => s
  | some _, false, [] => endOperation s
  | some _, false, m :: ms => perform m { s with todo := ms, stepIx := s.stepIx + 1 }

/-- `n` steps of the sequencer with nothing else in between. -/
def seqRun : Nat → State → State
  | 0, s => s
  | n + 1, s => seqRun n (seqStep s)

/-- The state in which the running operation has ended, where it does not stall: one step of the
sequencer for every micro-step left and one for the end. -/
def State.finish (s : State) : State := seqRun (s.todo.length + 1) s

/-- The payload byte after the host's store of `v` to `a` while the operation runs: where it lies at
`a`, "the model admits either the old or the new value for every such byte, independently"
(20_memory.md R81): a free value (log 6). -/
def Fetched.race (start a : Word) (v : Byte) (n : Nat) (f : Fetched) : Fetched :=
  if payloadAddress start f.index = a && Config.raceTakesNew n f.index then { f with value := v } else f

/-- The race on every payload byte a byte to be sent is made of. -/
def OutByte.race (start a : Word) (v : Byte) (n : Nat) : OutByte → OutByte
  | .lit b => .lit b
  | .payload f => .payload (f.race start a v n)
  | .pixelLow r g b => .pixelLow (r.race start a v n) (g.race start a v n) (b.race start a v n)
  | .pixelHigh r g b => .pixelHigh (r.race start a v n) (g.race start a v n) (b.race start a v n)

/-- The race on what a micro-step has yet to send. -/
def Micro.race (start a : Word) (v : Byte) (n : Nat) : Micro → Micro
  | .dataTransfer c => .dataTransfer (c.map (OutByte.race start a v n))
  | m => m

/-- The race on what is left of a program. Where the low byte of a pixel has been sent and its high
byte comes next (a chunk boundary splits the pixel), green and blue, which the low byte is made of
(43_color.md R201), have been read, and the block "reads each payload byte at most once per operation"
(20_memory.md R67): a later store cannot change them. Red enters the high byte only, so it can be read
until that byte's transfer and still races (DEDUCED, log 6). -/
def raceProgram (start a : Word) (v : Byte) (n : Nat) : List Micro → List Micro
  | .dataTransfer (.pixelHigh r g b :: c) :: ms =>
    .dataTransfer (.pixelHigh (r.race start a v n) g b :: c.map (OutByte.race start a v n)) ::
      ms.map (Micro.race start a v n)
  | ms => ms.map (Micro.race start a v n)

end Sys2Proof.Machine
end

