-- ==== Sys2Proof/Machine/HostPort.lean ====
section
/-! DEFINITION. What the host does to the block: register reads and writes (10_state.md R22 to R42,
20_memory.md R62, R63), its own memory writes, and the turns. -/

namespace Sys2Proof.Machine

/-- "A register access must be a 32-bit access at an offset that is a multiple of 4" (20_memory.md
R62). -/
def accessLegal (offset : BitVec 8) (width : Width) : Bool :=
  width == .w32 && offset.toNat % 4 == 0

/-- Well-formedness of a host access (R62). A store to host memory has no condition (R65). -/
def HostAccess.wellFormed : HostAccess → Bool
  | .read offset width => accessLegal offset width
  | .write offset width _ => accessLegal offset width
  | .store _ _ => true

/-- The value an aligned 32-bit read returns (R22): CTRL and reserved offsets read 0 (R23, R42). -/
def readRegister (s : State) (offset : BitVec 8) : Word :=
  match offset.toNat with
  | 0x04 => s.statusWord
  | 0x08 => s.regs.arg0
  | 0x0C => s.regs.arg1
  | 0x10 => s.regs.addr
  | 0x14 => s.regs.len
  | 0x18 => s.regs.cfg.size
  | 0x1C => s.regs.cfg.offset
  | 0x20 => s.regs.cfg.mode
  | 0x24 => s.regs.cfg.spiHz
  | 0x28 => s.regs.cfg.blHz
  | 0x2C => s.regs.cfg.fps
  | 0x30 => s.regs.blDuty.setWidth 32
  | 0x34 => s.regs.blOut.setWidth 32
  | 0x38 => pack s.regs.lastW s.regs.lastH
  | 0x3C => s.regs.orient.setWidth 32
  | 0x40 => s.pinsWord
  | _ => 0

/-- CFG_* can be written: "if and only if REG[CFG_LOCK] = 0 and REG[BUSY] = 0" (R36). -/
def State.cfgWritable (s : State) : Bool := !s.status.cfgLock && !s.busy

/-- A host write to a CFG_* register: stored or ignored (R36). -/
def writeCfg (f : CfgRegs → CfgRegs) (s : State) : State :=
  if s.cfgWritable then { s with regs := { s.regs with cfg := f s.regs.cfg } } else s

/-- The effect of an aligned 32-bit write to a register other than CTRL. A write to a read-only or
reserved offset is ignored (R21, R42). -/
def writeRegister (offset : BitVec 8) (v : Word) (s : State) : State :=
  match offset.toNat with
  | 0x04 => { s with status := s.status.writeOneToClear v }
  | 0x08 => { s with regs := { s.regs with arg0 := v } }
  | 0x0C => { s with regs := { s.regs with arg1 := v } }
  | 0x10 => { s with regs := { s.regs with addr := v } }
  | 0x14 => { s with regs := { s.regs with len := v } }
  | 0x18 => writeCfg (fun c => { c with size := v }) s
  | 0x1C => writeCfg (fun c => { c with offset := v }) s
  | 0x20 => writeCfg (fun c => { c with mode := v &&& cfgModeWritable }) s
  | 0x24 => writeCfg (fun c => { c with spiHz := v }) s
  | 0x28 => writeCfg (fun c => { c with blHz := v }) s
  | 0x2C => writeCfg (fun c => { c with fps := v }) s
  | _ => s

/-- A host write to CTRL (40_transport.md R142): the decoded instruction runs. A reserved OP is
rejected (30_encoding.md R100); while BUSY = 1 the BUSY check rejects it with the same result
(60_exceptions.md R248). -/
def writeCtrl (v : Word) (s : State) : Host.Outcome State Fault Refusal :=
  match decode v with
  | .instr i => exec i s
  | .reservedOp op => .next (raiseReject op s)

/-- A host write to its own memory. While an operation runs, it races with the payload bytes still
to be read (20_memory.md R81). -/
def hostStore (a : Word) (v : Byte) (s : State) : State :=
  { s with
    mem := s.mem.write a.toNat v
    todo := raceProgram s.latch.addr a v s.freeIx s.todo
    freeIx := if s.busy then s.freeIx + 1 else s.freeIx }

/-- One host access. -/
def hostAccess (a : HostAccess) (s : State) : Host.Outcome State Fault Refusal :=
  match a with
  | .read offset width =>
    if accessLegal offset width then .next { s with reads := s.reads ++ [readRegister s offset] }
    else .refused (.notAlignedWord offset width)
  | .write offset width v =>
    if accessLegal offset width then
      if offset = 0 then writeCtrl v s else .next (writeRegister offset v s)
    else .refused (.notAlignedWord offset width)
  | .store address v => .next (hostStore address v s)

/-- One poll of `WAITIDLE` (30_encoding.md R112): a read of STATUS; while BUSY reads 1 the loop goes
on after one step of the sequencer. DESIGN CHOICE (log 18): the loop is one turn that holds until BUSY
reads 0, so no turn after it (a PWM tick, a block reset, a host store) falls inside it; a host whose
polls such actions interleave with reads STATUS by turns of its own. -/
def pollIdle (s : State) : State :=
  let t := { s with reads := s.reads ++ [s.statusWord] }
  if s.busy then { t with turns := .sequencer :: .waitIdle :: s.turns } else t

/-- What a turn does, in the state whose turns are those after it. -/
def takeTurn (t : Turn) (s : State) : Host.Outcome State Fault Refusal :=
  match t with
  | .host a => hostAccess a s
  | .waitIdle => .next (pollIdle s)
  | .sequencer => .next (seqStep s)
  | .pwmTick => .next (pwmTick s)
  | .blockReset => .next (blockReset s)

end Sys2Proof.Machine
end

