-- ==== Sys2Proof/Machine/Step.lean ====
section
/-! DEFINITION. One step of the machine. -/

namespace Sys2Proof.Machine

/-- One step: the next turn, or, where the outside world asks for nothing, one step of the sequencer
(which does nothing while idle: the block "waits for a CTRL write", 70_reset_and_hazards.md R271). -/
def step (s : State) : Host.Outcome State Fault Refusal :=
  match s.turns with
  | [] => .next (seqStep s)
  | t :: ts => takeTurn t { s with turns := ts }

/-- The state in which the next step is the host's write of an opcode-table word to CTRL, the block's
only way to receive an instruction (30_encoding.md R90, log 12). -/
def State.withFetchWord (s : State) (nbits w : Nat) : State :=
  { s with turns := .host (.write 0 .w32 (tableWord nbits w)) :: s.turns }

end Sys2Proof.Machine
end

