-- ==== Sys2Proof/Machine/Program.lean ====
section
/-! DEFINITION. Host programs (30_encoding.md R110 to R113): the pseudo-instructions and their
expansion into turns. -/

namespace Sys2Proof.Machine

/-- `WR <reg>, <value>` for the register at a byte offset (R110). -/
def wr (offset : BitVec 8) (v : Word) : Turn := .host (.write offset .w32 v)

/-- `RD <reg>` (R110). -/
def rd (offset : BitVec 8) : Turn := .host (.read offset .w32)

/-- The pseudo-instructions of R111 to R113. An omitted end coordinate of SETWIN is `none`. -/
inductive Pseudo
  | nop
  | init
  | wcmd (b : Word)
  | wdata (addr n : Word)
  | setwin (x0 y0 : Half) (x1 y1 : Option Half)
  | render (iw ih : Half) (addr : Word)
  | raw (addr n : Word)
  | clear
  | clrwin
  | bright (q : Word)
  | shutdown
  | waitidle
  | cfg (w h offl offt rot : Half) (bgr inv blm : Bool) (spiHz : Word)
  deriving DecidableEq, Repr

/-- The expansion of SETWIN (R111). Where both ends are omitted, ARG1 is not written. -/
def expandSetwin (x0 y0 : Half) (x1 y1 : Option Half) : List Turn :=
  wr 0x08 (pack x0 y0) ::
    match x1, y1 with
    | some x, some y => [wr 0x0C (pack x y), wr 0x00 0x04]
    | none, none => [wr 0x00 0x304]
    | some x, none => [wr 0x0C (pack x 0), wr 0x00 0x204]
    | none, some y => [wr 0x0C (pack 0 y), wr 0x00 0x104]

/-- The expansion of a pseudo-instruction (R111 to R113). -/
def Pseudo.expand : Pseudo → List Turn
  | .nop => [wr 0x00 0x00]
  | .init => [wr 0x00 0x01]
  | .wcmd b => [wr 0x08 b, wr 0x00 0x02]
  | .wdata a n => [wr 0x10 a, wr 0x14 n, wr 0x00 0x03]
  | .setwin x0 y0 x1 y1 => expandSetwin x0 y0 x1 y1
  | .render iw ih a => [wr 0x08 (pack iw ih), wr 0x10 a, wr 0x00 0x05]
  | .raw a n => [wr 0x10 a, wr 0x14 n, wr 0x00 0x06]
  | .clear => [wr 0x00 0x07]
  | .clrwin => [wr 0x00 0x08]
  | .bright q => [wr 0x08 q, wr 0x00 0x09]
  | .shutdown => [wr 0x00 0x0A]
  | .waitidle => [.waitIdle]
  | .cfg w h ol ot rot bgr inv blm hz =>
    [wr 0x18 (pack w h), wr 0x1C (pack ol ot),
      wr 0x20 (rot.setWidth 32 ||| flagBit bgr 16 ||| flagBit inv 17 ||| flagBit blm 18),
      wr 0x24 hz]

/-- A host program as turns. -/
def expandProgram (ps : List Pseudo) : List Turn := ps.flatMap Pseudo.expand

end Sys2Proof.Machine
end

