-- ==== Sys2Proof/Safety.lean ====
section
/-! DEFINITION. The terms claims use: what the bus answers, the events each frame emits, the
invariants of the machine, what a completed operation leaves, and the hazards of
70_reset_and_hazards.md as views of the trace. -/

namespace Sys2Proof.Machine

/-! ### Bus assumptions -/

/-- The micro-step is a bus transfer. -/
def Micro.isTransfer : Micro → Bool
  | .cmdTransfer _ => true
  | .dataTransfer _ => true
  | _ => false

/-- The number of transfers a program performs. -/
def transfersIn (l : List Micro) : Nat := l.countP Micro.isTransfer

/-- The next `n` transfers complete ok. -/
def State.BusOk (s : State) (n : Nat) : Prop := ∀ k, k < n → s.outcomeAt k = .ok

/-- BUS_FAIR for the next `n` transfers (60_exceptions.md R260): each "eventually has the outcome ok
or fail". -/
def State.BusFair (s : State) (n : Nat) : Prop := ∀ k, k < n → s.outcomeAt k ≠ .stall

/-! ### Events of the frames, where every transfer completes -/

/-- The events of `Cmd(b)` (40_transport.md R130). -/
def cmdEvents (b : Byte) : List Event := [.dcSet .low, .xfer [b], .dcSet .high]

/-- The events of `Data(bs)` (R131, R132). -/
def dataEvents (p : Params) (bs : List Byte) : List Event := (chunks p bs).map .xfer

/-- `Emit(Wait(ms))` where ms > 0. -/
def waitEvents (ms : Nat) : List Event := if ms = 0 then [] else [.wait ms]

/-- The events of the addressing step (42_window.md R184) for physical corners. -/
def addressingEvents (p : Params) (x0 y0 x1 y1 : Half) : List Event :=
  cmdEvents p.cmdCaset ++ dataEvents p [hi8 x0, lo8 x0, hi8 x1, lo8 x1] ++
    cmdEvents p.cmdRaset ++ dataEvents p [hi8 y0, lo8 y0, hi8 y1, lo8 y1] ++ cmdEvents p.cmdRamwr

/-- The events of `SetWindowCore` for visible corners (R182, R184). -/
def windowEvents (p : Params) (c : CfgRegs) (x0 y0 x1 y1 : Half) : List Event :=
  addressingEvents p (x0 + c.offLeft) (y0 + c.offTop) (x1 + c.offLeft) (y1 + c.offTop)

/-- The events of `FullClear(L)` (R186). -/
def clearEvents (p : Params) (c : CfgRegs) : List Event :=
  windowEvents p c 0 0 (c.width - 1) (c.height - 1) ++
    dataEvents p (List.replicate (2 * c.width.toNat * c.height.toNat) 0)

/-- The source bytes of pixel `k` of a payload at `a`, as (r, g, b) (43_color.md R200). -/
def sourcePixel (o : SrcOrder) (m : Memory) (a : Word) (k : Nat) : Byte × Byte × Byte :=
  let c (j : Nat) : Byte := m.read (payloadAddress a (3 * k + j)).toNat
  match o with
  | .rgb => (c 0, c 1, c 2)
  | .bgr => (c 2, c 1, c 0)

/-- The two bytes a pixel is emitted as, low byte first (R201, R202). -/
def emittedPixel (rgb : Byte × Byte × Byte) : List Byte :=
  [lo8 (pack565 rgb.1 rgb.2.1 rgb.2.2), hi8 (pack565 rgb.1 rgb.2.1 rgb.2.2)]

/-- The byte stream of `StreamPixels(a, n)` (R203). -/
def pixelStream (p : Params) (m : Memory) (a : Word) (n : Nat) : List Byte :=
  (List.range n).flatMap fun k => emittedPixel (sourcePixel p.srcOrder m a k)

/-- The events of the replay of one INIT_TABLE entry (41_init_sequencer.md R156). -/
def entryEvents (p : Params) (e : TableEntry) : List Event :=
  cmdEvents e.cmd ++ dataEvents p e.bytes ++ waitEvents e.waitMs

/-- The events of INIT (R160) under a configuration with orientation byte `o`, the backlight
restored to `restored`. -/
def initEvents (p : Params) (c : CfgRegs) (o : Byte) (restored : Duty) : List Event :=
  [.blSet 0, .rstSet .high, .wait p.tRstMs, .rstSet .low, .wait p.tRstMs, .rstSet .high,
      .wait p.tRstMs] ++
    cmdEvents p.cmdSwreset ++ waitEvents p.tSwresetMs ++
    cmdEvents p.cmdMadctl ++ dataEvents p [o] ++
    cmdEvents (if c.inv then p.cmdInvon else p.cmdInvoff) ++
    p.initTable.flatMap (entryEvents p) ++
    cmdEvents p.cmdSlpout ++ waitEvents p.tSlpoutMs ++
    cmdEvents p.cmdDispon ++ waitEvents p.tDisponMs ++
    windowEvents p c 0 0 (c.width - 1) (c.height - 1) ++
    clearEvents p c ++ [.blSet restored]

/-! ### Completed operations -/

/-- The block is idle and its lines are at their idle levels (10_state.md R45: "whenever the block is
idle (op = none), dc = 1", and outside INIT's reset pulse rst = 1). `Inv` gives the line levels in
every state in which no operation runs. -/
def State.Ready (s : State) : Prop := s.op = none ∧ s.dc = .high ∧ s.rst = .high

/-- The event is a completed transfer. -/
def Event.isXfer : Event → Bool
  | .xfer _ => true
  | _ => false

/-- The event is a failed transfer. -/
def Event.isXferFail : Event → Bool
  | .xferFail _ => true
  | _ => false

/-- The event sets the backlight output. -/
def Event.isBlSet : Event → Bool
  | .blSet _ => true
  | _ => false

/-- What an operation that started in `s` with the latch `l` has left when it has ended in `u`:
registers `r`, status `st`, the events `evs` appended to the trace, and everything else as it was.
One bus outcome is used up by each transfer. The PWM waveform is untouched unless BL_OUT was set. -/
structure Completed (s u : State) (l : Latch) (r : Regs) (st : Status) (evs : List Event) : Prop where
  idle : u.op = none ∧ u.todo = [] ∧ u.stalled = false
  lines : u.dc = .high ∧ u.rst = .high
  latch : u.latch = l
  regs : u.regs = r
  status : u.status = st
  trace : u.trace = s.trace ++ evs
  mem : u.mem = s.mem
  params : u.params = s.params
  host : u.turns = s.turns ∧ u.reads = s.reads ∧ u.resetMark = s.resetMark
  bus : u.bus = s.bus.drop (evs.countP Event.isXfer) ∧
    u.busCount = s.busCount + evs.countP Event.isXfer
  pwm : u.pwmCnt = s.pwmCnt ∧
    (evs.any Event.isBlSet = false → u.pwmOut = s.pwmOut ∧ u.freeIx = s.freeIx)

/-- The operation `o` has just started in `t` from `s` (40_transport.md R142): BUSY, the latch `l`,
step 0, and nothing else has changed; in particular no event has been emitted. -/
def Started (s t : State) (o : Operation) (l : Latch) : Prop :=
  t = { s with op := some o, latch := l, stepIx := 0, stalled := false, todo := t.todo }

/-! ### What the panel has seen, as a view of the trace -/

/-- The panel controller's armed state as far as the trace tells (10_state.md R47). The block does
not hold it, and the panel is not modelled (log 16). -/
inductive Armed
  | armed
  | notArmed
  | unknown
  deriving DecidableEq, Repr

/-- What the events since the last block reset tell of the panel: the level of DC, whether the panel's
own reset pulse has been seen ("the panel is reset only by INIT's HARDWARE_RESET step", R270), and the
armed state. -/
structure PanelView where
  dc    : Level
  known : Bool
  armed : Armed
  deriving DecidableEq, Repr

/-- Right after a block reset: dc = 1 (10_state.md R49), and "the panel controller's state after a
block reset is unknown" (70_reset_and_hazards.md R272), until INIT runs (R49). -/
def PanelView.afterReset : PanelView := { dc := .high, known := false, armed := .unknown }

/-- One event as the panel sees it. A command arms the controller if it is CMD_RAMWR and ends the armed
state if it is any other (10_state.md R47, 70_reset_and_hazards.md R278), once the panel's state is
known at all; the panel's reset pulse makes its state known, with the armed state open until the next
command (DEDUCED, log 16). DESIGN CHOICE (log 16): after any failed transfer the armed state is open
until the next command, because a failed command may or may not have arrived (U2), and after a
BusIOError in INIT or SHUTDOWN, in a command or in data, "the controller may be left in any state"
(41_init_sequencer.md R161). -/
def PanelView.see (ramwr : Byte) (v : PanelView) : Event → PanelView
  | .dcSet l => { v with dc := l }
  | .xfer bs =>
    match v.dc with
    | .low => { v with armed :=
        if v.known then (if bs = [ramwr] then .armed else .notArmed) else .unknown }
    | .high => v
  | .xferFail _ => { v with armed := .unknown }
  | .rstSet .low => { v with known := true, armed := .unknown }
  | .rstSet .high => v
  | .wait _ => v
  | .blSet _ => v

/-- The events emitted since the last block reset. -/
def State.sinceReset (s : State) : List Event := s.trace.drop s.resetMark

/-- What the panel has seen since the last block reset. -/
def State.panelView (s : State) : PanelView :=
  s.sinceReset.foldl (PanelView.see s.params.cmdRamwr) .afterReset

/-- The controller's armed state (10_state.md R47): unknown also where a transfer has stalled, which
may have reached the panel without an event (DESIGN CHOICE, log 16). -/
def panelArmed (s : State) : Armed := if s.stalled then .unknown else s.panelView.armed

/-- A data-only operation (WRITE_DATA of pixels, RENDER_RAW, CLEAR_WINDOW) reaches the addressed
window only from such a state (R278). -/
def State.StreamSafe (s : State) : Prop := panelArmed s = .armed

/-! ### Invariants -/

/-- From the line levels `dc`, `rst` on, the program sends every command byte with DC at the command
level and every data byte with DC at the data level (30_encoding.md R102, R103), never transfers
while the panel is held in reset, and at its end, or where it can abort, leaves dc = 1 and rst = 1
(10_state.md R45). A failing command transfer restores dc itself (40_transport.md R135). -/
def linesDisciplined (dc rst : Level) : List Micro → Bool
  | [] => dc == .high && rst == .high
  | .dcSet l :: ms => linesDisciplined l rst ms
  | .rstSet l :: ms => linesDisciplined dc l ms
  | .raise _ :: ms => dc == .high && rst == .high && linesDisciplined dc rst ms
  | .cmdTransfer _ :: ms => dc == .low && rst == .high && linesDisciplined dc rst ms
  | .dataTransfer _ :: ms => dc == .high && rst == .high && linesDisciplined dc rst ms
  | _ :: ms => linesDisciplined dc rst ms

/-- A brightness is in 0..65536 (10_state.md R37, R38). -/
def dutyLegal (d : Duty) : Bool := decide (d.toNat ≤ 65536)

/-- A micro-step writes only brightnesses in range, and moves the reset line only in INIT. -/
def Micro.legalFor (o : Option Operation) : Micro → Bool
  | .setDuty d => dutyLegal d
  | .rstSet _ => o == some .init
  | _ => true

/-- The invariant of the machine. -/
structure Inv (s : State) : Prop where
  /-- Host memory is in canonical form. -/
  mem : s.mem.wf = true
  /-- The parameters are values R7 admits. -/
  params : s.params.wellFormed = true
  /-- Nothing is left to do while idle. -/
  idle : s.op = none → s.todo = [] ∧ s.stalled = false
  /-- The line discipline of what is left to do. -/
  lines : linesDisciplined s.dc s.rst s.todo = true
  /-- Outside INIT the reset line is high. -/
  pulse : s.op ≠ some .init → s.rst = .high
  /-- What is left to do is legal for the running operation. -/
  todo : s.todo.all (Micro.legalFor s.op) = true
  /-- Reserved bits of CFG_MODE are 0 (R32). -/
  cfgMode : s.regs.cfg.mode &&& ~~~cfgModeWritable = 0
  /-- Brightness values are in range (R37, R38). -/
  duty : dutyLegal s.regs.blDuty = true ∧ dutyLegal s.regs.blOut = true ∧ dutyLegal s.pwmOut = true
  /-- The PWM phase is in 0..PWM_RES-1 (R46). -/
  pwm : s.pwmCnt < s.params.pwmRes
  /-- The last block reset lies within the trace. -/
  mark : s.resetMark ≤ s.trace.length
  /-- The events since the last block reset show the level of the DC line. -/
  seen : s.panelView.dc = s.dc

/-- The lifecycle invariant: a locked configuration is not malformed, INIT_DONE holds only under the
lock, and an INIT that will set the lock runs on a configuration that is not malformed
(41_init_sequencer.md R160, 10_state.md R36). -/
structure LifecycleInv (s : State) : Prop where
  locked : s.status.cfgLock = true → malformed s.regs.cfg = false
  done : s.status.initDone = true → s.status.cfgLock = true
  pending : Micro.finishInit ∈ s.todo → s.op = some .init ∧ malformed s.regs.cfg = false
  idle : s.op = none → s.todo = []

/-! ### Hazards, as views of the state and of the trace -/

/-- A stream of `n` bytes fills the last window exactly (R279). -/
def State.StreamLengthFits (s : State) (n : Nat) : Prop :=
  n = 2 * s.regs.lastW.toNat * s.regs.lastH.toNat

/-- The check of boot step 4 (R273): INIT_DONE = 1, CFG_ERR = 0, BUS_ERR = 0. -/
def State.Booted (s : State) : Prop :=
  s.status.initDone = true ∧ s.status.cfgErr = false ∧ s.status.busErr = false

/-- A payload byte before and after a racing store of `v` to `a` (20_memory.md R81): the old value, or
the new one where the byte lies at `a`. -/
def Fetched.Raced (start a : Word) (v : Byte) (f g : Fetched) : Prop :=
  g.index = f.index ∧ (g.value = f.value ∨ (g.value = v ∧ payloadAddress start f.index = a))

/-- A byte to be sent before and after a racing store: only payload bytes can change, each on its
own. -/
inductive OutByte.Raced (start a : Word) (v : Byte) : OutByte → OutByte → Prop
  | lit (b : Byte) : OutByte.Raced start a v (.lit b) (.lit b)
  | payload {f f' : Fetched} : f.Raced start a v f' →
      OutByte.Raced start a v (.payload f) (.payload f')
  | pixelLow {r g b r' g' b' : Fetched} : r.Raced start a v r' → g.Raced start a v g' →
      b.Raced start a v b' → OutByte.Raced start a v (.pixelLow r g b) (.pixelLow r' g' b')
  | pixelHigh {r g b r' g' b' : Fetched} : r.Raced start a v r' → g.Raced start a v g' →
      b.Raced start a v b' → OutByte.Raced start a v (.pixelHigh r g b) (.pixelHigh r' g' b')

/-- A micro-step before and after a racing store: only the bytes of data transfers can change. -/
inductive Micro.Raced (start a : Word) (v : Byte) : Micro → Micro → Prop
  | same (m : Micro) : (∀ c, m ≠ .dataTransfer c) → Micro.Raced start a v m m
  | data {c c' : List OutByte} : List.Forall₂ (OutByte.Raced start a v) c c' →
      Micro.Raced start a v (.dataTransfer c) (.dataTransfer c')

/-- The indices of the payload bytes a byte to be sent is made of. -/
def OutByte.payloadIndices : OutByte → List Nat
  | .lit _ => []
  | .payload f => [f.index]
  | .pixelLow r g b => [r.index, g.index, b.index]
  | .pixelHigh r g b => [r.index, g.index, b.index]

/-- The data bytes a micro-step sends. -/
def Micro.outBytes : Micro → List OutByte
  | .dataTransfer c => c
  | _ => []

/-- The data bytes a program has yet to send. -/
def bytesToSend (ms : List Micro) : List OutByte := ms.flatMap Micro.outBytes

/-- The indices of the payload bytes that can still be read: those of every byte to be sent, but for
green and blue of a pixel whose low byte has been sent (20_memory.md R67, log 6). -/
def indicesToRead : List Micro → List Nat
  | .dataTransfer (.pixelHigh r _ _ :: c) :: ms =>
    r.index :: (c ++ bytesToSend ms).flatMap OutByte.payloadIndices
  | ms => (bytesToSend ms).flatMap OutByte.payloadIndices

/-- The host must not write this address now (70_reset_and_hazards.md R277): a payload byte of the
running operation that can still be read lies there. -/
def State.Races (s : State) (a : Word) : Prop :=
  ∃ i ∈ indicesToRead s.todo, payloadAddress s.latch.addr i = a

/-- The number of sequencer steps after which the running operation has ended under BUS_FAIR. -/
def State.stepsLeft (s : State) : Nat := s.todo.length + 1

end Sys2Proof.Machine
end

