-- ==== Sys2Proof/Certificates/Slice0/Obligations.lean ====
section
/-! DEFINITION. The statements about the model, from the numbered rules of spec/. -/

open Sys2Proof Sys2Proof.Machine

/-! ### Decoding and the step -/

/-- Decoding and encoding agree (30_encoding.md, host-side formats): every well-formed instruction is
decoded from its own word; a decoded word carries the instruction's operation code and, but for NOP,
its omission bits in bits 8 and 9; bits 31:10 change nothing. -/
def Obligations.DecodeEncodeAgree : Prop :=
  (∀ i : Instr, i.wellFormed = true → decode (encode i) = .instr i) ∧
  (∀ (w : Word) (i : Instr), decode w = .instr i →
    ctrlOp w = i.opcode ∧ (i ≠ .nop → i.omits = (w.getLsbD 8, w.getLsbD 9))) ∧
  (∀ w v : Word, (∀ k, k < 10 → w.getLsbD k = v.getLsbD k) → decode w = decode v)

/-- CTRL words written out from the layout of 30_encoding.md (R91, R92, R111) and the vectors V-E1 to
V-E5 decode to what they stand for. -/
def Obligations.SpecWordsDecode : Prop :=
  decode 0x00000000 = .instr .nop ∧
  decode 0xFFFFFF00 = .instr .nop ∧
  decode 0x00000001 = .instr (.init false false) ∧
  decode 0x00000002 = .instr (.writeCmd false false) ∧
  decode 0x00000004 = .instr (.setWindow false false) ∧
  decode 0x00000104 = .instr (.setWindow true false) ∧
  decode 0x00000204 = .instr (.setWindow false true) ∧
  decode 0x00000304 = .instr (.setWindow true true) ∧
  decode 0x00000005 = .instr (.render false false) ∧
  decode 0xFFFFFC07 = .instr (.clear false false) ∧
  decode 0x00000009 = .instr (.setBrightness false false) ∧
  decode 0x0000000A = .instr (.shutdown false false) ∧
  decode 0x0000000B = .reservedOp 0x0B ∧
  decode 0x000000FF = .reservedOp 0xFF

/-- A step runs the decoded instruction: where the next turn is a host write of `v` to CTRL and `v`
decodes to `i`, the step is exec of `i` in the state whose turns are those after it; the word that
withFetchWord places is run by the very next step. -/
def Obligations.CtrlWriteRunsDecodedInstruction : Prop :=
  (∀ (s : State) (v : Word) (i : Instr) (ts : List Turn),
    s.turns = .host (.write 0 .w32 v) :: ts → decode v = .instr i →
    step s = exec i { s with turns := ts }) ∧
  (∀ (s : State) (nbits w : Nat) (i : Instr), decodeTableWord nbits w = some i →
    step (s.withFetchWord nbits w) = exec i s)

/-- Where no outside action is to come, and at a sequencer turn, the step is one step of the sequencer
(that the sequencer, and no PWM tick, moves where no turn is left is the model's choice, log 1); an idle
block then does nothing: "it waits for a CTRL write" (70_reset_and_hazards.md, reset). -/
def Obligations.StepOtherwiseRunsSequencer : Prop :=
  ∀ s : State,
    (s.turns = [] → step s = .next (seqStep s)) ∧
    (∀ ts, s.turns = .sequencer :: ts → step s = .next (seqStep { s with turns := ts })) ∧
    (s.turns = [] → s.op = none → step s = .next s)

/-- R99: a CTRL write with OP = 0x00 has no effect at all, whatever its other bits hold and also
while BUSY = 1; NOP completes in every state with nothing changed. -/
def Obligations.NopHasNoEffect : Prop :=
  (∀ s : State, exec .nop s = .next s) ∧
  (∀ (s : State) (v : Word) (ts : List Turn), ctrlOp v = 0 →
    s.turns = .host (.write 0 .w32 v) :: ts → step s = .next { s with turns := ts })

/-- R244, R100: a CTRL write with OP other than 0x00 while BUSY = 1, or with a reserved OP, starts no
operation, sets OP_ERR and ERR_OP = OP, emits nothing and changes nothing else; the running operation
goes on. -/
def Obligations.RejectedCtrlWriteOnlySetsOpErr : Prop :=
  ∀ (s : State) (v : Word) (ts : List Turn), ctrlOp v ≠ 0 →
    (s.busy = true ∨ 0x0B ≤ (ctrlOp v).toNat) →
    s.turns = .host (.write 0 .w32 v) :: ts →
    step s = .next { s with
      turns := ts, status := { s.status with opErr := true, errOp := ctrlOp v } }

/-- R98: two CTRL words with one OP, and for SET_WINDOW (OP 0x04) the same bits 9:8, do the same: the
states after them, and after any number of sequencer steps more, differ at most in the two latched
omission bits. In particular no error is raised that the other word does not raise. -/
def Obligations.IgnoredCtrlBitsChangeNothing : Prop :=
  ∀ (s : State) (v w : Word), ctrlOp v = ctrlOp w →
    (ctrlOp v = 0x04 → ctrlOmitX1 v = ctrlOmitX1 w ∧ ctrlOmitY1 v = ctrlOmitY1 w) →
    ∃ t u, writeCtrl v s = .next t ∧ writeCtrl w s = .next u ∧
      ∀ n, ∃ x y, seqRun n u = { seqRun n t with latch :=
        { (seqRun n t).latch with omitX1 := x, omitY1 := y } }

/-! ### Operation start and end -/

/-- R43: an operation start copies ARG0, ARG1, ADDR, LEN, the two CTRL bits and every CFG_* register
into the latch; from then on host writes to ARG0, ARG1, ADDR and LEN are stored and change nothing of
what the sequencer does; CFG_* writes are refused while it runs; the latch is not host-visible. -/
def Obligations.OperationReadsOnlyItsLatch : Prop :=
  (∀ (s : State) (x y : Bool), s.op = none →
    ∀ i ∈ [Instr.init x y, .writeCmd x y, .writeData x y, .setWindow x y, .render x y,
        .renderRaw x y, .clear x y, .clearWindow x y, .setBrightness x y, .shutdown x y],
      ∃ t, exec i s = .next t ∧ t.latch =
        { arg0 := s.regs.arg0, arg1 := s.regs.arg1, addr := s.regs.addr, len := s.regs.len,
          omitX1 := x, omitY1 := y, cfg := s.regs.cfg }) ∧
  (∀ (s : State) (a b c d : Word) (n : Nat), s.op ≠ none →
    seqRun n { s with regs := { s.regs with arg0 := a, arg1 := b, addr := c, len := d } } =
      { seqRun n s with
        regs := { (seqRun n s).regs with arg0 := a, arg1 := b, addr := c, len := d } }) ∧
  (∀ (s : State) (off : BitVec 8) (v : Word), s.op ≠ none →
    (writeRegister off v s).regs.cfg = s.regs.cfg ∧
    (writeRegister off v s).latch = s.latch ∧ (writeRegister off v s).todo = s.todo ∧
    (off ∈ [0x08#8, 0x0C#8, 0x10#8, 0x14#8] → readRegister (writeRegister off v s) off = v)) ∧
  (∀ (s : State) (l : Latch) (off : BitVec 8),
    readRegister { s with latch := l } off = readRegister s off)

/-- Every operation starts when the block is idle (40_transport.md, operation start): it is running,
BUSY reads 1, it has latched, and nothing else has changed. -/
def Obligations.EveryOperationStartsWhenIdle : Prop :=
  ∀ (s : State) (x y : Bool), s.op = none →
    (∃ t, exec (.init x y) s = .next t ∧ Started s t .init (s.latchNow x y)) ∧
    (∃ t, exec (.writeCmd x y) s = .next t ∧ Started s t .writeCmd (s.latchNow x y)) ∧
    (∃ t, exec (.writeData x y) s = .next t ∧ Started s t .writeData (s.latchNow x y)) ∧
    (∃ t, exec (.setWindow x y) s = .next t ∧ Started s t .setWindow (s.latchNow x y)) ∧
    (∃ t, exec (.render x y) s = .next t ∧ Started s t .render (s.latchNow x y)) ∧
    (∃ t, exec (.renderRaw x y) s = .next t ∧ Started s t .renderRaw (s.latchNow x y)) ∧
    (∃ t, exec (.clear x y) s = .next t ∧ Started s t .clear (s.latchNow x y)) ∧
    (∃ t, exec (.clearWindow x y) s = .next t ∧ Started s t .clearWindow (s.latchNow x y)) ∧
    (∃ t, exec (.setBrightness x y) s = .next t ∧ Started s t .setBrightness (s.latchNow x y)) ∧
    (∃ t, exec (.shutdown x y) s = .next t ∧ Started s t .shutdown (s.latchNow x y))

/-- The operation end (40_transport.md, operation start and end): when no micro-step is left, op becomes
none, BUSY reads 0, no event is emitted and nothing else changes, and dc = 1 holds in every state of the
invariant. An operation without micro-steps (WRITE_DATA with LEN = 0) is BUSY after its start and idle
after one step of the sequencer. (That the end is a step of its own is the model's choice, log 4.) -/
def Obligations.OperationEndsWhenNothingIsLeft : Prop :=
  (∀ s : State, s.op ≠ none → s.stalled = false → s.todo = [] →
    seqStep s = { s with op := none } ∧ (seqStep s).busy = false ∧
    (Inv s → (seqStep s).dc = .high)) ∧
  (∀ (s : State) (x y : Bool), s.op = none → s.regs.len = 0 →
    ∃ t, exec (.writeData x y) s = .next t ∧ t.busy = true ∧ (seqStep t).busy = false ∧
      (seqStep t).trace = s.trace)

/-! ### The instructions -/

/-- R140: WRITE_CMD sends the byte ARG0[7:0], whatever it is, as one command frame, and changes no
register and no status bit. -/
def Obligations.WriteCmdSendsOneCommandByte : Prop :=
  ∀ (s : State) (x y : Bool), s.Ready → s.BusOk 1 →
    ∃ t, exec (.writeCmd x y) s = .next t ∧ Started s t .writeCmd (s.latchNow x y) ∧
      Completed s t.finish (s.latchNow x y) s.regs s.status
        [.dcSet .low, .xfer [s.regs.arg0.extractLsb' 0 8], .dcSet .high]

/-- WRITE_DATA (40_transport.md) sends LEN bytes of host memory from ADDR on, addresses mod 2^32, as
the chunks of one data frame; for LEN = 0 it emits nothing. No register and no status bit changes. -/
def Obligations.WriteDataSendsPayloadInChunks : Prop :=
  ∀ (s : State) (x y : Bool), s.Ready →
    let bs := (List.range s.regs.len.toNat).map fun i =>
      s.mem.read ((s.regs.addr.toNat + i) % 2 ^ 32)
    s.BusOk (chunks s.params bs).length →
    ∃ t, exec (.writeData x y) s = .next t ∧ Started s t .writeData (s.latchNow x y) ∧
      Completed s t.finish (s.latchNow x y) s.regs s.status ((chunks s.params bs).map .xfer)

/-- SET_WINDOW (42_window.md): with omitted ends resolved to WIDTH-1 and HEIGHT-1, LAST_WIN becomes
(x1-x0+1, y1-y0+1) mod 2^16; WIN_WARN and ERR_OP = 0x04 are set exactly where the window breaks the
invariant, and the step goes on all the same; the five frames carry the corners with the offsets
added mod 2^16, big-endian. Nothing else changes. -/
def Obligations.SetWindowAddressesTheRectangle : Prop :=
  ∀ (s : State) (x y : Bool), s.Ready →
    let c := s.regs.cfg
    let x0 := s.regs.arg0.extractLsb' 0 16
    let y0 := s.regs.arg0.extractLsb' 16 16
    let x1 := if x then c.width - 1 else s.regs.arg1.extractLsb' 0 16
    let y1 := if y then c.height - 1 else s.regs.arg1.extractLsb' 16 16
    let evs := windowEvents s.params c x0 y0 x1 y1
    s.BusOk (evs.countP Event.isXfer) →
    ∃ t, exec (.setWindow x y) s = .next t ∧ Started s t .setWindow (s.latchNow x y) ∧
      Completed s t.finish (s.latchNow x y)
        { s.regs with lastW := x1 - x0 + 1, lastH := y1 - y0 + 1 }
        (if x0 ≤ x1 ∧ x1 < c.width ∧ y0 ≤ y1 ∧ y1 < c.height then s.status
          else { s.status with winWarn := true, errOp := 0x04 })
        evs

/-- CLEAR (42_window.md) addresses the full visible window and sends 2*WIDTH*HEIGHT zero bytes in one
data frame, the count not wrapped; LAST_WIN becomes (WIDTH, HEIGHT); WIN_WARN only when WIDTH or
HEIGHT is 0. Nothing else changes. -/
def Obligations.ClearZeroFillsThePanel : Prop :=
  ∀ (s : State) (x y : Bool), s.Ready →
    let c := s.regs.cfg
    let evs := clearEvents s.params c
    s.BusOk (evs.countP Event.isXfer) →
    ∃ t, exec (.clear x y) s = .next t ∧ Started s t .clear (s.latchNow x y) ∧
      Completed s t.finish (s.latchNow x y) { s.regs with lastW := c.width, lastH := c.height }
        (if c.width = 0 ∨ c.height = 0 then { s.status with winWarn := true, errOp := 0x07 }
          else s.status)
        evs

/-- CLEAR_WINDOW (42_window.md) sends 2*LW*LH zero bytes and no command; LAST_WIN is read at the start
and not changed; nothing for a 0 x 0 window. -/
def Obligations.ClearWindowZeroFillsLastWindow : Prop :=
  ∀ (s : State) (x y : Bool), s.Ready →
    let bs : List Byte := List.replicate (2 * s.regs.lastW.toNat * s.regs.lastH.toNat) 0
    s.BusOk (chunks s.params bs).length →
    ∃ t, exec (.clearWindow x y) s = .next t ∧ Started s t .clearWindow (s.latchNow x y) ∧
      Completed s t.finish (s.latchNow x y) s.regs s.status ((chunks s.params bs).map .xfer)

/-- RENDER_RAW (43_color.md) converts LEN source pixels from ADDR on and sends them as one data frame of
2*LEN bytes; no addressing command, no size check, LAST_WIN not changed. -/
def Obligations.RenderRawStreamsPixels : Prop :=
  ∀ (s : State) (x y : Bool), s.Ready →
    let bs := pixelStream s.params s.mem s.regs.addr s.regs.len.toNat
    s.BusOk (chunks s.params bs).length →
    bs.length = 2 * s.regs.len.toNat ∧
    ∃ t, exec (.renderRaw x y) s = .next t ∧ Started s t .renderRaw (s.latchNow x y) ∧
      Completed s t.finish (s.latchNow x y) s.regs s.status ((chunks s.params bs).map .xfer)

/-- RENDER (43_color.md) of an image that fits: the window of the centred placement is addressed,
LAST_WIN becomes (iw, ih), iw*ih pixels follow, and WIN_WARN is not set. -/
def Obligations.RenderCentresAndStreams : Prop :=
  ∀ (s : State) (x y : Bool), s.Ready →
    let c := s.regs.cfg
    let iw := s.regs.arg0.extractLsb' 0 16
    let ih := s.regs.arg0.extractLsb' 16 16
    1 ≤ iw.toNat → 1 ≤ ih.toNat → iw.toNat ≤ c.width.toNat → ih.toNat ≤ c.height.toNat →
    let x0 := (c.width.toNat - iw.toNat) / 2
    let y0 := (c.height.toNat - ih.toNat) / 2
    let evs := windowEvents s.params c (BitVec.ofNat 16 x0) (BitVec.ofNat 16 y0)
        (BitVec.ofNat 16 (x0 + iw.toNat - 1)) (BitVec.ofNat 16 (y0 + ih.toNat - 1)) ++
      dataEvents s.params (pixelStream s.params s.mem s.regs.addr (iw.toNat * ih.toNat))
    s.BusOk (evs.countP Event.isXfer) →
    ∃ t, exec (.render x y) s = .next t ∧ Started s t .render (s.latchNow x y) ∧
      Completed s t.finish (s.latchNow x y) { s.regs with lastW := iw, lastH := ih } s.status evs

/-- R208: an image that is empty or larger than the panel is a PreconditionViolation: after the start
one step of the sequencer sets PRECOND_ERR and ERR_OP = 0x05 and ends the operation, with no event,
no bus transfer and LAST_WIN not written. -/
def Obligations.RenderRejectsUnfitImage : Prop :=
  ∀ (s : State) (x y : Bool), s.op = none →
    let iw := s.regs.arg0.extractLsb' 0 16
    let ih := s.regs.arg0.extractLsb' 16 16
    (iw = 0 ∨ ih = 0 ∨ s.regs.cfg.width < iw ∨ s.regs.cfg.height < ih) →
    ∃ t n, exec (.render x y) s = .next t ∧ t.op = some .render ∧
      seqStep t = { s with
        latch := s.latchNow x y, stepIx := n, stalled := false, todo := []
        status := { s.status with precondErr := true, errOp := 0x05 } }

/-- R222: SET_BRIGHTNESS clamps ARG0, read as signed Q16.16, to 0..65536, writes BL_DUTY, writes BL_OUT
by the latched actuation mode, and emits BlSet even when the value does not change. No transfer takes
place, so it completes whatever the bus does. -/
def Obligations.SetBrightnessClampsAndDrives : Prop :=
  ∀ (s : State) (x y : Bool), s.Ready →
    ∃ t, exec (.setBrightness x y) s = .next t ∧ Started s t .setBrightness (s.latchNow x y) ∧
      ∃ d o : Duty,
        (d.toNat : Int) = max 0 (min 65536 s.regs.arg0.toInt) ∧
        o = (if s.regs.cfg.blm then (if 0 < d.toNat then 65536 else 0) else d) ∧
        Completed s t.finish (s.latchNow x y) { s.regs with blDuty := d, blOut := o } s.status
          [.blSet o]

/-- INIT (41_init_sequencer.md) under a configuration that is not malformed: the events of the whole
sequence in order, ORIENT and LAST_WIN written, the backlight dark and then restored from BL_DUTY,
INIT_DONE and CFG_LOCK set, BL_DUTY and every other register unchanged. -/
def Obligations.InitRunsTheSequence : Prop :=
  ∀ (s : State) (x y : Bool), s.Ready → malformed s.regs.cfg = false →
    ∃ o, orientByte s.params s.regs.cfg = some o ∧
      let c := s.regs.cfg
      let out := if c.blm then (if 0 < s.regs.blDuty.toNat then 65536 else 0) else s.regs.blDuty
      let evs := initEvents s.params c o out
      (s.BusOk (evs.countP Event.isXfer) →
        ∃ t, exec (.init x y) s = .next t ∧ Started s t .init (s.latchNow x y) ∧
          Completed s t.finish (s.latchNow x y)
            { s.regs with lastW := c.width, lastH := c.height, orient := o, blOut := out }
            { s.status with initDone := true, cfgLock := true } evs)

/-- R241: INIT under a malformed configuration raises ConfigurationError as its first micro-step:
CFG_ERR and ERR_OP = 0x01 are set, the operation ends, no event is emitted and no register other than
STATUS changes. -/
def Obligations.InitRejectsMalformedConfiguration : Prop :=
  ∀ (s : State) (x y : Bool), s.op = none → malformed s.regs.cfg = true →
    ∃ t n, exec (.init x y) s = .next t ∧ t.op = some .init ∧
      seqStep t = { s with
        latch := s.latchNow x y, stepIx := n, stalled := false, todo := []
        status := { s.status with cfgErr := true, errOp := 0x01 } }

/-- SHUTDOWN (41_init_sequencer.md) clears the panel, sends display-off, sets BL_DUTY and BL_OUT to 0
with one BlSet(0), and clears INIT_DONE and CFG_LOCK; without a configuration check, so WIDTH = 0 or
HEIGHT = 0 sets WIN_WARN with ERR_OP = 0x0A. -/
def Obligations.ShutdownClearsAndUnlocks : Prop :=
  ∀ (s : State) (x y : Bool), s.Ready →
    let c := s.regs.cfg
    let evs := clearEvents s.params c ++ cmdEvents s.params.cmdDispoff ++ [.blSet 0]
    s.BusOk (evs.countP Event.isXfer) →
    ∃ t, exec (.shutdown x y) s = .next t ∧ Started s t .shutdown (s.latchNow x y) ∧
      Completed s t.finish (s.latchNow x y)
        { s.regs with lastW := c.width, lastH := c.height, blDuty := 0, blOut := 0 }
        (let st := { s.status with initDone := false, cfgLock := false }
          if c.width = 0 ∨ c.height = 0 then { st with winWarn := true, errOp := 0x0A } else st)
        evs

/-- Re-running INIT (41_init_sequencer.md): right after an INIT that ran without an error, a second one
emits the identical events and leaves the identical registers and status. -/
def Obligations.InitAgainIsIdempotent : Prop :=
  ∀ (s : State) (x y x' y' : Bool), s.Ready → malformed s.regs.cfg = false →
    ∃ t u : State, exec (.init x y) s = .next t ∧ exec (.init x' y') t.finish = .next u ∧
      (s.BusOk (transfersIn t.todo + transfersIn u.todo) →
        ∃ evs, t.finish.trace = s.trace ++ evs ∧ u.finish.trace = t.finish.trace ++ evs ∧
          u.finish.regs = t.finish.regs ∧ u.finish.status = t.finish.status)

/-! ### Transfers, failures and stalls -/

/-- R135: if the transfer inside Cmd(b) fails, the events are DcSet(0), XferFail([b]), DcSet(1), and then
the operation aborts with BUS_ERR and ERR_OP; what was emitted and written before stays, and dc = 1
holds afterwards. And dc = 1 holds whenever a step ends an operation, with an error or without one, in
a state of the invariant. -/
def Obligations.FailedCommandRestoresDc : Prop :=
  (∀ (s : State) (o : Operation) (b : Byte) (ms : List Micro),
    s.op = some o → s.stalled = false → s.todo = cmdFrame b ++ ms → s.outcomeAt 0 = .fail →
    ∃ n, let u := seqRun n s
      u.trace = s.trace ++ [.dcSet .low, .xferFail [b], .dcSet .high] ∧ u.dc = .high ∧
      u.op = none ∧ u.todo = [] ∧ u.status.busErr = true ∧ u.status.errOp = o.code ∧
      u.regs = s.regs ∧ u.rst = s.rst ∧ u.mem = s.mem) ∧
  (∀ s t : State, Inv s → s.op ≠ none → step s = .next t → t.op = none → t.dc = .high)

/-- R136: if a transfer inside Data(bs) fails, the remaining chunks are not sent, nothing is retried, and
the operation aborts: nothing is left to do, and the sequencer emits nothing more. -/
def Obligations.FailedDataStopsTheFrame : Prop :=
  ∀ (s : State) (o : Operation) (c : List OutByte) (ms : List Micro),
    s.op = some o → s.stalled = false → s.todo = .dataTransfer c :: ms → s.outcomeAt 0 = .fail →
    let u := seqStep s
    u.trace = s.trace ++ [.xferFail (c.map OutByte.value)] ∧ u.op = none ∧ u.todo = [] ∧
    u.status.busErr = true ∧ u.status.errOp = o.code ∧ u.regs = s.regs ∧ u.dc = s.dc ∧
    u.busCount = s.busCount + 1 ∧ ∀ n, seqRun n u = u

/-- R137: a stalled transfer leaves the operation running: BUSY stays 1, no further event is emitted by
the sequencer, every later CTRL write but a NOP is rejected with OP_ERR, and no step but the block
reset ends it. -/
def Obligations.StallHangsUntilBlockReset : Prop :=
  (∀ (s : State) (o : Operation) (m : Micro) (ms : List Micro),
    s.op = some o → s.stalled = false → s.todo = m :: ms → m.isTransfer = true →
    s.outcomeAt 0 = .stall →
    (seqStep s).op = some o ∧ (seqStep s).stalled = true ∧ (seqStep s).trace = s.trace) ∧
  (∀ (s t : State), s.op ≠ none → s.stalled = true → step s = .next t →
    s.turns.head? ≠ some .blockReset →
    t.op = s.op ∧ t.stalled = true ∧ t.busy = true ∧ t.trace = s.trace) ∧
  (∀ (s : State) (v : Word) (ts : List Turn), s.op ≠ none → s.stalled = true → ctrlOp v ≠ 0 →
    s.turns = .host (.write 0 .w32 v) :: ts →
    ∃ t, step s = .next t ∧ t.status = { s.status with opErr := true, errOp := ctrlOp v }) ∧
  (∀ (s : State) (ts : List Turn), s.turns = .blockReset :: ts →
    ∃ t, step s = .next t ∧ t.op = none ∧ t.stalled = false)

/-- The first failing transfer aborts the operation (60_exceptions.md, abort): whichever operation runs,
and whichever of its transfers fails first, exactly the transfers before it have completed, one
XferFail is in the trace, BUS_ERR and ERR_OP are set, the block is idle with dc = 1 and rst = 1, and
INIT_DONE is cleared where the operation is INIT or SHUTDOWN. -/
def Obligations.FirstFailureAbortsTheOperation : Prop :=
  ∀ (s : State) (x y : Bool), s.Ready →
    ∀ io ∈ [(Instr.init x y, Operation.init), (.writeCmd x y, .writeCmd),
        (.writeData x y, .writeData), (.setWindow x y, .setWindow), (.render x y, .render),
        (.renderRaw x y, .renderRaw), (.clear x y, .clear), (.clearWindow x y, .clearWindow),
        (.shutdown x y, .shutdown)],
      ∃ t, exec io.1 s = .next t ∧
        ∀ k, k < transfersIn t.todo → s.BusOk k → s.outcomeAt k = .fail →
          ∃ evs, t.finish.trace = s.trace ++ evs ∧ evs.countP Event.isXfer = k ∧
            evs.countP Event.isXferFail = 1 ∧ t.finish.op = none ∧
            t.finish.dc = .high ∧ t.finish.rst = .high ∧
            t.finish.status.busErr = true ∧ t.finish.status.errOp = io.2.code ∧
            (io.2 = .init ∨ io.2 = .shutdown → t.finish.status.initDone = false)

/-- R161: a BusIOError that aborts INIT or SHUTDOWN clears INIT_DONE; CFG_LOCK, ORIENT, LAST_WIN, BL_OUT
and BL_DUTY keep what they hold, and no later step of the sequence is performed. (That one step of the
sequencer takes a failing command transfer to the end of the operation, with DC restored in it, is the
model's choice, log 3.) -/
def Obligations.AbortOfInitOrShutdown : Prop :=
  ∀ (s : State) (o : Operation) (m : Micro) (ms : List Micro),
    s.op = some o → (o = .init ∨ o = .shutdown) → s.stalled = false → s.todo = m :: ms →
    m.isTransfer = true → s.outcomeAt 0 = .fail →
    let u := seqStep s
    u.status.initDone = false ∧ u.status.cfgLock = s.status.cfgLock ∧ u.regs = s.regs ∧
    u.op = none ∧ ∀ n, seqRun n u = u

/-- Under BUS_FAIR (60_exceptions.md, stall and fairness) every running operation ends: after one step
of the sequencer for each micro-step left and one for the end, the block is idle. -/
def Obligations.OperationsEndUnderBusFair : Prop :=
  ∀ s : State, s.stalled = false → s.BusFair (transfersIn s.todo) →
    (seqRun s.stepsLeft s).op = none

/-- WAITIDLE ends under BUS_FAIR (30_encoding.md, assembler syntax; 60_exceptions.md, stall and
fairness): from a state whose only turn left is the polling loop, the machine comes to the idle state
that the running operation leaves by itself, with the loop over and the polls' reads recorded, the last
of which has BUSY = 0. (That the loop takes one step of the sequencer per poll is the model's choice,
log 18.) -/
def Obligations.WaitIdleEndsUnderBusFair : Prop :=
  ∀ s : State, s.turns = [.waitIdle] → s.stalled = false → s.BusFair (transfersIn s.todo) →
    ∃ n rs, Host.Core.run Sys2Proof.core n s =
        .next { seqRun s.stepsLeft s with turns := [], reads := s.reads ++ rs } ∧
      (seqRun s.stepsLeft s).op = none ∧ ∃ w, rs.getLast? = some w ∧ w.getLsbD 0 = false

/-- R132: the pieces of a data frame are consecutive and lose nothing; with MAX_XFER = INF there is one
piece; otherwise every piece has MAX_XFER bytes except the last, which has between 1 and MAX_XFER, and
there are ceil(len/MAX_XFER) of them. -/
def Obligations.ChunksKeepEveryByteInOrder : Prop :=
  ∀ (p : Params) (bs : List Byte), bs ≠ [] →
    (p.maxXfer = none → chunks p bs = [bs]) ∧
    (∀ m, p.maxXfer = some m → 1 ≤ m →
      (chunks p bs).flatten = bs ∧
      (chunks p bs).length = (bs.length + m - 1) / m ∧
      (∀ c ∈ (chunks p bs).dropLast, c.length = m) ∧
      (∀ c, (chunks p bs).getLast? = some c →
        c.length = bs.length - m * ((chunks p bs).length - 1) ∧ 1 ≤ c.length ∧ c.length ≤ m))

/-! ### Functions of the units -/

/-- R150: which configurations are malformed, and that under one which is not, no physical coordinate of
a window that meets the window invariant overflows 16 bits. -/
def Obligations.MalformedExactlyWhenListed : Prop :=
  (∀ c : CfgRegs, malformed c = true ↔
    (c.rotDeg.toNat ∉ [0, 90, 180, 270] ∨ c.width = 0 ∨ c.height = 0 ∨
      c.offLeft.toNat + c.width.toNat > 65536 ∨ c.offTop.toNat + c.height.toNat > 65536 ∨
      c.spiHz = 0 ∨ (c.blm = false ∧ c.blHz = 0))) ∧
  (∀ (c : CfgRegs) (x0 y0 x1 y1 : Half), malformed c = false → windowLegal c x0 y0 x1 y1 = true →
    (x0 + c.offLeft).toNat = x0.toNat + c.offLeft.toNat ∧
    (x1 + c.offLeft).toNat = x1.toNat + c.offLeft.toNat ∧
    (y0 + c.offTop).toNat = y0.toNat + c.offTop.toNat ∧
    (y1 + c.offTop).toNat = y1.toNat + c.offTop.toNat)

/-- R152: the orientation byte is the OR of the line-address bit, the channel-order bit where BGR = 1,
and the rotation's bits; INV does not enter it. With the default parameters these are the values of
the rule's table. -/
def Obligations.OrientationByteOrsTheFlags : Prop :=
  (∀ (p : Params) (c : CfgRegs),
    let base := p.oriLine ||| (if c.bgr then p.oriBgr else 0)
    (c.rotDeg = 0 → orientByte p c = some base) ∧
    (c.rotDeg = 90 → orientByte p c = some (base ||| (p.oriMirrorV ||| p.oriSwap))) ∧
    (c.rotDeg = 180 → orientByte p c = some (base ||| (p.oriMirrorH ||| p.oriMirrorV))) ∧
    (c.rotDeg = 270 → orientByte p c = some (base ||| (p.oriMirrorH ||| p.oriSwap)))) ∧
  (∀ c : CfgRegs,
    (c.rotDeg = 0 → orientByte .default c = some (if c.bgr then 0x18 else 0x10)) ∧
    (c.rotDeg = 90 → orientByte .default c = some (if c.bgr then 0xB8 else 0xB0)) ∧
    (c.rotDeg = 180 → orientByte .default c = some (if c.bgr then 0xD8 else 0xD0)) ∧
    (c.rotDeg = 270 → orientByte .default c = some (if c.bgr then 0x78 else 0x70)))

/-- RENDER's placement (43_color.md): for an image that fits, the window starts at half the margin,
rounded down, holds exactly iw x ih pixels, and meets the window invariant. -/
def Obligations.PlacementFitsThePanel : Prop :=
  ∀ l : Latch, imageUnfit l = false →
    let x0 := placeStart l.cfg.width l.imageW
    let y0 := placeStart l.cfg.height l.imageH
    let x1 := placeEnd l.cfg.width l.imageW
    let y1 := placeEnd l.cfg.height l.imageH
    x0.toNat = (l.cfg.width.toNat - l.imageW.toNat) / 2 ∧
    y0.toNat = (l.cfg.height.toNat - l.imageH.toNat) / 2 ∧
    x1.toNat + 1 = x0.toNat + l.imageW.toNat ∧ y1.toNat + 1 = y0.toNat + l.imageH.toNat ∧
    x1 - x0 + 1 = l.imageW ∧ y1 - y0 + 1 = l.imageH ∧
    windowLegal l.cfg x0 y0 x1 y1 = true

/-- The laws of the pixel conversion (43_color.md): two colors pack alike exactly when the kept bits of
every channel agree; black packs to 0; the maximum is reached exactly from 0xF8, 0xFC, 0xF8 on. -/
def Obligations.Pack565KeepsTheTopBits : Prop :=
  (∀ r g b r' g' b' : Byte, pack565 r g b = pack565 r' g' b' ↔
    r >>> 3 = r' >>> 3 ∧ g >>> 2 = g' >>> 2 ∧ b >>> 3 = b' >>> 3) ∧
  pack565 0 0 0 = 0 ∧
  (∀ r g b : Byte, pack565 r g b = 0xFFFF ↔ 0xF8 ≤ r ∧ 0xFC ≤ g ∧ 0xF8 ≤ b)

/-- R201: where the channels' bits stand in the packed pixel. -/
def Obligations.Pack565PlacesTheChannels : Prop :=
  ∀ r g b : Byte,
    (pack565 r g b).toNat = (r.toNat / 8) * 2048 + (g.toNat / 4) * 32 + b.toNat / 8

/-- The backlight line (44_backlight.md, PWM generator): in binary mode it is high exactly while BL_OUT
is not 0; in continuous mode, with the output value the waveform uses in range, it is high for the
first (OUT*PWM_RES) div 65536 ticks of a period, constantly low for 0 and constantly high for 65536;
and the first tick of a period uses the current BL_OUT. (When an earlier tick takes it over is a free
value, log 14; that CFG_BL_HZ = 0 makes no difference is the model's choice, log 27.) The step of a PWM tick is such a tick and changes nothing but the generator. -/
def Obligations.BacklightLineFollowsTheOutput : Prop :=
  (∀ s : State, s.regs.cfg.blm = true → (s.blLine = .high ↔ s.regs.blOut ≠ 0)) ∧
  (∀ s : State, s.regs.cfg.blm = false → s.pwmCnt < s.params.pwmRes →
    (s.blLine = .high ↔ s.pwmCnt < s.pwmOut.toNat * s.params.pwmRes / 65536) ∧
    (s.pwmOut = 0 → s.blLine = .low) ∧ (s.pwmOut = 65536 → s.blLine = .high)) ∧
  (∀ s : State, s.pwmCnt < s.params.pwmRes →
    (pwmTick s).pwmCnt = (if s.pwmCnt + 1 = s.params.pwmRes then 0 else s.pwmCnt + 1) ∧
    ((pwmTick s).pwmCnt = 0 → (pwmTick s).pwmOut = s.regs.blOut) ∧
    ((pwmTick s).pwmOut = s.regs.blOut ∨ (pwmTick s).pwmOut = s.pwmOut)) ∧
  (∀ (s : State) (ts : List Turn), s.turns = .pwmTick :: ts →
    ∃ t, step s = .next t ∧ t.pwmCnt = (pwmTick s).pwmCnt ∧ t.pwmOut = (pwmTick s).pwmOut ∧
      t = { s with turns := ts, pwmCnt := t.pwmCnt, pwmOut := t.pwmOut, freeIx := s.freeIx + 1 })

/-! ### Registers -/

/-- ARG0, ARG1, ADDR and LEN (10_state.md) store any value, also while BUSY, and read it back: the
write's step stores it and changes nothing else, and the read's step returns it and changes nothing. -/
def Obligations.OperandRegistersReadBack : Prop :=
  ∀ (s : State) (off : BitVec 8) (v : Word) (ts : List Turn),
    off ∈ [0x08#8, 0x0C#8, 0x10#8, 0x14#8] →
    s.turns = .host (.write off .w32 v) :: .host (.read off .w32) :: ts →
    ∃ t, step s = .next t ∧
      t = { s with
        turns := .host (.read off .w32) :: ts
        regs := { s.regs with
          arg0 := if off = 0x08 then v else s.regs.arg0
          arg1 := if off = 0x0C then v else s.regs.arg1
          addr := if off = 0x10 then v else s.regs.addr
          len := if off = 0x14 then v else s.regs.len } } ∧
      step t = .next { t with turns := ts, reads := s.reads ++ [v] }

/-- R36: the step of a host write to a CFG_* register stores the value, reserved bits forced to 0, if and
only if CFG_LOCK = 0 and BUSY = 0, and changes nothing else; otherwise the write is ignored and no
status bit records it. -/
def Obligations.CfgWritesOnlyUnlockedAndIdle : Prop :=
  ∀ (s : State) (off : BitVec 8) (v : Word) (ts : List Turn),
    off ∈ [0x18#8, 0x1C#8, 0x20#8, 0x24#8, 0x28#8, 0x2C#8] →
    s.turns = .host (.write off .w32 v) :: ts →
    (s.status.cfgLock = false ∧ s.busy = false →
      step s = .next { s with
        turns := ts
        regs := { s.regs with cfg :=
          { size := if off = 0x18 then v else s.regs.cfg.size
            offset := if off = 0x1C then v else s.regs.cfg.offset
            mode := if off = 0x20 then v &&& 0x0007FFFF else s.regs.cfg.mode
            spiHz := if off = 0x24 then v else s.regs.cfg.spiHz
            blHz := if off = 0x28 then v else s.regs.cfg.blHz
            fps := if off = 0x2C then v else s.regs.cfg.fps } } }) ∧
    (¬(s.status.cfgLock = false ∧ s.busy = false) → step s = .next { s with turns := ts })

/-- R25: a host write of v to STATUS clears exactly the bits i in 8..12 with v[i] = 1, whether or not
BUSY = 1; every other bit of STATUS, and everything else, keeps its value. -/
def Obligations.StatusWriteClearsWrittenOnes : Prop :=
  ∀ (s : State) (v : Word) (ts : List Turn), s.turns = .host (.write 0x04 .w32 v) :: ts →
    ∃ t, step s = .next t ∧
      (∀ i, i < 32 → t.statusWord.getLsbD i =
        (s.statusWord.getLsbD i && !(decide (8 ≤ i ∧ i ≤ 12) && v.getLsbD i))) ∧
      t = { s with turns := ts, status := t.status }

/-- R41 and the layout of STATUS (10_state.md): PINS shows the two lines and whether BL_OUT is 0, its
bits 31:3 read 0, and it is 0x3 at reset; every field of STATUS stands at its bits, and its reserved
bits read 0. -/
def Obligations.StatusAndPinsFields : Prop :=
  (∀ s : State, ∀ i, i < 32 →
    (readRegister s 0x04).getLsbD i =
      (if i = 0 then s.busy else if i = 1 then s.status.initDone else if i = 2 then s.status.cfgLock
        else if i = 8 then s.status.cfgErr else if i = 9 then s.status.precondErr
        else if i = 10 then s.status.busErr else if i = 11 then s.status.opErr
        else if i = 12 then s.status.winWarn
        else if 16 ≤ i ∧ i ≤ 23 then s.status.errOp.getLsbD (i - 16) else false) ∧
    (readRegister s 0x40).getLsbD i =
      (if i = 0 then decide (s.dc = .high) else if i = 1 then decide (s.rst = .high)
        else if i = 2 then decide (s.regs.blOut ≠ 0) else false)) ∧
  readRegister State.reset 0x40 = 0x3

/-- Reserved offsets and read-only registers (10_state.md): the step of an aligned word read of a reserved
offset 0x44..0xFC, or of CTRL, returns 0; the step of an aligned word write to a reserved offset or to
BL_DUTY, BL_OUT, LAST_WIN, ORIENT or PINS changes nothing. -/
def Obligations.ReservedAndReadOnlyOffsets : Prop :=
  ∀ (s : State) (off : BitVec 8) (v : Word) (ts : List Turn), off.toNat % 4 = 0 →
    ((0x44 ≤ off.toNat ∨ off = 0) → s.turns = .host (.read off .w32) :: ts →
      step s = .next { s with turns := ts, reads := s.reads ++ [0] }) ∧
    (0x30 ≤ off.toNat → s.turns = .host (.write off .w32 v) :: ts →
      step s = .next { s with turns := ts })

/-- R62: a register access that is not a 32-bit access at an offset that is a multiple of 4 is refused,
and every other one has a meaning. -/
def Obligations.OnlyAlignedWordAccesses : Prop :=
  ∀ (s : State) (off : BitVec 8) (w : Width) (v : Word) (ts : List Turn),
    ((w ≠ .w32 ∨ off.toNat % 4 ≠ 0) →
      step { s with turns := .host (.read off w) :: ts } = .refused (.notAlignedWord off w) ∧
      step { s with turns := .host (.write off w v) :: ts } = .refused (.notAlignedWord off w)) ∧
    (w = .w32 ∧ off.toNat % 4 = 0 →
      (∃ t, step { s with turns := .host (.read off w) :: ts } = .next t) ∧
      (∃ t, step { s with turns := .host (.write off w v) :: ts } = .next t))

/-- Register reads (10_state.md, 20_memory.md): the step returns one value to the host and changes
nothing else. What it returns at the CFG_* offsets are the fields the operations use, at their bits, with
the reserved bits of CFG_MODE 0 in every state of the invariant; BL_DUTY and BL_OUT in bits 16:0 with
bits 31:17 reading 0; LW below LH; ORIENT in bits 7:0 with bits 31:8 reading 0. -/
def Obligations.RegisterReadsShowTheFields : Prop :=
  (∀ (s : State) (off : BitVec 8) (ts : List Turn), off.toNat % 4 = 0 →
    s.turns = .host (.read off .w32) :: ts →
    step s = .next { s with turns := ts, reads := s.reads ++ [readRegister s off] }) ∧
  (∀ s : State, ∀ i, i < 32 →
    let c := s.regs.cfg
    (readRegister s 0x18).getLsbD i =
      (if i < 16 then c.width.getLsbD i else c.height.getLsbD (i - 16)) ∧
    (readRegister s 0x1C).getLsbD i =
      (if i < 16 then c.offLeft.getLsbD i else c.offTop.getLsbD (i - 16)) ∧
    (i < 19 → (readRegister s 0x20).getLsbD i =
      (if i < 16 then c.rotDeg.getLsbD i else if i = 16 then c.bgr else if i = 17 then c.inv
        else c.blm)) ∧
    (Inv s → 19 ≤ i → (readRegister s 0x20).getLsbD i = false) ∧
    (readRegister s 0x24).getLsbD i = c.spiHz.getLsbD i ∧
    (readRegister s 0x28).getLsbD i = c.blHz.getLsbD i ∧
    (readRegister s 0x2C).getLsbD i = c.fps.getLsbD i ∧
    (readRegister s 0x30).getLsbD i = (if i < 17 then s.regs.blDuty.getLsbD i else false) ∧
    (readRegister s 0x34).getLsbD i = (if i < 17 then s.regs.blOut.getLsbD i else false) ∧
    (readRegister s 0x38).getLsbD i =
      (if i < 16 then s.regs.lastW.getLsbD i else s.regs.lastH.getLsbD (i - 16)) ∧
    (readRegister s 0x3C).getLsbD i = (if i < 8 then s.regs.orient.getLsbD i else false))

/-- R49, R270: the block reset abandons the running operation and emits no event, then or later, and
sets every register and line to its reset value; host memory stays as it is. The same values stand in
the state after reset. (The PWM phase is a free value, log 8; that the latch and the step index keep
what they hold is the model's choice, log 9, and not stated.) -/
def Obligations.BlockResetRestoresResetValues : Prop :=
  (∀ (s : State) (ts : List Turn), s.turns = .blockReset :: ts →
    ∃ t, step s = .next t ∧ t.mem = s.mem ∧ t.trace = s.trace ∧
      (∀ n, (seqRun n t).trace = s.trace)) ∧
  (∀ t : State, (t = State.reset ∨ ∃ s ts, s.turns = .blockReset :: ts ∧ step s = .next t) →
    t.op = none ∧ t.dc = .high ∧ t.rst = .high ∧ t.blLine = .low ∧
    (∀ off ∈ [0x00#8, 0x04, 0x08, 0x0C, 0x10, 0x14, 0x18, 0x1C, 0x20, 0x24, 0x2C, 0x34, 0x38, 0x3C],
      readRegister t off = 0) ∧
    (∀ off : BitVec 8, 0x44 ≤ off.toNat → readRegister t off = 0) ∧
    readRegister t 0x28 = 500 ∧ readRegister t 0x30 = 65536 ∧ readRegister t 0x40 = 3)

/-! ### Errors -/

/-- R245: raising an error inside an operation sets its bit and ERR_OP, clears INIT_DONE for a bus error
in INIT or SHUTDOWN, ends the operation, and leaves every event and every register written so far; no
later micro-step is performed; and dc = 1 holds after every step that ends an operation in a state of
the invariant. -/
def Obligations.RaiseRecordsAndAborts : Prop :=
  (∀ (s : State) (o : Operation) (e : ErrorKind), s.op = some o →
    raiseError e s = { s with
      op := none
      todo := []
      status := { s.status with
        cfgErr := s.status.cfgErr || decide (e = .configuration)
        precondErr := s.status.precondErr || decide (e = .precondition)
        busErr := s.status.busErr || decide (e = .busIO)
        errOp := o.code
        initDone := s.status.initDone &&
          !(decide (e = .busIO) && (decide (o = .init) || decide (o = .shutdown))) } } ∧
    ∀ n, seqRun n (raiseError e s) = raiseError e s) ∧
  (∀ s t : State, Inv s → s.op ≠ none → step s = .next t → t.op = none → t.dc = .high)

/-- ERR_OP and the error bits (60_exceptions.md, 10_state.md STATUS), whatever one step does. An error bit
that rises was set for the running operation or for the rejected CTRL write, and ERR_OP then holds its
code. ERR_OP changes only by a block reset, by a rejected CTRL write, whose OP it then holds with
OP_ERR = 1, or by a move of the sequencer, and then it holds the running operation's code and an error
bit is 1. Every error or warning the sequencer records sets it, also where the bit was 1 before. An
error bit falls only at a host write of 1 to it or at a block reset. -/
def Obligations.ErrOpNamesTheLastSetter : Prop :=
  (∀ s t : State, step s = .next t →
    (t.status.cfgErr = true ∧ s.status.cfgErr = false ∨
      t.status.precondErr = true ∧ s.status.precondErr = false ∨
      t.status.busErr = true ∧ s.status.busErr = false ∨
      t.status.winWarn = true ∧ s.status.winWarn = false →
      ∃ o, s.op = some o ∧ t.status.errOp = o.code) ∧
    (t.status.opErr = true ∧ s.status.opErr = false →
      ∃ v ts, s.turns = .host (.write 0 .w32 v) :: ts ∧ t.status.errOp = ctrlOp v)) ∧
  (∀ s t : State, step s = .next t → t.status.errOp ≠ s.status.errOp →
    s.turns.head? = some .blockReset ∨
    (∃ v, s.turns.head? = some (.host (.write 0 .w32 v)) ∧
      t.status.errOp = ctrlOp v ∧ t.status.opErr = true) ∨
    ((s.turns = [] ∨ s.turns.head? = some .sequencer) ∧
      ∃ o, s.op = some o ∧ t.status.errOp = o.code ∧
        (t.status.cfgErr = true ∨ t.status.precondErr = true ∨ t.status.busErr = true ∨
          t.status.winWarn = true))) ∧
  (∀ (s : State) (o : Operation) (m : Micro) (ms : List Micro),
    s.op = some o → s.stalled = false → s.todo = m :: ms →
    (m = .winWarn ∨ (∃ e, m = .raise e) ∨ (m.isTransfer = true ∧ s.outcomeAt 0 = .fail)) →
    (seqStep s).status.errOp = o.code) ∧
  (∀ s t : State, step s = .next t → ∀ i, 8 ≤ i → i ≤ 12 →
    s.statusWord.getLsbD i = true → t.statusWord.getLsbD i = false →
    s.turns.head? = some .blockReset ∨
      ∃ v, s.turns.head? = some (.host (.write 0x04 .w32 v)) ∧ v.getLsbD i = true)

/-! ### Host memory -/

/-- R66: the block never writes host memory: a step whose turn is not the host's own store leaves every
byte as it was. -/
def Obligations.BlockNeverWritesHostMemory : Prop :=
  ∀ s t : State, step s = .next t → (∀ a v, s.turns.head? ≠ some (.host (.store a v))) →
    ∀ a, t.mem.read a = s.mem.read a

/-- A host store changes exactly its byte of a canonical memory and keeps the form; outside an operation
it changes nothing else. -/
def Obligations.HostStoreWritesOneByte : Prop :=
  ∀ (s : State) (a : Word) (v : Byte) (ts : List Turn), s.mem.wf = true →
    s.turns = .host (.store a v) :: ts →
    ∃ t, step s = .next t ∧ t.mem.wf = true ∧ t.mem.read a.toNat = v ∧
      (∀ b, b ≠ a.toNat → t.mem.read b = s.mem.read b) ∧
      (s.op = none → s.todo = [] → t = { s with turns := ts, mem := t.mem })

/-- A host store while an operation runs is a race (20_memory.md R81): each payload byte still to be sent
keeps its old value or, where it lies at the stored address, takes the new one, independently; nothing
else of the program changes, and nothing at all where no payload byte that can still be read lies at the
address. The next two clauses are the model's choice (log 6, DEDUCED from R67: each payload byte is read
at most once): where the low byte of a pixel has been sent, its green and blue were read with it and
stay, and its red, which only the high byte carries, is old or new; the two bytes of a pixel still to be
sent stay bytes of one pixel. -/
def Obligations.RacingStoreGivesOldOrNewByte : Prop :=
  ∀ (s : State) (a : Word) (v : Byte) (ts : List Turn), s.turns = .host (.store a v) :: ts →
    ∃ t, step s = .next t ∧
      List.Forall₂ (Micro.Raced s.latch.addr a v) s.todo t.todo ∧
      (¬ s.Races a → t.todo = s.todo) ∧
      (∀ r g b c ms, s.todo = .dataTransfer (.pixelHigh r g b :: c) :: ms →
        ∃ r', r.Raced s.latch.addr a v r' ∧
          (bytesToSend t.todo).head? = some (.pixelHigh r' g b)) ∧
      (∀ k r g b, (bytesToSend s.todo)[k]? = some (.pixelLow r g b) →
        (bytesToSend s.todo)[k + 1]? = some (.pixelHigh r g b) →
        ∃ r' g' b', (bytesToSend t.todo)[k]? = some (.pixelLow r' g' b') ∧
          (bytesToSend t.todo)[k + 1]? = some (.pixelHigh r' g' b')) ∧
      t.op = s.op ∧ t.latch = s.latch ∧ t.regs = s.regs ∧ t.status = s.status ∧ t.trace = s.trace ∧
      t.mem = s.mem.write a.toNat v

/-! ### Whole-machine rules -/

/-- Every step keeps the invariant: canonical memory, legal parameters, nothing left to do while idle,
the line discipline (commands with DC low, data with DC high, dc = 1 and rst = 1 whenever the block is
idle and after every error), the reset line moved by INIT only, reserved CFG_MODE bits 0, brightness in
0..65536, the PWM phase in range, and the events since the last block reset showing the DC line. -/
def Obligations.StepKeepsInv : Prop := ∀ s t : State, Inv s → step s = .next t → Inv t

/-- The two invariants hold at reset. -/
def Obligations.ResetHasInv : Prop := Inv State.reset ∧ LifecycleInv State.reset

/-- Every step keeps the lifecycle invariant: a locked configuration is never malformed, and INIT_DONE
holds only under CFG_LOCK. -/
def Obligations.StepKeepsLifecycleInv : Prop :=
  ∀ s t : State, LifecycleInv s → step s = .next t → LifecycleInv t

/-- No step ends in a fault, and the only refusal is that of an access which is not an aligned 32-bit
one: every CTRL word, every register access and every turn has a meaning. -/
def Obligations.NothingElseStopsTheMachine : Prop :=
  ∀ s : State, (∃ t, step s = .next t) ∨
    ∃ off w, step s = .refused (.notAlignedWord off w) ∧ (w ≠ .w32 ∨ off.toNat % 4 ≠ 0)

/-- The configuration (10_state.md): a step changes a CFG_* register only by a host write to it while
CFG_LOCK = 0 and BUSY = 0, or by a block reset; the parameters never change. -/
def Obligations.ConfigurationChangesOnlyUnlocked : Prop :=
  ∀ s t : State, step s = .next t → t.params = s.params ∧
    (t.regs.cfg ≠ s.regs.cfg →
      s.turns.head? = some .blockReset ∨
      (s.status.cfgLock = false ∧ s.op = none ∧
        ∃ off v, s.turns.head? = some (.host (.write off .w32 v)) ∧
          off ∈ [0x18#8, 0x1C#8, 0x20#8, 0x24#8, 0x28#8, 0x2C#8]))

/-- The trace only grows, by at most two events a step, and only when the sequencer moves: no host
access, PWM tick or block reset emits an event, and an idle block emits none. -/
def Obligations.TraceOnlyGrows : Prop :=
  ∀ s t : State, step s = .next t → ∃ evs, t.trace = s.trace ++ evs ∧ evs.length ≤ 2 ∧
    (evs ≠ [] → s.op ≠ none ∧ s.stalled = false ∧
      (s.turns = [] ∨ s.turns.head? = some .sequencer))

/-- "A host write to CTRL is the only way to start an operation" (10_state.md, CTRL): a step from an
idle state ends with an operation running only if its turn was a host write to CTRL whose OP is that
operation's. A host read of CTRL returns 0. -/
def Obligations.OnlyCtrlWritesStartOperations : Prop :=
  (∀ (s t : State) (o : Operation), s.op = none → step s = .next t → t.op = some o →
    ∃ v ts, s.turns = .host (.write 0 .w32 v) :: ts ∧ ctrlOp v = o.code) ∧
  (∀ s : State, readRegister s 0 = 0)

/-- Which operations change the read-only registers (10_state.md): whichever instruction an idle block
executes and however far its operation gets, BL_DUTY changes only in SET_BRIGHTNESS or SHUTDOWN, BL_OUT
only in INIT, SET_BRIGHTNESS or SHUTDOWN, ORIENT only in INIT, INIT_DONE and CFG_LOCK only in INIT or
SHUTDOWN, LAST_WIN only in INIT, SET_WINDOW, RENDER, CLEAR or SHUTDOWN; of the lines PINS shows, DC
changes only in those that send a command and RST only in INIT (BL_ON follows BL_OUT). The operand and
configuration registers and host memory never change. -/
def Obligations.ReadOnlyRegistersChangeOnlyInTheirOperations : Prop :=
  ∀ (i : Instr) (s t : State) (n : Nat), s.op = none → exec i s = .next t →
    ((seqRun n t).regs.blDuty ≠ s.regs.blDuty → i.opcode ∈ [0x09#8, 0x0A#8]) ∧
    ((seqRun n t).regs.blOut ≠ s.regs.blOut → i.opcode ∈ [0x01#8, 0x09#8, 0x0A#8]) ∧
    ((seqRun n t).regs.orient ≠ s.regs.orient → i.opcode = 0x01) ∧
    ((seqRun n t).status.initDone ≠ s.status.initDone → i.opcode ∈ [0x01#8, 0x0A#8]) ∧
    ((seqRun n t).status.cfgLock ≠ s.status.cfgLock → i.opcode ∈ [0x01#8, 0x0A#8]) ∧
    ((seqRun n t).regs.lastW ≠ s.regs.lastW ∨ (seqRun n t).regs.lastH ≠ s.regs.lastH →
      i.opcode ∈ [0x01#8, 0x04#8, 0x05#8, 0x07#8, 0x0A#8]) ∧
    ((seqRun n t).dc ≠ s.dc → i.opcode ∈ [0x01#8, 0x02#8, 0x04#8, 0x05#8, 0x07#8, 0x0A#8]) ∧
    ((seqRun n t).rst ≠ s.rst → i.opcode = 0x01) ∧
    (seqRun n t).regs.arg0 = s.regs.arg0 ∧ (seqRun n t).regs.arg1 = s.regs.arg1 ∧
    (seqRun n t).regs.addr = s.regs.addr ∧ (seqRun n t).regs.len = s.regs.len ∧
    (seqRun n t).regs.cfg = s.regs.cfg ∧ (seqRun n t).mem = s.mem

/-- The armed state as the trace shows it (10_state.md R47; 70_reset_and_hazards.md, armed-state hazard;
the view of the panel is the model's, log 16). After an INIT whose transfers complete the controller is
armed. Once the panel's state is known, it is armed after SET_WINDOW, CLEAR and RENDER of a fitting
image, and after WRITE_CMD exactly where the command is CMD_RAMWR. A data-only operation leaves it as it
was. A block reset makes it unknown. -/
def Obligations.AddressingArmsTheController : Prop :=
  ∀ (s : State) (x y : Bool), Inv s → s.op = none →
    (malformed s.regs.cfg = false → ∃ t, exec (.init x y) s = .next t ∧
      (s.BusOk (transfersIn t.todo) → t.finish.StreamSafe ∧ t.finish.panelView.known = true)) ∧
    (s.panelView.known = true →
      (∀ i ∈ [Instr.setWindow x y, .clear x y], ∃ t, exec i s = .next t ∧
        (s.BusOk (transfersIn t.todo) → t.finish.StreamSafe)) ∧
      (imageUnfit (s.latchNow x y) = false → ∃ t, exec (.render x y) s = .next t ∧
        (s.BusOk (transfersIn t.todo) → t.finish.StreamSafe)) ∧
      (∃ t, exec (.writeCmd x y) s = .next t ∧ (s.BusOk (transfersIn t.todo) →
        (t.finish.StreamSafe ↔ s.regs.arg0.extractLsb' 0 8 = s.params.cmdRamwr)))) ∧
    (∀ i ∈ [Instr.writeData x y, .renderRaw x y, .clearWindow x y], ∃ t, exec i s = .next t ∧
      (s.BusOk (transfersIn t.todo) → panelArmed t.finish = panelArmed s)) ∧
    (∀ ts, s.turns = .blockReset :: ts → ∃ t, step s = .next t ∧ panelArmed t = .unknown)

/-- The CFG_* registers are stored and read back (10_state.md R30 to R36): the step of an unlocked idle
write to one of them and the step of a read of it after that return the value written, with the
reserved bits of CFG_MODE 0, and a read of any other register returns what it returned before; a write
that is ignored leaves every read as it was. -/
def Obligations.CfgRegistersReadBack : Prop :=
  ∀ (s : State) (off off' : BitVec 8) (v : Word) (ts : List Turn),
    off ∈ [0x18#8, 0x1C#8, 0x20#8, 0x24#8, 0x28#8, 0x2C#8] → off'.toNat % 4 = 0 →
    s.turns = .host (.write off .w32 v) :: .host (.read off' .w32) :: ts →
    ∃ t, step s = .next t ∧ step t = .next { t with
      turns := ts
      reads := s.reads ++ [
        if off' = off ∧ s.status.cfgLock = false ∧ s.op = none then
          (if off = 0x20 then v &&& 0x0007FFFF else v)
        else readRegister s off'] }
end

