-- ==== Sys2Proof/Laws/Memory.lean ====
section
/-! SUPPORT. Host memory: a read after a write, and the canonical form. -/

namespace Sys2Proof.Machine

@[simp] theorem memory_read_nil (a : Nat) : Memory.read [] a = Memory.unlisted := rfl

/-- Below its first address a rising list holds nothing. -/
theorem memory_read_below {m : Memory} {b a : Nat} (h : Memory.wfAbove b m = true) (ha : a ≤ b) :
    m.read a = Memory.unlisted := by
  induction m generalizing b with
  | nil => rfl
  | cons c m ih =>
    obtain ⟨c, v⟩ := c
    simp only [Memory.wfAbove, Bool.and_eq_true, decide_eq_true_eq] at h
    have hne : a ≠ c := by omega
    simp only [Memory.read, hne, if_false]
    exact ih h.2 (by omega)

theorem memory_wfAbove_mono {m : Memory} {a b : Nat} (hab : a ≤ b) (h : Memory.wfAbove b m = true) :
    Memory.wfAbove a m = true := by
  cases m with
  | nil => rfl
  | cons c m =>
    simp only [Memory.wfAbove, Bool.and_eq_true, decide_eq_true_eq] at h ⊢
    exact ⟨⟨⟨by omega, h.1.1.2⟩, h.1.2⟩, h.2⟩

theorem memory_write_wfAbove {m : Memory} {b a : Nat} {v : Byte} (h : Memory.wfAbove b m = true)
    (hb : b < a) (ha : a < 2 ^ 32) : Memory.wfAbove b (m.write a v) = true := by
  induction m generalizing b with
  | nil =>
    unfold Memory.write
    split <;> simp_all [Memory.wfAbove]
  | cons c m ih =>
    obtain ⟨c, w⟩ := c
    simp only [Memory.wfAbove, Bool.and_eq_true, decide_eq_true_eq] at h
    unfold Memory.write
    split
    · split
      · simp_all [Memory.wfAbove]
      · simp_all [Memory.wfAbove]
    · split
      · split
        · exact memory_wfAbove_mono (by omega) h.2
        · simp_all [Memory.wfAbove]
      · simp only [Memory.wfAbove, Bool.and_eq_true, decide_eq_true_eq]
        exact ⟨h.1, ih h.2 (by omega)⟩

/-- Every write keeps the canonical form. -/
theorem memory_write_wf {m : Memory} {a : Nat} {v : Byte} (h : m.wf = true) (ha : a < 2 ^ 32) :
    (m.write a v).wf = true := by
  cases m with
  | nil =>
    unfold Memory.write
    split <;> simp_all [Memory.wf, Memory.wfAbove]
  | cons c m =>
    obtain ⟨c, w⟩ := c
    simp only [Memory.wf, Bool.and_eq_true, decide_eq_true_eq] at h
    unfold Memory.write
    split
    · split
      · simp_all [Memory.wf]
      · simp_all [Memory.wf, Memory.wfAbove]
    · split
      · split
        · cases m with
          | nil => rfl
          | cons d m =>
            have := h.2
            simp only [Memory.wfAbove, Bool.and_eq_true, decide_eq_true_eq] at this
            simp only [Memory.wf, Bool.and_eq_true, decide_eq_true_eq]
            exact ⟨⟨this.1.1.2, this.1.2⟩, this.2⟩
        · simp_all [Memory.wf]
      · simp only [Memory.wf, Bool.and_eq_true, decide_eq_true_eq]
        exact ⟨h.1, memory_write_wfAbove h.2 (by omega) ha⟩

theorem memory_read_write_above {m : Memory} {b a : Nat} {v : Byte} (h : Memory.wfAbove b m = true)
    (x : Nat) : (m.write a v).read x = if x = a then v else m.read x := by
  induction m generalizing b with
  | nil =>
    unfold Memory.write
    split <;> by_cases hx : x = a <;> simp_all [Memory.read]
  | cons c m ih =>
    obtain ⟨c, w⟩ := c
    simp only [Memory.wfAbove, Bool.and_eq_true, decide_eq_true_eq] at h
    unfold Memory.write
    by_cases hac : a < c
    · have hz : ∀ y, y < c → Memory.read ((c, w) :: m) y = Memory.unlisted := fun y hy => by
        simp only [Memory.read, show y ≠ c by omega, if_false]
        exact memory_read_below h.2 (by omega)
      by_cases hv : v = Memory.unlisted
      · by_cases hx : x = a
        · simp [hac, hv, hx, hz a hac]
        · simp [hac, hv, hx]
      · by_cases hx : x = a <;> simp [hac, hv, hx, Memory.read]
    · by_cases heq : a = c
      · subst heq
        by_cases hv : v = Memory.unlisted
        · by_cases hx : x = a
          · simp [hv, hx, memory_read_below h.2 (Nat.le_refl a)]
          · simp [hv, hx, Memory.read]
        · by_cases hx : x = a <;> simp [hv, hx, Memory.read]
      · simp only [hac, heq, if_false, Memory.read, ih h.2]
        by_cases hx : x = a
        · have : x ≠ c := by omega
          simp [hx, heq]
        · simp [hx]

/-- A read after a write of a canonical memory: the byte written at its address, and the old byte
everywhere else. -/
theorem memory_read_write {m : Memory} {a : Nat} {v : Byte} (h : m.wf = true) (x : Nat) :
    (m.write a v).read x = if x = a then v else m.read x := by
  cases m with
  | nil => exact memory_read_write_above (b := 0) rfl x
  | cons c m =>
    obtain ⟨c, w⟩ := c
    simp only [Memory.wf, Bool.and_eq_true, decide_eq_true_eq] at h
    cases c with
    | succ c =>
      refine memory_read_write_above (b := 0) ?_ x
      simp only [Memory.wfAbove, Bool.and_eq_true, decide_eq_true_eq]
      exact ⟨⟨⟨by omega, h.1.1⟩, h.1.2⟩, h.2⟩
    | zero =>
      by_cases ha : a = 0
      · subst ha
        unfold Memory.write
        by_cases hv : v = Memory.unlisted
        · by_cases hx : x = 0
          · simp [hv, hx, memory_read_below h.2 (Nat.le_refl 0)]
          · simp [hv, hx, Memory.read]
        · by_cases hx : x = 0 <;> simp [hv, hx, Memory.read]
      · unfold Memory.write
        simp only [Nat.not_lt_zero, ha, if_false, Memory.read, memory_read_write_above h.2]
        by_cases hx : x = a
        · simp [hx, ha]
        · simp [hx]

end Sys2Proof.Machine
end

