-- ==== Sys2Proof/Laws/Panel.lean ====
section
/-! SUPPORT. What the frames of events do to the view of the panel (10_state.md R47). -/

namespace Sys2Proof.Machine

/-- The view after more events. -/
def PanelView.seeAll (ramwr : Byte) (v : PanelView) (evs : List Event) : PanelView :=
  evs.foldl (PanelView.see ramwr) v

variable (q : Byte) (v : PanelView)

@[simp] theorem seeAll_nil : v.seeAll q [] = v := rfl

@[simp] theorem seeAll_cons (e : Event) (evs : List Event) :
    v.seeAll q (e :: evs) = (v.see q e).seeAll q evs := rfl

@[simp] theorem seeAll_append (a b : List Event) :
    v.seeAll q (a ++ b) = (v.seeAll q a).seeAll q b := by
  simp [PanelView.seeAll]

/-- Once known, the panel's state stays known. -/
theorem see_known (h : v.known = true) (e : Event) : (v.see q e).known = true := by
  unfold PanelView.see
  split <;> (try split) <;> first | exact h | rfl

theorem seeAll_known (h : v.known = true) (evs : List Event) : (v.seeAll q evs).known = true := by
  induction evs generalizing v with
  | nil => exact h
  | cons e evs ih => exact ih _ (see_known q v h e)

/-- A complete command frame. -/
theorem seeAll_cmdEvents (b : Byte) : v.seeAll q (cmdEvents b) =
    { v with dc := .high,
             armed := if v.known then (if b = q then .armed else .notArmed) else .unknown } := by
  simp [cmdEvents, PanelView.see]

/-- A complete data frame. -/
theorem seeAll_dataEvents (h : v.dc = .high) (p : Params) (bs : List Byte) :
    v.seeAll q (dataEvents p bs) = v := by
  unfold dataEvents
  induction chunks p bs with
  | nil => rfl
  | cons c cs ih =>
    have hc : v.see q (.xfer c) = v := by simp [PanelView.see, h]
    rw [List.map_cons, seeAll_cons, hc, ih]

/-- The addressing frames end with CMD_RAMWR. -/
theorem seeAll_windowEvents (p : Params) (c : CfgRegs) (x0 y0 x1 y1 : Half) :
    v.seeAll p.cmdRamwr (windowEvents p c x0 y0 x1 y1) =
      { v with dc := .high, armed := if v.known then .armed else .unknown } := by
  unfold windowEvents addressingEvents
  simp only [seeAll_append, seeAll_cmdEvents]
  simp [seeAll_dataEvents]

theorem seeAll_clearEvents (p : Params) (c : CfgRegs) :
    v.seeAll p.cmdRamwr (clearEvents p c) =
      { v with dc := .high, armed := if v.known then .armed else .unknown } := by
  unfold clearEvents
  rw [seeAll_append, seeAll_windowEvents, seeAll_dataEvents]
  rfl

/-! ### The view of a state -/

/-- The view depends on the parameters, the trace and the mark alone. -/
theorem panelView_congr {s t : State} (hp : t.params = s.params) (ht : t.trace = s.trace)
    (hm : t.resetMark = s.resetMark) : t.panelView = s.panelView := by
  unfold State.panelView State.sinceReset
  rw [hp, ht, hm]

/-- Events emitted with the mark in the trace are seen after the others. -/
theorem panelView_append {s t : State} (hs : s.resetMark ≤ s.trace.length)
    (hp : t.params = s.params) {evs : List Event} (ht : t.trace = s.trace ++ evs)
    (hm : t.resetMark = s.resetMark) :
    t.panelView = s.panelView.seeAll s.params.cmdRamwr evs := by
  unfold State.panelView State.sinceReset
  rw [hp, ht, hm, List.drop_append_of_le_length hs, List.foldl_append]
  rfl

/-- Nothing has been seen since a block reset. -/
theorem panelView_blockReset (s : State) : (blockReset s).panelView = .afterReset := by
  simp [State.panelView, State.sinceReset, blockReset]

end Sys2Proof.Machine
end

