-- ==== Sys2Proof/Laws/PerInstr.lean ====
section
/-! SUPPORT. Statements made per instruction: the layout of every instruction's CTRL word
(30_encoding.md R91). -/

namespace Sys2Proof.Laws.EncodedFields

/-- The word of the instruction holds its operation code in bits 7:0, its omission bits in bits 8 and
9, and 0 in the reserved bits 31:10. -/
def Statement (i : Instr) : Prop :=
  ctrlOp (encode i) = i.opcode ∧ ctrlOmitX1 (encode i) = i.omits.1 ∧
    ctrlOmitY1 (encode i) = i.omits.2 ∧ encode i >>> 10 = 0

/-- The layout of any operation code and omission bits. -/
theorem of_word (op : Byte) (x y : Bool) :
    ctrlOp (ctrlWord op x y) = op ∧ ctrlOmitX1 (ctrlWord op x y) = x ∧
      ctrlOmitY1 (ctrlWord op x y) = y ∧ ctrlWord op x y >>> 10 = 0 := by
  revert op x y
  decide

theorem nop : Statement .nop := of_word _ _ _
theorem init (x y : Bool) : Statement (.init x y) := of_word _ _ _
theorem writeCmd (x y : Bool) : Statement (.writeCmd x y) := of_word _ _ _
theorem writeData (x y : Bool) : Statement (.writeData x y) := of_word _ _ _
theorem setWindow (x y : Bool) : Statement (.setWindow x y) := of_word _ _ _
theorem render (x y : Bool) : Statement (.render x y) := of_word _ _ _
theorem renderRaw (x y : Bool) : Statement (.renderRaw x y) := of_word _ _ _
theorem clear (x y : Bool) : Statement (.clear x y) := of_word _ _ _
theorem clearWindow (x y : Bool) : Statement (.clearWindow x y) := of_word _ _ _
theorem setBrightness (x y : Bool) : Statement (.setBrightness x y) := of_word _ _ _
theorem shutdown (x y : Bool) : Statement (.shutdown x y) := of_word _ _ _

end Sys2Proof.Laws.EncodedFields
end

