-- ==== Sys2Proof/Laws/State.lean ====
section
/-! SUPPORT. What each shared update does to each field of State, one lemma per field, so that no
later proof unfolds a record update. -/

namespace Sys2Proof.Machine

section emit

variable (e : Event) (s : State)

@[simp] theorem emit_params : (s.emit e).params = s.params := rfl
@[simp] theorem emit_regs : (s.emit e).regs = s.regs := rfl
@[simp] theorem emit_status : (s.emit e).status = s.status := rfl
@[simp] theorem emit_op : (s.emit e).op = s.op := rfl
@[simp] theorem emit_stepIx : (s.emit e).stepIx = s.stepIx := rfl
@[simp] theorem emit_todo : (s.emit e).todo = s.todo := rfl
@[simp] theorem emit_stalled : (s.emit e).stalled = s.stalled := rfl
@[simp] theorem emit_latch : (s.emit e).latch = s.latch := rfl
@[simp] theorem emit_dc : (s.emit e).dc = s.dc := rfl
@[simp] theorem emit_rst : (s.emit e).rst = s.rst := rfl
@[simp] theorem emit_pwmCnt : (s.emit e).pwmCnt = s.pwmCnt := rfl
@[simp] theorem emit_pwmOut : (s.emit e).pwmOut = s.pwmOut := rfl
@[simp] theorem emit_mem : (s.emit e).mem = s.mem := rfl
@[simp] theorem emit_trace : (s.emit e).trace = s.trace ++ [e] := rfl
@[simp] theorem emit_reads : (s.emit e).reads = s.reads := rfl
@[simp] theorem emit_turns : (s.emit e).turns = s.turns := rfl
@[simp] theorem emit_bus : (s.emit e).bus = s.bus := rfl
@[simp] theorem emit_busCount : (s.emit e).busCount = s.busCount := rfl
@[simp] theorem emit_freeIx : (s.emit e).freeIx = s.freeIx := rfl
@[simp] theorem emit_resetMark : (s.emit e).resetMark = s.resetMark := rfl

end emit

section driveDc

variable (l : Level) (s : State)

@[simp] theorem driveDc_params : (s.driveDc l).params = s.params := rfl
@[simp] theorem driveDc_regs : (s.driveDc l).regs = s.regs := rfl
@[simp] theorem driveDc_status : (s.driveDc l).status = s.status := rfl
@[simp] theorem driveDc_op : (s.driveDc l).op = s.op := rfl
@[simp] theorem driveDc_stepIx : (s.driveDc l).stepIx = s.stepIx := rfl
@[simp] theorem driveDc_todo : (s.driveDc l).todo = s.todo := rfl
@[simp] theorem driveDc_stalled : (s.driveDc l).stalled = s.stalled := rfl
@[simp] theorem driveDc_latch : (s.driveDc l).latch = s.latch := rfl
@[simp] theorem driveDc_dc : (s.driveDc l).dc = l := rfl
@[simp] theorem driveDc_rst : (s.driveDc l).rst = s.rst := rfl
@[simp] theorem driveDc_pwmCnt : (s.driveDc l).pwmCnt = s.pwmCnt := rfl
@[simp] theorem driveDc_pwmOut : (s.driveDc l).pwmOut = s.pwmOut := rfl
@[simp] theorem driveDc_mem : (s.driveDc l).mem = s.mem := rfl
@[simp] theorem driveDc_trace : (s.driveDc l).trace = s.trace ++ [.dcSet l] := rfl
@[simp] theorem driveDc_reads : (s.driveDc l).reads = s.reads := rfl
@[simp] theorem driveDc_turns : (s.driveDc l).turns = s.turns := rfl
@[simp] theorem driveDc_bus : (s.driveDc l).bus = s.bus := rfl
@[simp] theorem driveDc_busCount : (s.driveDc l).busCount = s.busCount := rfl
@[simp] theorem driveDc_freeIx : (s.driveDc l).freeIx = s.freeIx := rfl
@[simp] theorem driveDc_resetMark : (s.driveDc l).resetMark = s.resetMark := rfl

end driveDc

section driveRst

variable (l : Level) (s : State)

@[simp] theorem driveRst_params : (s.driveRst l).params = s.params := rfl
@[simp] theorem driveRst_regs : (s.driveRst l).regs = s.regs := rfl
@[simp] theorem driveRst_status : (s.driveRst l).status = s.status := rfl
@[simp] theorem driveRst_op : (s.driveRst l).op = s.op := rfl
@[simp] theorem driveRst_stepIx : (s.driveRst l).stepIx = s.stepIx := rfl
@[simp] theorem driveRst_todo : (s.driveRst l).todo = s.todo := rfl
@[simp] theorem driveRst_stalled : (s.driveRst l).stalled = s.stalled := rfl
@[simp] theorem driveRst_latch : (s.driveRst l).latch = s.latch := rfl
@[simp] theorem driveRst_dc : (s.driveRst l).dc = s.dc := rfl
@[simp] theorem driveRst_rst : (s.driveRst l).rst = l := rfl
@[simp] theorem driveRst_pwmCnt : (s.driveRst l).pwmCnt = s.pwmCnt := rfl
@[simp] theorem driveRst_pwmOut : (s.driveRst l).pwmOut = s.pwmOut := rfl
@[simp] theorem driveRst_mem : (s.driveRst l).mem = s.mem := rfl
@[simp] theorem driveRst_trace : (s.driveRst l).trace = s.trace ++ [.rstSet l] := rfl
@[simp] theorem driveRst_reads : (s.driveRst l).reads = s.reads := rfl
@[simp] theorem driveRst_turns : (s.driveRst l).turns = s.turns := rfl
@[simp] theorem driveRst_bus : (s.driveRst l).bus = s.bus := rfl
@[simp] theorem driveRst_busCount : (s.driveRst l).busCount = s.busCount := rfl
@[simp] theorem driveRst_freeIx : (s.driveRst l).freeIx = s.freeIx := rfl
@[simp] theorem driveRst_resetMark : (s.driveRst l).resetMark = s.resetMark := rfl

end driveRst

section setBlOut

variable (d : Duty) (s : State)

@[simp] theorem setBlOut_params : (s.setBlOut d).params = s.params := rfl
@[simp] theorem setBlOut_regs : (s.setBlOut d).regs = { s.regs with blOut := d } := rfl
@[simp] theorem setBlOut_status : (s.setBlOut d).status = s.status := rfl
@[simp] theorem setBlOut_op : (s.setBlOut d).op = s.op := rfl
@[simp] theorem setBlOut_stepIx : (s.setBlOut d).stepIx = s.stepIx := rfl
@[simp] theorem setBlOut_todo : (s.setBlOut d).todo = s.todo := rfl
@[simp] theorem setBlOut_stalled : (s.setBlOut d).stalled = s.stalled := rfl
@[simp] theorem setBlOut_latch : (s.setBlOut d).latch = s.latch := rfl
@[simp] theorem setBlOut_dc : (s.setBlOut d).dc = s.dc := rfl
@[simp] theorem setBlOut_rst : (s.setBlOut d).rst = s.rst := rfl
@[simp] theorem setBlOut_pwmCnt : (s.setBlOut d).pwmCnt = s.pwmCnt := rfl
@[simp] theorem setBlOut_pwmOut : (s.setBlOut d).pwmOut = if Config.pwmUpdatesNow s.freeIx then d else s.pwmOut := rfl
@[simp] theorem setBlOut_mem : (s.setBlOut d).mem = s.mem := rfl
@[simp] theorem setBlOut_trace : (s.setBlOut d).trace = s.trace ++ [.blSet d] := rfl
@[simp] theorem setBlOut_reads : (s.setBlOut d).reads = s.reads := rfl
@[simp] theorem setBlOut_turns : (s.setBlOut d).turns = s.turns := rfl
@[simp] theorem setBlOut_bus : (s.setBlOut d).bus = s.bus := rfl
@[simp] theorem setBlOut_busCount : (s.setBlOut d).busCount = s.busCount := rfl
@[simp] theorem setBlOut_freeIx : (s.setBlOut d).freeIx = s.freeIx + 1 := rfl
@[simp] theorem setBlOut_resetMark : (s.setBlOut d).resetMark = s.resetMark := rfl

end setBlOut

section drawOutcome

variable (s : State)

@[simp] theorem drawOutcome_params : (s.drawOutcome).params = s.params := rfl
@[simp] theorem drawOutcome_regs : (s.drawOutcome).regs = s.regs := rfl
@[simp] theorem drawOutcome_status : (s.drawOutcome).status = s.status := rfl
@[simp] theorem drawOutcome_op : (s.drawOutcome).op = s.op := rfl
@[simp] theorem drawOutcome_stepIx : (s.drawOutcome).stepIx = s.stepIx := rfl
@[simp] theorem drawOutcome_todo : (s.drawOutcome).todo = s.todo := rfl
@[simp] theorem drawOutcome_stalled : (s.drawOutcome).stalled = s.stalled := rfl
@[simp] theorem drawOutcome_latch : (s.drawOutcome).latch = s.latch := rfl
@[simp] theorem drawOutcome_dc : (s.drawOutcome).dc = s.dc := rfl
@[simp] theorem drawOutcome_rst : (s.drawOutcome).rst = s.rst := rfl
@[simp] theorem drawOutcome_pwmCnt : (s.drawOutcome).pwmCnt = s.pwmCnt := rfl
@[simp] theorem drawOutcome_pwmOut : (s.drawOutcome).pwmOut = s.pwmOut := rfl
@[simp] theorem drawOutcome_mem : (s.drawOutcome).mem = s.mem := rfl
@[simp] theorem drawOutcome_trace : (s.drawOutcome).trace = s.trace := rfl
@[simp] theorem drawOutcome_reads : (s.drawOutcome).reads = s.reads := rfl
@[simp] theorem drawOutcome_turns : (s.drawOutcome).turns = s.turns := rfl
@[simp] theorem drawOutcome_bus : (s.drawOutcome).bus = s.bus.tail := rfl
@[simp] theorem drawOutcome_busCount : (s.drawOutcome).busCount = s.busCount + 1 := rfl
@[simp] theorem drawOutcome_freeIx : (s.drawOutcome).freeIx = s.freeIx := rfl
@[simp] theorem drawOutcome_resetMark : (s.drawOutcome).resetMark = s.resetMark := rfl

end drawOutcome

section raiseReject

variable (op : Byte) (s : State)

@[simp] theorem raiseReject_params : (raiseReject op s).params = s.params := rfl
@[simp] theorem raiseReject_regs : (raiseReject op s).regs = s.regs := rfl
@[simp] theorem raiseReject_status : (raiseReject op s).status = s.status.recordReject op := rfl
@[simp] theorem raiseReject_op : (raiseReject op s).op = s.op := rfl
@[simp] theorem raiseReject_stepIx : (raiseReject op s).stepIx = s.stepIx := rfl
@[simp] theorem raiseReject_todo : (raiseReject op s).todo = s.todo := rfl
@[simp] theorem raiseReject_stalled : (raiseReject op s).stalled = s.stalled := rfl
@[simp] theorem raiseReject_latch : (raiseReject op s).latch = s.latch := rfl
@[simp] theorem raiseReject_dc : (raiseReject op s).dc = s.dc := rfl
@[simp] theorem raiseReject_rst : (raiseReject op s).rst = s.rst := rfl
@[simp] theorem raiseReject_pwmCnt : (raiseReject op s).pwmCnt = s.pwmCnt := rfl
@[simp] theorem raiseReject_pwmOut : (raiseReject op s).pwmOut = s.pwmOut := rfl
@[simp] theorem raiseReject_mem : (raiseReject op s).mem = s.mem := rfl
@[simp] theorem raiseReject_trace : (raiseReject op s).trace = s.trace := rfl
@[simp] theorem raiseReject_reads : (raiseReject op s).reads = s.reads := rfl
@[simp] theorem raiseReject_turns : (raiseReject op s).turns = s.turns := rfl
@[simp] theorem raiseReject_bus : (raiseReject op s).bus = s.bus := rfl
@[simp] theorem raiseReject_busCount : (raiseReject op s).busCount = s.busCount := rfl
@[simp] theorem raiseReject_freeIx : (raiseReject op s).freeIx = s.freeIx := rfl
@[simp] theorem raiseReject_resetMark : (raiseReject op s).resetMark = s.resetMark := rfl

end raiseReject

section endOperation

variable (s : State)

@[simp] theorem endOperation_params : (endOperation s).params = s.params := rfl
@[simp] theorem endOperation_regs : (endOperation s).regs = s.regs := rfl
@[simp] theorem endOperation_status : (endOperation s).status = s.status := rfl
@[simp] theorem endOperation_op : (endOperation s).op = none := rfl
@[simp] theorem endOperation_stepIx : (endOperation s).stepIx = s.stepIx := rfl
@[simp] theorem endOperation_todo : (endOperation s).todo = s.todo := rfl
@[simp] theorem endOperation_stalled : (endOperation s).stalled = s.stalled := rfl
@[simp] theorem endOperation_latch : (endOperation s).latch = s.latch := rfl
@[simp] theorem endOperation_dc : (endOperation s).dc = s.dc := rfl
@[simp] theorem endOperation_rst : (endOperation s).rst = s.rst := rfl
@[simp] theorem endOperation_pwmCnt : (endOperation s).pwmCnt = s.pwmCnt := rfl
@[simp] theorem endOperation_pwmOut : (endOperation s).pwmOut = s.pwmOut := rfl
@[simp] theorem endOperation_mem : (endOperation s).mem = s.mem := rfl
@[simp] theorem endOperation_trace : (endOperation s).trace = s.trace := rfl
@[simp] theorem endOperation_reads : (endOperation s).reads = s.reads := rfl
@[simp] theorem endOperation_turns : (endOperation s).turns = s.turns := rfl
@[simp] theorem endOperation_bus : (endOperation s).bus = s.bus := rfl
@[simp] theorem endOperation_busCount : (endOperation s).busCount = s.busCount := rfl
@[simp] theorem endOperation_freeIx : (endOperation s).freeIx = s.freeIx := rfl
@[simp] theorem endOperation_resetMark : (endOperation s).resetMark = s.resetMark := rfl

end endOperation

section blockReset

variable (s : State)

@[simp] theorem blockReset_params : (blockReset s).params = s.params := rfl
@[simp] theorem blockReset_regs : (blockReset s).regs = Regs.reset := rfl
@[simp] theorem blockReset_status : (blockReset s).status = Status.reset := rfl
@[simp] theorem blockReset_op : (blockReset s).op = none := rfl
@[simp] theorem blockReset_stepIx : (blockReset s).stepIx = s.stepIx := rfl
@[simp] theorem blockReset_todo : (blockReset s).todo = [] := rfl
@[simp] theorem blockReset_stalled : (blockReset s).stalled = false := rfl
@[simp] theorem blockReset_latch : (blockReset s).latch = s.latch := rfl
@[simp] theorem blockReset_dc : (blockReset s).dc = .high := rfl
@[simp] theorem blockReset_rst : (blockReset s).rst = .high := rfl
@[simp] theorem blockReset_pwmCnt : (blockReset s).pwmCnt = Config.pwmPhase s.freeIx % s.params.pwmRes := rfl
@[simp] theorem blockReset_pwmOut : (blockReset s).pwmOut = 0 := rfl
@[simp] theorem blockReset_mem : (blockReset s).mem = s.mem := rfl
@[simp] theorem blockReset_trace : (blockReset s).trace = s.trace := rfl
@[simp] theorem blockReset_reads : (blockReset s).reads = s.reads := rfl
@[simp] theorem blockReset_turns : (blockReset s).turns = s.turns := rfl
@[simp] theorem blockReset_bus : (blockReset s).bus = s.bus := rfl
@[simp] theorem blockReset_busCount : (blockReset s).busCount = s.busCount := rfl
@[simp] theorem blockReset_freeIx : (blockReset s).freeIx = s.freeIx + 1 := rfl
@[simp] theorem blockReset_resetMark : (blockReset s).resetMark = s.trace.length := rfl

end blockReset

section errors

variable (e : ErrorKind) (s : State)

@[simp] theorem reportWindow_params : (reportWindow s).params = s.params := by unfold reportWindow; split <;> rfl
@[simp] theorem reportWindow_regs : (reportWindow s).regs = s.regs := by unfold reportWindow; split <;> rfl
@[simp] theorem reportWindow_op : (reportWindow s).op = s.op := by unfold reportWindow; split <;> rfl
@[simp] theorem reportWindow_stepIx : (reportWindow s).stepIx = s.stepIx := by unfold reportWindow; split <;> rfl
@[simp] theorem reportWindow_todo : (reportWindow s).todo = s.todo := by unfold reportWindow; split <;> rfl
@[simp] theorem reportWindow_stalled : (reportWindow s).stalled = s.stalled := by unfold reportWindow; split <;> rfl
@[simp] theorem reportWindow_latch : (reportWindow s).latch = s.latch := by unfold reportWindow; split <;> rfl
@[simp] theorem reportWindow_dc : (reportWindow s).dc = s.dc := by unfold reportWindow; split <;> rfl
@[simp] theorem reportWindow_rst : (reportWindow s).rst = s.rst := by unfold reportWindow; split <;> rfl
@[simp] theorem reportWindow_pwmCnt : (reportWindow s).pwmCnt = s.pwmCnt := by unfold reportWindow; split <;> rfl
@[simp] theorem reportWindow_pwmOut : (reportWindow s).pwmOut = s.pwmOut := by unfold reportWindow; split <;> rfl
@[simp] theorem reportWindow_mem : (reportWindow s).mem = s.mem := by unfold reportWindow; split <;> rfl
@[simp] theorem reportWindow_trace : (reportWindow s).trace = s.trace := by unfold reportWindow; split <;> rfl
@[simp] theorem reportWindow_reads : (reportWindow s).reads = s.reads := by unfold reportWindow; split <;> rfl
@[simp] theorem reportWindow_turns : (reportWindow s).turns = s.turns := by unfold reportWindow; split <;> rfl
@[simp] theorem reportWindow_bus : (reportWindow s).bus = s.bus := by unfold reportWindow; split <;> rfl
@[simp] theorem reportWindow_busCount : (reportWindow s).busCount = s.busCount := by unfold reportWindow; split <;> rfl
@[simp] theorem reportWindow_freeIx : (reportWindow s).freeIx = s.freeIx := by unfold reportWindow; split <;> rfl
@[simp] theorem reportWindow_resetMark : (reportWindow s).resetMark = s.resetMark := by unfold reportWindow; split <;> rfl
@[simp] theorem raiseError_params : (raiseError e s).params = s.params := by unfold raiseError; split <;> rfl
@[simp] theorem raiseError_regs : (raiseError e s).regs = s.regs := by unfold raiseError; split <;> rfl
@[simp] theorem raiseError_stepIx : (raiseError e s).stepIx = s.stepIx := by unfold raiseError; split <;> rfl
@[simp] theorem raiseError_stalled : (raiseError e s).stalled = s.stalled := by unfold raiseError; split <;> rfl
@[simp] theorem raiseError_latch : (raiseError e s).latch = s.latch := by unfold raiseError; split <;> rfl
@[simp] theorem raiseError_dc : (raiseError e s).dc = s.dc := by unfold raiseError; split <;> rfl
@[simp] theorem raiseError_rst : (raiseError e s).rst = s.rst := by unfold raiseError; split <;> rfl
@[simp] theorem raiseError_pwmCnt : (raiseError e s).pwmCnt = s.pwmCnt := by unfold raiseError; split <;> rfl
@[simp] theorem raiseError_pwmOut : (raiseError e s).pwmOut = s.pwmOut := by unfold raiseError; split <;> rfl
@[simp] theorem raiseError_mem : (raiseError e s).mem = s.mem := by unfold raiseError; split <;> rfl
@[simp] theorem raiseError_trace : (raiseError e s).trace = s.trace := by unfold raiseError; split <;> rfl
@[simp] theorem raiseError_reads : (raiseError e s).reads = s.reads := by unfold raiseError; split <;> rfl
@[simp] theorem raiseError_turns : (raiseError e s).turns = s.turns := by unfold raiseError; split <;> rfl
@[simp] theorem raiseError_bus : (raiseError e s).bus = s.bus := by unfold raiseError; split <;> rfl
@[simp] theorem raiseError_busCount : (raiseError e s).busCount = s.busCount := by unfold raiseError; split <;> rfl
@[simp] theorem raiseError_freeIx : (raiseError e s).freeIx = s.freeIx := by unfold raiseError; split <;> rfl
@[simp] theorem raiseError_resetMark : (raiseError e s).resetMark = s.resetMark := by unfold raiseError; split <;> rfl

/-- The whole of what raising an error does while an operation runs (60_exceptions.md R245). -/
theorem raiseError_running {o : Operation} (h : s.op = some o) :
    raiseError e s = { s with
      status := if abortClearsInitDone e o then { s.status.recordError e o.code with initDone := false }
        else s.status.recordError e o.code
      op := none
      todo := [] } := by
  simp [raiseError, h]

@[simp] theorem raiseError_op : (raiseError e s).op = none := by
  unfold raiseError
  split <;> simp_all

/-- The whole of what a window warning does while an operation runs (R247). -/
theorem reportWindow_running {o : Operation} (h : s.op = some o) :
    reportWindow s = { s with status := s.status.recordWinWarn o.code } := by
  simp [reportWindow, h]

end errors

end Sys2Proof.Machine
end

