-- ==== Sys2Proof/Laws/Transport.lean ====
section
/-! SUPPORT. Chunking (40_transport.md R132) and the frames. -/

namespace Sys2Proof.Machine

variable {α β : Type}

@[simp] theorem piecesOf_nil (m fuel : Nat) : piecesOf m fuel ([] : List α) = [] := by
  cases fuel <;> rfl

theorem piecesOf_flatten {m : Nat} (hm : 1 ≤ m) :
    ∀ {fuel : Nat} {bs : List α}, bs.length ≤ fuel → (piecesOf m fuel bs).flatten = bs
  | 0, [], _ => rfl
  | _ + 1, [], _ => rfl
  | fuel + 1, x :: xs, h => by
    have hlen : ((x :: xs).drop m).length ≤ fuel := by
      simp only [List.length_drop, List.length_cons] at h ⊢
      omega
    simp only [piecesOf, List.flatten_cons, piecesOf_flatten hm hlen, List.take_append_drop]

/-- Where more than one piece's worth is left, the first piece is full and the rest follows. -/
theorem piecesOf_nonempty_pieces {m : Nat} (hm : 1 ≤ m) :
    ∀ {fuel : Nat} {bs : List α}, ∀ c ∈ piecesOf m fuel bs, c ≠ []
  | 0, _, _, h => by simp [piecesOf] at h
  | _ + 1, [], _, h => by simp at h
  | fuel + 1, x :: xs, c, h => by
    simp only [piecesOf, List.mem_cons] at h
    rcases h with rfl | h
    · cases m with
      | zero => omega
      | succ m => simp
    · exact piecesOf_nonempty_pieces hm c h

theorem piecesOf_map (f : α → β) (m : Nat) :
    ∀ (fuel : Nat) (bs : List α), piecesOf m fuel (bs.map f) = (piecesOf m fuel bs).map (List.map f)
  | 0, _ => rfl
  | _ + 1, [] => rfl
  | fuel + 1, x :: xs => by
    have := piecesOf_map f m fuel ((x :: xs).drop m)
    simp only [List.map_drop, List.map_cons] at this
    simp only [List.map_cons, piecesOf, this, List.map_take]

/-- Chunking does not look at the bytes. -/
theorem chunks_map (p : Params) (f : α → β) (bs : List α) :
    chunks p (bs.map f) = (chunks p bs).map (List.map f) := by
  unfold chunks
  cases p.maxXfer with
  | none => cases bs <;> rfl
  | some m => simp only [List.length_map, piecesOf_map]

@[simp] theorem chunks_nil (p : Params) : chunks p ([] : List α) = [] := by
  unfold chunks
  cases p.maxXfer <;> rfl

@[simp] theorem dataEvents_nil (p : Params) : dataEvents p [] = [] := by simp [dataEvents]

@[simp] theorem litFrame_nil (p : Params) : litFrame p [] = [] := by simp [litFrame, dataFrame]

end Sys2Proof.Machine
end

