-- ==== Sys2Proof/Laws/Sequencer.lean ====
section
/-! SUPPORT. What the sequencer does: one inversion lemma for its step, and what a whole program does
where every transfer completes. -/

namespace Sys2Proof.Machine

/-! ### One step -/

theorem seqStep_idle {s : State} (h : s.op = none) : seqStep s = s := by
  simp [seqStep, h]

theorem seqStep_stalled {s : State} (h : s.stalled = true) : seqStep s = s := by
  unfold seqStep
  split <;> simp_all

theorem seqStep_end {s : State} (h : s.op ≠ none) (hs : s.stalled = false) (ht : s.todo = []) :
    seqStep s = endOperation s := by
  unfold seqStep
  split <;> simp_all

theorem seqStep_perform {s : State} {m : Micro} {ms : List Micro} (h : s.op ≠ none)
    (hs : s.stalled = false) (ht : s.todo = m :: ms) :
    seqStep s = perform m { s with todo := ms, stepIx := s.stepIx + 1 } := by
  unfold seqStep
  split <;> simp_all

/-- Everything one step of the sequencer can do. -/
theorem seqStep_cases (s : State) :
    (seqStep s = s ∧ (s.op = none ∨ s.stalled = true)) ∨
    (s.op ≠ none ∧ s.stalled = false ∧ s.todo = [] ∧ seqStep s = endOperation s) ∨
    (s.op ≠ none ∧ s.stalled = false ∧ ∃ m ms, s.todo = m :: ms ∧
      seqStep s = perform m { s with todo := ms, stepIx := s.stepIx + 1 }) := by
  by_cases h : s.op = none
  · exact .inl ⟨seqStep_idle h, .inl h⟩
  by_cases hs : s.stalled = true
  · exact .inl ⟨seqStep_stalled hs, .inr hs⟩
  have hs' : s.stalled = false := by simpa using hs
  cases ht : s.todo with
  | nil => exact .inr (.inl ⟨h, hs', rfl, seqStep_end h hs' ht⟩)
  | cons m ms => exact .inr (.inr ⟨h, hs', m, ms, rfl, seqStep_perform h hs' ht⟩)

/-- Everything a transfer can do. -/
theorem transfer_cases (bs : List Byte) (onFail : State → State) (s : State) :
    (s.outcomeAt 0 = .ok ∧ transfer bs onFail s = s.drawOutcome.emit (.xfer bs)) ∨
    (s.outcomeAt 0 = .fail ∧ transfer bs onFail s = onFail (s.drawOutcome.emit (.xferFail bs))) ∨
    (s.outcomeAt 0 = .stall ∧ transfer bs onFail s = { s.drawOutcome with stalled := true }) := by
  unfold transfer
  cases h : s.outcomeAt 0 <;> simp

/-! ### Several steps -/

@[simp] theorem seqRun_zero (s : State) : seqRun 0 s = s := rfl

theorem seqRun_succ (n : Nat) (s : State) : seqRun (n + 1) s = seqRun n (seqStep s) := rfl

theorem seqRun_add (a b : Nat) (s : State) : seqRun (a + b) s = seqRun b (seqRun a s) := by
  induction a generalizing s with
  | zero => simp
  | succ a ih => rw [Nat.succ_add, seqRun_succ, seqRun_succ, ih]

theorem seqRun_fixed {s : State} (h : seqStep s = s) (n : Nat) : seqRun n s = s := by
  induction n with
  | zero => rfl
  | succ n ih => rw [seqRun_succ, h, ih]

theorem seqRun_idle {s : State} (h : s.op = none) (n : Nat) : seqRun n s = s :=
  seqRun_fixed (seqStep_idle h) n

/-! ### Bus outcomes -/

@[simp] theorem drawOutcome_outcomeAt (s : State) (k : Nat) :
    s.drawOutcome.outcomeAt k = s.outcomeAt (k + 1) := by
  simp [State.outcomeAt, Nat.add_assoc, Nat.add_comm 1 k]

/-- The outcomes depend on the bus input and the transfer count alone. -/
theorem outcomeAt_congr {s t : State} (hb : t.bus = s.bus) (hc : t.busCount = s.busCount) (k : Nat) :
    t.outcomeAt k = s.outcomeAt k := by
  simp [State.outcomeAt, hb, hc]

/-! ### A program whose transfers all complete -/

/-- The micro-step does not abort of itself. -/
def Micro.goesOn : Micro → Bool
  | .raise _ => false
  | _ => true

/-- The effect of a micro-step whose transfer, if it is one, completes. -/
def okStep (m : Micro) (s : State) : State :=
  match m with
  | .cmdTransfer b => s.drawOutcome.emit (.xfer [b])
  | .dataTransfer c => s.drawOutcome.emit (.xfer (c.map OutByte.value))
  | m => perform m s

/-- The effect of a program whose transfers all complete. -/
def okFold (ms : List Micro) (s : State) : State := ms.foldl (fun s m => okStep m s) s

@[simp] theorem okFold_nil (s : State) : okFold [] s = s := rfl

@[simp] theorem okFold_cons (m : Micro) (ms : List Micro) (s : State) :
    okFold (m :: ms) s = okFold ms (okStep m s) := rfl

@[simp] theorem okFold_append (a b : List Micro) (s : State) :
    okFold (a ++ b) s = okFold b (okFold a s) := by
  simp [okFold]

theorem perform_ok {m : Micro} {s : State} (h : m.isTransfer = true → s.outcomeAt 0 = .ok) :
    perform m s = okStep m s := by
  cases m <;> simp_all [perform, okStep, transfer, Micro.isTransfer]

theorem okStep_op {m : Micro} (h : m.goesOn = true) (s : State) : (okStep m s).op = s.op := by
  cases m <;> simp_all [okStep, perform, Micro.goesOn]

theorem okStep_stalled {m : Micro} (h : m.goesOn = true) (s : State) :
    (okStep m s).stalled = s.stalled := by
  cases m <;> simp_all [okStep, perform, Micro.goesOn]

theorem okStep_outcomeAt {m : Micro} (h : m.goesOn = true) (s : State) (k : Nat) :
    (okStep m s).outcomeAt k = s.outcomeAt (k + if m.isTransfer then 1 else 0) := by
  cases m <;> simp_all [okStep, perform, Micro.goesOn, Micro.isTransfer, State.outcomeAt,
    Nat.add_assoc, Nat.add_comm 1 k]

theorem okStep_program {m : Micro} (h : m.goesOn = true) (s : State) (ms : List Micro) (n : Nat) :
    okStep m { s with todo := ms, stepIx := n } = { okStep m s with todo := ms, stepIx := n } := by
  cases m with
  | raise e => simp [Micro.goesOn] at h
  | winWarn =>
    obtain ⟨_, _, _, op, _⟩ := s
    cases op <;> rfl
  | _ => rfl

theorem okFold_program {ms : List Micro} (h : ∀ m ∈ ms, m.goesOn = true) (s : State)
    (t : List Micro) (n : Nat) :
    okFold ms { s with todo := t, stepIx := n } = { okFold ms s with todo := t, stepIx := n } := by
  induction ms generalizing s with
  | nil => rfl
  | cons m ms ih =>
    simp only [okFold_cons]
    rw [okStep_program (h m (by simp)), ih (fun m hm => h m (by simp [hm]))]

@[simp] theorem transfersIn_nil : transfersIn [] = 0 := rfl

theorem transfersIn_cons (m : Micro) (ms : List Micro) :
    transfersIn (m :: ms) = transfersIn ms + if m.isTransfer then 1 else 0 := by
  simp [transfersIn, List.countP_cons]

theorem transfersIn_append (a b : List Micro) :
    transfersIn (a ++ b) = transfersIn a + transfersIn b := by
  simp [transfersIn]

/-- A running operation whose transfers all complete performs its whole program. -/
theorem seqRun_program {ms : List Micro} {s : State} (hop : s.op ≠ none) (hst : s.stalled = false)
    (ht : s.todo = ms) (hgo : ∀ m ∈ ms, m.goesOn = true) (hok : s.BusOk (transfersIn ms)) :
    seqRun ms.length s = { okFold ms s with todo := [], stepIx := s.stepIx + ms.length } := by
  induction ms generalizing s with
  | nil =>
    cases s
    simp_all
  | cons m ms ih =>
    have hm : m.goesOn = true := hgo m (by simp)
    have hms : ∀ m ∈ ms, m.goesOn = true := fun m h => hgo m (by simp [h])
    rw [List.length_cons, seqRun_succ, seqStep_perform hop hst ht, perform_ok, okStep_program hm]
    · rw [ih]
      · simp only [okFold_cons]
        rw [okFold_program hms]
        simp [Nat.add_assoc, Nat.add_comm 1]
      · simpa [okStep_op hm] using hop
      · simpa [okStep_stalled hm] using hst
      · rfl
      · exact hms
      · intro k hk
        have h1 := okStep_outcomeAt hm s k
        refine (outcomeAt_congr (s := okStep m s) rfl rfl k).trans (h1.trans ?_)
        apply hok
        rw [transfersIn_cons]
        omega
    · intro htr
      refine (outcomeAt_congr (s := s) rfl rfl 0).trans ?_
      apply hok
      rw [transfersIn_cons, htr]
      simp

/-- A running operation whose transfers all complete has ended after its last micro-step and one step
more. -/
theorem finish_program {s : State} (hop : s.op ≠ none) (hst : s.stalled = false)
    (hgo : ∀ m ∈ s.todo, m.goesOn = true) (hok : s.BusOk (transfersIn s.todo)) :
    s.finish = { okFold s.todo s with
      todo := [], stepIx := s.stepIx + s.todo.length, op := none } := by
  have hop' : (okFold s.todo s).op ≠ none ∧ (okFold s.todo s).stalled = false := by
    have : ∀ (ms : List Micro) (t : State), (∀ m ∈ ms, m.goesOn = true) → t.op ≠ none →
        t.stalled = false → (okFold ms t).op ≠ none ∧ (okFold ms t).stalled = false := by
      intro ms
      induction ms with
      | nil => intro t _ h1 h2; exact ⟨h1, h2⟩
      | cons m ms ih =>
        intro t h h1 h2
        have hm := h m (by simp)
        exact ih _ (fun m hm => h m (by simp [hm])) (by rw [okStep_op hm]; exact h1)
          (by rw [okStep_stalled hm]; exact h2)
    exact this _ s hgo hop hst
  unfold State.finish
  rw [seqRun_add, seqRun_program hop hst rfl hgo hok, seqRun_succ, seqRun_zero,
    seqStep_end (by exact hop'.1) (by exact hop'.2) rfl]
  rfl

/-! ### The frames -/

/-- A command frame that completes. -/
theorem okFold_cmdFrame (b : Byte) (s : State) :
    okFold (cmdFrame b) s = { s with
      dc := .high, bus := s.bus.tail, busCount := s.busCount + 1,
      trace := s.trace ++ cmdEvents b } := by
  simp [cmdFrame, okFold, okStep, perform, State.driveDc, State.drawOutcome, State.emit, cmdEvents]

theorem okFold_dataTransfers (cs : List (List OutByte)) (s : State) :
    okFold (cs.map .dataTransfer) s = { s with
      bus := s.bus.drop cs.length, busCount := s.busCount + cs.length,
      trace := s.trace ++ cs.map (fun c => .xfer (c.map OutByte.value)) } := by
  induction cs generalizing s with
  | nil => simp
  | cons c cs ih =>
    simp only [List.map_cons, okFold_cons, ih]
    simp [okStep, State.drawOutcome, State.emit, Nat.add_assoc, Nat.add_comm 1]

/-- A data frame that completes. -/
theorem okFold_dataFrame (p : Params) (bs : List OutByte) (s : State) :
    okFold (dataFrame p bs) s = { s with
      bus := s.bus.drop (chunks p bs).length, busCount := s.busCount + (chunks p bs).length,
      trace := s.trace ++ dataEvents p (bs.map OutByte.value) } := by
  rw [dataFrame, okFold_dataTransfers, dataEvents, chunks_map]
  simp

theorem okFold_litFrame (p : Params) (bs : List Byte) (s : State) :
    okFold (litFrame p bs) s = { s with
      bus := s.bus.drop (chunks p bs).length, busCount := s.busCount + (chunks p bs).length,
      trace := s.trace ++ dataEvents p bs } := by
  rw [litFrame, okFold_dataFrame, chunks_map]
  simp [Function.comp_def, OutByte.value]

theorem dataFrame_goesOn (p : Params) (bs : List OutByte) :
    ∀ m ∈ dataFrame p bs, m.goesOn = true := by
  intro m h
  simp only [dataFrame, List.mem_map] at h
  obtain ⟨c, -, rfl⟩ := h
  rfl

theorem cmdFrame_goesOn (b : Byte) : ∀ m ∈ cmdFrame b, m.goesOn = true := by
  intro m h
  simp only [cmdFrame, List.mem_cons, List.not_mem_nil, or_false] at h
  rcases h with rfl | rfl | rfl <;> rfl

@[simp] theorem transfersIn_cmdFrame (b : Byte) : transfersIn (cmdFrame b) = 1 := rfl

@[simp] theorem transfersIn_dataFrame (p : Params) (bs : List OutByte) :
    transfersIn (dataFrame p bs) = (chunks p bs).length := by
  simp only [transfersIn, dataFrame, List.countP_map]
  rw [List.countP_eq_length.2]
  simp [Micro.isTransfer]

end Sys2Proof.Machine
end

