-- ==== Sys2Proof/Laws/Step.lean ====
section
/-! SUPPORT. What a CTRL write and a step of the machine can do: one inversion lemma for each. -/

namespace Sys2Proof.Machine

/-! ### Instructions -/

/-- The operation an instruction starts; none for NOP. -/
def operationOf : Instr → Option Operation
  | .nop => none
  | .init _ _ => some .init
  | .writeCmd _ _ => some .writeCmd
  | .writeData _ _ => some .writeData
  | .setWindow _ _ => some .setWindow
  | .render _ _ => some .render
  | .renderRaw _ _ => some .renderRaw
  | .clear _ _ => some .clear
  | .clearWindow _ _ => some .clearWindow
  | .setBrightness _ _ => some .setBrightness
  | .shutdown _ _ => some .shutdown

/-- The program an operation that starts in `s` gets from its latch. -/
def programOf (s : State) : Operation → Latch → List Micro
  | .init => initProgram s.params
  | .writeCmd => writeCmdProgram
  | .writeData => writeDataProgram s.params s.mem
  | .setWindow => setWindowProgram s.params
  | .render => renderProgram s.params s.mem
  | .renderRaw => renderRawProgram s.params s.mem
  | .clear => clearProgram s.params
  | .clearWindow => fun _ => clearWindowProgram s.params s.regs.lastW s.regs.lastH
  | .setBrightness => setBrightnessProgram
  | .shutdown => shutdownProgram s.params

/-- The state in which an idle block has started an operation. -/
theorem startOperation_idle {s : State} (h : s.op = none) (o : Operation) (x y : Bool)
    (program : Latch → List Micro) :
    startOperation o x y program s = { s with
      latch := s.latchNow x y, op := some o, stepIx := 0
      todo := program (s.latchNow x y), stalled := false } := by
  simp [startOperation, h]

/-- A running operation makes the start of another one a rejection. -/
theorem startOperation_busy {s : State} (h : s.op ≠ none) (o : Operation) (x y : Bool)
    (program : Latch → List Micro) : startOperation o x y program s = raiseReject o.code s := by
  cases hs : s.op with
  | none => exact absurd hs h
  | some o' => simp [startOperation, hs]

/-- Every instruction but NOP is one shared start, with the operation's own program. -/
theorem exec_start {i : Instr} {o : Operation} (h : operationOf i = some o) (s : State) :
    exec i s = .next (startOperation o i.omits.1 i.omits.2 (programOf s o) s) ∧
      o.code = i.opcode := by
  cases i <;> simp only [operationOf, reduceCtorEq, Option.some.injEq] at h <;> subst h <;>
    exact ⟨rfl, rfl⟩

theorem operationOf_isSome {i : Instr} (h : i ≠ .nop) : ∃ o, operationOf i = some o := by
  cases i <;> first | exact absurd rfl h | exact ⟨_, rfl⟩

/-- Exec answers a next state for every instruction in every state. -/
theorem exec_next (i : Instr) (s : State) : ∃ t, exec i s = .next t := by
  cases i <;> exact ⟨_, rfl⟩

/-! ### CTRL writes -/

theorem decode_zero {v : Word} (h : ctrlOp v = 0) : decode v = .instr .nop := by
  unfold decode
  rw [h]
  rfl

theorem decode_reserved {v : Word} (h : 0x0B ≤ (ctrlOp v).toNat) :
    decode v = .reservedOp (ctrlOp v) := by
  unfold decode
  simp only
  split <;> first | rfl | (exfalso; omega)

/-- A decoded word carries its instruction's operation code and, but for NOP, its omission bits. -/
theorem decode_sound {w : Word} {i : Instr} (h : decode w = .instr i) :
    i.opcode = ctrlOp w ∧ (i ≠ .nop → i.omits = (ctrlOmitX1 w, ctrlOmitY1 w)) := by
  unfold decode at h
  simp only at h
  split at h <;> cases h <;>
    (rename_i hop
     exact ⟨BitVec.eq_of_toNat_eq (by simpa [Instr.opcode] using hop.symm), fun _ => by
       first | rfl | contradiction⟩)

/-- A word with a defined OP decodes to an instruction. -/
theorem decode_defined {v : Word} (h : (ctrlOp v).toNat < 0x0B) : ∃ i, decode v = .instr i := by
  unfold decode
  simp only
  generalize (ctrlOp v).toNat = n at h
  interval_cases n <;> exact ⟨_, rfl⟩

/-- Everything a CTRL write can do: nothing, a rejection, or the start of an operation. -/
theorem writeCtrl_cases (v : Word) (s : State) :
    (ctrlOp v = 0 ∧ writeCtrl v s = .next s) ∨
    (ctrlOp v ≠ 0 ∧ (s.op ≠ none ∨ 0x0B ≤ (ctrlOp v).toNat) ∧
      writeCtrl v s = .next (raiseReject (ctrlOp v) s)) ∨
    (s.op = none ∧ ∃ o : Operation, o.code = ctrlOp v ∧
      writeCtrl v s = .next (startOperation o (ctrlOmitX1 v) (ctrlOmitY1 v) (programOf s o) s)) := by
  by_cases h0 : ctrlOp v = 0
  · exact .inl ⟨h0, by rw [writeCtrl, decode_zero h0]; rfl⟩
  by_cases hr : 0x0B ≤ (ctrlOp v).toNat
  · exact .inr (.inl ⟨h0, .inr hr, by rw [writeCtrl, decode_reserved hr]⟩)
  obtain ⟨i, hi⟩ := decode_defined (v := v) (by omega)
  obtain ⟨hop, hom⟩ := decode_sound hi
  have hn : i ≠ .nop := by rintro rfl; exact h0 hop.symm
  obtain ⟨o, ho⟩ := operationOf_isSome hn
  obtain ⟨he, hc⟩ := exec_start ho s
  have hw : writeCtrl v s =
      .next (startOperation o (ctrlOmitX1 v) (ctrlOmitY1 v) (programOf s o) s) := by
    rw [writeCtrl, hi]
    simp only
    rw [he, hom hn]
  by_cases hs : s.op = none
  · exact .inr (.inr ⟨hs, o, hc.trans hop, hw⟩)
  · exact .inr (.inl ⟨h0, .inl hs, by rw [hw, startOperation_busy hs, hc, hop]⟩)

/-! ### A step -/

/-- What a turn that is taken from `s` (its own turns those after it) and answers `t` has done. -/
inductive TurnEffect (s t : State) : Turn → Prop
  | read (off : BitVec 8) : off.toNat % 4 = 0 →
      t = { s with reads := s.reads ++ [readRegister s off] } →
      TurnEffect s t (.host (.read off .w32))
  | ctrl (v : Word) : writeCtrl v s = .next t → TurnEffect s t (.host (.write 0 .w32 v))
  | write (off : BitVec 8) (v : Word) : off ≠ 0 → off.toNat % 4 = 0 →
      t = writeRegister off v s → TurnEffect s t (.host (.write off .w32 v))
  | store (a : Word) (v : Byte) : t = hostStore a v s → TurnEffect s t (.host (.store a v))
  | waitIdle : t = pollIdle s → TurnEffect s t .waitIdle
  | sequencer : t = seqStep s → TurnEffect s t .sequencer
  | pwmTick : t = Machine.pwmTick s → TurnEffect s t .pwmTick
  | blockReset : t = Machine.blockReset s → TurnEffect s t .blockReset

theorem takeTurn_effect {tn : Turn} {s t : State} (h : takeTurn tn s = .next t) :
    TurnEffect s t tn := by
  cases tn with
  | host a =>
    cases a with
    | read off w =>
      simp only [takeTurn, hostAccess] at h
      split at h
      · rename_i hl
        cases h
        cases w <;> simp [accessLegal] at hl
        exact .read off hl rfl
      · cases h
    | write off w v =>
      simp only [takeTurn, hostAccess] at h
      split at h
      · rename_i hl
        cases w <;> simp [accessLegal] at hl
        split at h
        · rename_i h0
          subst h0
          exact .ctrl v h
        · rename_i h0
          cases h
          exact .write off v h0 hl rfl
      · cases h
    | store a v => cases h; exact .store a v rfl
  | waitIdle => cases h; exact .waitIdle rfl
  | sequencer => cases h; exact .sequencer rfl
  | pwmTick => cases h; exact .pwmTick rfl
  | blockReset => cases h; exact .blockReset rfl

/-- Everything one step of the machine can do. -/
theorem step_cases {s t : State} (h : step s = .next t) :
    (s.turns = [] ∧ t = seqStep s) ∨
      ∃ tn ts, s.turns = tn :: ts ∧ TurnEffect { s with turns := ts } t tn := by
  unfold step at h
  split at h
  · rename_i ht
    cases h
    exact .inl ⟨ht, rfl⟩
  · rename_i tn ts ht
    exact .inr ⟨tn, ts, ht, takeTurn_effect h⟩

/-- A run of the machine takes its first step first. -/
theorem core_run_next {s t : State} (h : step s = .next t) (n : Nat) :
    Host.Core.run Sys2Proof.core (n + 1) s = Host.Core.run Sys2Proof.core n t := by
  have h' : Sys2Proof.core.step s = .next t := h
  simp only [Host.Core.run, h']

/-- Everything a register write other than to CTRL can do. -/
theorem writeRegister_cases (off : BitVec 8) (v : Word) (s : State) :
    writeRegister off v s = s ∨
    (off = 0x04 ∧ writeRegister off v s = { s with status := s.status.writeOneToClear v }) ∨
    (∃ a b c d, writeRegister off v s =
      { s with regs := { s.regs with arg0 := a, arg1 := b, addr := c, len := d } }) ∨
    (off ∈ [0x18#8, 0x1C#8, 0x20#8, 0x24#8, 0x28#8, 0x2C#8] ∧ s.cfgWritable = true ∧
      ∃ c : CfgRegs, (c.mode = s.regs.cfg.mode ∨ c.mode = v &&& cfgModeWritable) ∧
        writeRegister off v s = { s with regs := { s.regs with cfg := c } }) := by
  have hoff : ∀ n, off.toNat = n → n < 256 → off = BitVec.ofNat 8 n := fun n h hn =>
    BitVec.eq_of_toNat_eq (by rw [h, BitVec.toNat_ofNat, Nat.mod_eq_of_lt hn])
  have hcfg : ∀ f : CfgRegs → CfgRegs, writeCfg f s = s ∨ (s.cfgWritable = true ∧
      writeCfg f s = { s with regs := { s.regs with cfg := f s.regs.cfg } }) := by
    intro f
    unfold writeCfg
    split
    · exact .inr ⟨‹_›, rfl⟩
    · exact .inl rfl
  unfold writeRegister
  split
  · exact .inr (.inl ⟨hoff 4 ‹_› (by decide), rfl⟩)
  · exact .inr (.inr (.inl ⟨v, s.regs.arg1, s.regs.addr, s.regs.len, rfl⟩))
  · exact .inr (.inr (.inl ⟨s.regs.arg0, v, s.regs.addr, s.regs.len, rfl⟩))
  · exact .inr (.inr (.inl ⟨s.regs.arg0, s.regs.arg1, v, s.regs.len, rfl⟩))
  · exact .inr (.inr (.inl ⟨s.regs.arg0, s.regs.arg1, s.regs.addr, v, rfl⟩))
  all_goals first
    | exact .inl rfl
    | (rename_i hn
       refine (hcfg _).imp id fun h => .inr (.inr ⟨?_, h.1, _, ?_, h.2⟩)
       · rw [hoff _ hn (by omega)]; decide
       · first | exact .inl rfl | exact .inr rfl)

end Sys2Proof.Machine
end

