-- ==== Sys2Proof/Laws/Programs.lean ====
section
/-! SUPPORT. The shared event programs (42_window.md, 41_init_sequencer.md): how many transfers each
performs, what it leaves where every transfer completes, and the line discipline of every program. -/

namespace Sys2Proof.Machine

variable (p : Params) (c : CfgRegs) (x0 y0 x1 y1 : Half)

/-- The address of a payload byte (20_memory.md R64). -/
theorem payloadAddress_toNat (a : Word) (i : Nat) :
    (payloadAddress a i).toNat = (a.toNat + i) % 2 ^ 32 := by
  simp [payloadAddress]

/-! ### Counts of transfers -/

theorem countP_dataEvents (bs : List Byte) :
    (dataEvents p bs).countP Event.isXfer = (chunks p bs).length := by
  rw [dataEvents, List.countP_map, List.countP_eq_length.2]
  intro a _
  rfl

@[simp] theorem countP_cmdEvents (b : Byte) : (cmdEvents b).countP Event.isXfer = 1 := rfl

@[simp] theorem countP_waitEvents (n : Nat) : (waitEvents n).countP Event.isXfer = 0 := by
  unfold waitEvents
  split <;> rfl

theorem transfersIn_litFrame (bs : List Byte) :
    transfersIn (litFrame p bs) = (dataEvents p bs).countP Event.isXfer := by
  rw [litFrame, transfersIn_dataFrame, chunks_map, List.length_map, countP_dataEvents]

theorem transfersIn_zeroFrame (n : Nat) :
    transfersIn (zeroFrame p n) = (dataEvents p (List.replicate n 0)).countP Event.isXfer := by
  rw [countP_dataEvents, zeroFrame, transfersIn_dataFrame,
    show List.replicate n (OutByte.lit 0) = (List.replicate n (0 : Byte)).map OutByte.lit by simp,
    chunks_map, List.length_map]

theorem transfersIn_waitIfPositive (n : Nat) : transfersIn (waitIfPositive n) = 0 := by
  unfold waitIfPositive
  split <;> rfl

theorem transfersIn_addressingFrames :
    transfersIn (addressingFrames p c x0 y0 x1 y1) =
      (windowEvents p c x0 y0 x1 y1).countP Event.isXfer := by
  simp only [addressingFrames, windowEvents, addressingEvents, transfersIn_append,
    List.countP_append, transfersIn_cmdFrame, countP_cmdEvents, transfersIn_litFrame, addressBytes]
  omega

theorem transfersIn_setWindowCore :
    transfersIn (setWindowCore p c x0 y0 x1 y1) =
      (windowEvents p c x0 y0 x1 y1).countP Event.isXfer := by
  rw [← transfersIn_addressingFrames, setWindowCore, transfersIn_cons, transfersIn_append]
  split <;> simp [Micro.isTransfer, transfersIn]

theorem transfersIn_fullClear :
    transfersIn (fullClear p c) = (clearEvents p c).countP Event.isXfer := by
  rw [fullClear, clearEvents, transfersIn_append, List.countP_append, transfersIn_setWindowCore,
    transfersIn_zeroFrame]

/-! ### No program but a failing check aborts of itself -/

theorem goesOn_append {a b : List Micro} (ha : ∀ m ∈ a, m.goesOn = true)
    (hb : ∀ m ∈ b, m.goesOn = true) : ∀ m ∈ a ++ b, m.goesOn = true := by
  intro m hm
  rcases List.mem_append.1 hm with h | h
  · exact ha m h
  · exact hb m h

theorem waitIfPositive_goesOn (n : Nat) : ∀ m ∈ waitIfPositive n, m.goesOn = true := by
  unfold waitIfPositive
  split <;> simp [Micro.goesOn]

theorem setWindowCore_goesOn : ∀ m ∈ setWindowCore p c x0 y0 x1 y1, m.goesOn = true := by
  have ha : ∀ m ∈ addressingFrames p c x0 y0 x1 y1, m.goesOn = true :=
    goesOn_append (goesOn_append
      (goesOn_append (cmdFrame_goesOn _) (dataFrame_goesOn _ _))
      (goesOn_append (cmdFrame_goesOn _) (dataFrame_goesOn _ _))) (cmdFrame_goesOn _)
  intro m hm
  rcases List.mem_cons.1 hm with rfl | hm
  · rfl
  · refine goesOn_append ?_ ha m hm
    split <;> simp [Micro.goesOn]

theorem fullClear_goesOn : ∀ m ∈ fullClear p c, m.goesOn = true :=
  goesOn_append (setWindowCore_goesOn p c _ _ _ _) (dataFrame_goesOn _ _)

/-! ### What each leaves where every transfer completes -/

/-- The bus outcomes a program uses up. -/
theorem okFold_bus {ms : List Micro} (h : ∀ m ∈ ms, m.goesOn = true) (s : State) :
    (okFold ms s).bus = s.bus.drop (transfersIn ms) ∧
      (okFold ms s).busCount = s.busCount + transfersIn ms := by
  induction ms generalizing s with
  | nil => simp
  | cons m ms ih =>
    have hm := h m (by simp)
    obtain ⟨h1, h2⟩ := ih (fun m hm => h m (by simp [hm])) (okStep m s)
    have h3 : (okStep m s).bus = s.bus.drop (if m.isTransfer then 1 else 0) ∧
        (okStep m s).busCount = s.busCount + (if m.isTransfer then 1 else 0) := by
      cases m <;> simp_all [okStep, perform, Micro.goesOn, Micro.isTransfer]
    rw [okFold_cons, h1, h2, transfersIn_cons, h3.1, h3.2, List.drop_drop]
    exact ⟨by congr 1; omega, by omega⟩

theorem okFold_waitIfPositive (n : Nat) (s : State) :
    okFold (waitIfPositive n) s = { s with trace := s.trace ++ waitEvents n } := by
  unfold waitIfPositive waitEvents
  split <;> simp [okStep, perform, State.emit]

theorem okFold_zeroFrame (n : Nat) (s : State) :
    okFold (zeroFrame p n) s = { s with
      bus := s.bus.drop ((dataEvents p (List.replicate n 0)).countP Event.isXfer)
      busCount := s.busCount + (dataEvents p (List.replicate n 0)).countP Event.isXfer
      trace := s.trace ++ dataEvents p (List.replicate n 0) } := by
  rw [← transfersIn_zeroFrame, zeroFrame, okFold_dataFrame, transfersIn_dataFrame]
  simp [OutByte.value]

theorem okFold_addressingFrames (s : State) :
    okFold (addressingFrames p c x0 y0 x1 y1) s = { s with
      dc := .high
      bus := s.bus.drop ((windowEvents p c x0 y0 x1 y1).countP Event.isXfer)
      busCount := s.busCount + (windowEvents p c x0 y0 x1 y1).countP Event.isXfer
      trace := s.trace ++ windowEvents p c x0 y0 x1 y1 } := by
  rw [← transfersIn_addressingFrames]
  simp only [addressingFrames, okFold_append, okFold_cmdFrame, okFold_litFrame, transfersIn_append,
    transfersIn_cmdFrame, transfersIn_litFrame, countP_dataEvents, windowEvents, addressingEvents,
    addressBytes]
  simp only [← List.drop_one, List.drop_drop, List.append_assoc, State.mk.injEq, true_and, and_true]
  exact ⟨by congr 1; omega, by omega⟩

/-- `SetWindowCore` (42_window.md R184): LAST_WIN, the warning where the window is not legal, and the
five frames. -/
theorem okFold_setWindowCore (s : State) (o : Operation) (ho : s.op = some o) :
    okFold (setWindowCore p c x0 y0 x1 y1) s = { s with
      dc := .high
      bus := s.bus.drop ((windowEvents p c x0 y0 x1 y1).countP Event.isXfer)
      busCount := s.busCount + (windowEvents p c x0 y0 x1 y1).countP Event.isXfer
      trace := s.trace ++ windowEvents p c x0 y0 x1 y1
      regs := { s.regs with lastW := x1 - x0 + 1, lastH := y1 - y0 + 1 }
      status := if windowLegal c x0 y0 x1 y1 then s.status
        else { s.status with winWarn := true, errOp := o.code } } := by
  rw [setWindowCore, okFold_cons, okFold_append, okFold_addressingFrames]
  cases windowLegal c x0 y0 x1 y1 with
  | true => rfl
  | false =>
    simp only [Bool.false_eq_true, if_false, okFold_cons, okFold_nil, okStep, perform]
    rw [reportWindow_running
      { s with regs := { s.regs with lastW := x1 - x0 + 1, lastH := y1 - y0 + 1 } } (o := o) ho]
    rfl

/-- The full visible window is legal exactly where neither side is 0. -/
theorem windowLegal_full : windowLegal c 0 0 (c.width - 1) (c.height - 1) =
    !(decide (c.width = 0) || decide (c.height = 0)) := by
  have h1 : ∀ w : Half, decide ((w - 1).toNat < w.toNat) = !decide (w = 0) := by
    intro w
    by_cases h : w = 0
    · subst h
      rfl
    · have h0 : w.toNat ≠ 0 := fun h' => h (BitVec.eq_of_toNat_eq (by simpa using h'))
      have h2 : (w - 1).toNat < w.toNat := by bv_omega
      rw [decide_eq_true h2, decide_eq_false h]
      rfl
  unfold windowLegal
  rw [h1, h1]
  simp

/-- `FullClear(L)` (42_window.md R186). -/
theorem okFold_fullClear (s : State) (o : Operation) (ho : s.op = some o) :
    okFold (fullClear p c) s = { s with
      dc := .high
      bus := s.bus.drop ((clearEvents p c).countP Event.isXfer)
      busCount := s.busCount + (clearEvents p c).countP Event.isXfer
      trace := s.trace ++ clearEvents p c
      regs := { s.regs with lastW := c.width, lastH := c.height }
      status := if c.width = 0 ∨ c.height = 0 then
        { s.status with winWarn := true, errOp := o.code } else s.status } := by
  rw [fullClear, okFold_append, okFold_setWindowCore _ _ _ _ _ _ _ o ho, okFold_zeroFrame,
    clearEvents, List.countP_append, windowLegal_full,
    show c.width - 1 - 0 + 1 = c.width by bv_omega,
    show c.height - 1 - 0 + 1 = c.height by bv_omega]
  by_cases hw : c.width = 0#16 <;> by_cases hh : c.height = 0#16 <;> simp [hw, hh, Nat.add_assoc]

/-! ### The line discipline -/

/-- A piece of program that may stand anywhere between frames: what follows it keeps its line
discipline. -/
def Neutral (a : List Micro) : Prop :=
  ∀ rest, linesDisciplined .high .high rest = true → linesDisciplined .high .high (a ++ rest) = true

theorem neutral_append {a b : List Micro} (ha : Neutral a) (hb : Neutral b) : Neutral (a ++ b) := by
  intro rest h
  rw [List.append_assoc]
  exact ha _ (hb _ h)

theorem neutral_nil : Neutral [] := fun _ h => h

theorem neutral_one {m : Micro} (h : ∀ rest,
    linesDisciplined .high .high (m :: rest) = linesDisciplined .high .high rest) : Neutral [m] := by
  intro rest hr
  rw [List.singleton_append, h]
  exact hr

theorem neutral_cmdFrame (b : Byte) : Neutral (cmdFrame b) := by
  intro rest h
  simpa [cmdFrame, linesDisciplined] using h

theorem neutral_dataFrame (bs : List OutByte) : Neutral (dataFrame p bs) := by
  intro rest h
  unfold dataFrame
  induction chunks p bs with
  | nil => exact h
  | cons c cs ih => simpa [linesDisciplined] using ih

theorem neutral_waitIfPositive (n : Nat) : Neutral (waitIfPositive n) := by
  unfold waitIfPositive
  split
  · exact neutral_nil
  · exact neutral_one fun _ => rfl

theorem neutral_setWindowCore : Neutral (setWindowCore p c x0 y0 x1 y1) := by
  rw [setWindowCore, ← List.singleton_append]
  refine neutral_append (neutral_one fun _ => rfl) (neutral_append ?_ ?_)
  · split
    · exact neutral_nil
    · exact neutral_one fun _ => rfl
  · exact neutral_append (neutral_append
      (neutral_append (neutral_cmdFrame _) (neutral_dataFrame _ _))
      (neutral_append (neutral_cmdFrame _) (neutral_dataFrame _ _))) (neutral_cmdFrame _)

theorem neutral_fullClear : Neutral (fullClear p c) :=
  neutral_append (neutral_setWindowCore p c _ _ _ _) (neutral_dataFrame _ _)

theorem neutral_initSequence (o : Byte) : Neutral (initSequence p c o) := by
  have hw : ∀ b n, Neutral (cmdFrame b ++ waitIfPositive n) := fun b n =>
    neutral_append (neutral_cmdFrame b) (neutral_waitIfPositive n)
  have ht : Neutral (replayTable p) := by
    unfold replayTable
    induction p.initTable with
    | nil => exact neutral_nil
    | cons e t ih =>
      exact neutral_append (neutral_append (neutral_append (neutral_cmdFrame _)
        (neutral_dataFrame _ _)) (neutral_waitIfPositive _)) ih
  have ho : Neutral (configureOrientation p c o) := by
    rw [configureOrientation, ← List.singleton_append]
    exact neutral_append (neutral_one fun _ => rfl) (neutral_append (neutral_append
      (neutral_cmdFrame _) (neutral_dataFrame _ _)) (neutral_cmdFrame _))
  have hr : Neutral ([.clearInitDone, .blackout] ++ hardwareReset p) := by
    intro rest h
    simpa [linesDisciplined, hardwareReset] using h
  have he : Neutral [.driveBacklight, .finishInit] := by
    intro rest h
    simpa [linesDisciplined] using h
  unfold initSequence
  exact neutral_append (neutral_append (neutral_append (neutral_append (neutral_append
    (neutral_append (neutral_append (neutral_append hr (hw _ _)) ho) ht) (hw _ _)) (hw _ _))
    (neutral_setWindowCore _ _ _ _ _ _)) (neutral_fullClear _ _)) he

/-- Every operation's program keeps the line discipline from the idle levels of the lines on. -/
theorem programOf_lines (s : State) (o : Operation) (l : Latch) :
    linesDisciplined .high .high (programOf s o l) = true := by
  have hraise : ∀ e, Neutral [.raise e] := fun e rest h => by simpa [linesDisciplined] using h
  have h : Neutral (programOf s o l) := by
    cases o with
    | init =>
      simp only [programOf, initProgram]
      split
      · exact neutral_initSequence _ _ _
      · exact hraise _
    | writeCmd => exact neutral_cmdFrame _
    | writeData => exact neutral_dataFrame _ _
    | setWindow => exact neutral_setWindowCore _ _ _ _ _ _
    | render =>
      simp only [programOf, renderProgram]
      split
      · exact hraise _
      · exact neutral_append (neutral_setWindowCore _ _ _ _ _ _) (neutral_dataFrame _ _)
    | renderRaw => exact neutral_dataFrame _ _
    | clear => exact neutral_fullClear _ _
    | clearWindow => exact neutral_dataFrame _ _
    | setBrightness =>
      intro rest h
      simpa [programOf, setBrightnessProgram, linesDisciplined] using h
    | shutdown =>
      refine neutral_append (neutral_append (neutral_fullClear _ _) (neutral_cmdFrame _)) ?_
      intro rest h
      simpa [linesDisciplined] using h
  simpa using h [] rfl

end Sys2Proof.Machine
end

