-- ==== Sys2Proof/Laws/Race.lean ====
section
/-! SUPPORT. The payload race (20_memory.md R81): what a racing store can do to a fetched byte, a byte to
be sent, a micro-step and a program. -/

namespace Sys2Proof.Machine

variable (start a : Word) (v : Byte) (n : Nat)

/-- The index of a payload byte does not change. -/
@[simp] theorem race_index (f : Fetched) : (f.race start a v n).index = f.index := by
  unfold Fetched.race
  split <;> rfl

theorem fetched_raced_refl (f : Fetched) : f.Raced start a v f := ⟨rfl, .inl rfl⟩

/-- Old or new. -/
theorem race_fetched (f : Fetched) : f.Raced start a v (f.race start a v n) := by
  unfold Fetched.race Fetched.Raced
  split
  · rename_i h
    simp only [Bool.and_eq_true, decide_eq_true_eq] at h
    exact ⟨rfl, .inr ⟨rfl, h.1⟩⟩
  · exact ⟨rfl, .inl rfl⟩

theorem outByte_raced_refl (b : OutByte) : OutByte.Raced start a v b b := by
  cases b with
  | lit b => exact .lit b
  | payload f => exact .payload (fetched_raced_refl ..)
  | pixelLow r g b => exact .pixelLow (fetched_raced_refl ..) (fetched_raced_refl ..) (fetched_raced_refl ..)
  | pixelHigh r g b => exact .pixelHigh (fetched_raced_refl ..) (fetched_raced_refl ..) (fetched_raced_refl ..)

theorem race_outByte (b : OutByte) : OutByte.Raced start a v b (b.race start a v n) := by
  cases b with
  | lit b => exact .lit b
  | payload f => exact .payload (race_fetched ..)
  | pixelLow r g b => exact .pixelLow (race_fetched ..) (race_fetched ..) (race_fetched ..)
  | pixelHigh r g b => exact .pixelHigh (race_fetched ..) (race_fetched ..) (race_fetched ..)

theorem race_chunk (c : List OutByte) :
    List.Forall₂ (OutByte.Raced start a v) c (c.map (OutByte.race start a v n)) := by
  rw [List.forall₂_map_right_iff, List.forall₂_same]
  exact fun b _ => race_outByte start a v n b

theorem race_micro (m : Micro) : Micro.Raced start a v m (m.race start a v n) := by
  cases m with
  | dataTransfer c => exact .data (race_chunk start a v n c)
  | _ => exact .same _ (by intros; simp)

theorem race_micros (ms : List Micro) :
    List.Forall₂ (Micro.Raced start a v) ms (ms.map (Micro.race start a v n)) := by
  rw [List.forall₂_map_right_iff, List.forall₂_same]
  exact fun m _ => race_micro start a v n m

/-- Everything the race can do to a program: one racing byte at a time, but for a pixel half sent. -/
theorem raceProgram_cases (ms : List Micro) :
    raceProgram start a v n ms = ms.map (Micro.race start a v n) ∨
    ∃ r g b c rest, ms = .dataTransfer (.pixelHigh r g b :: c) :: rest ∧
      raceProgram start a v n ms =
        .dataTransfer (.pixelHigh (r.race start a v n) g b :: c.map (OutByte.race start a v n)) ::
          rest.map (Micro.race start a v n) := by
  unfold raceProgram
  split
  · exact .inr ⟨_, _, _, _, _, rfl, rfl⟩
  · exact .inl rfl

@[simp] theorem raceProgram_nil : raceProgram start a v n [] = [] := rfl

theorem raceProgram_raced (ms : List Micro) :
    List.Forall₂ (Micro.Raced start a v) ms (raceProgram start a v n ms) := by
  rcases raceProgram_cases start a v n ms with h | ⟨r, g, b, c, rest, rfl, h⟩ <;> rw [h]
  · exact race_micros start a v n ms
  · exact .cons (.data (.cons (.pixelHigh (race_fetched ..) (fetched_raced_refl ..)
      (fetched_raced_refl ..)) (race_chunk ..))) (race_micros ..)

/-- A racing store changes nothing but the bytes of data transfers, so not the line discipline. -/
theorem raced_lines {ms ms' : List Micro} (h : List.Forall₂ (Micro.Raced start a v) ms ms') :
    ∀ dc rst, linesDisciplined dc rst ms' = linesDisciplined dc rst ms := by
  induction h with
  | nil => exact fun _ _ => rfl
  | @cons m _ _ _ hm _ ih =>
    intro dc rst
    cases hm with
    | same => cases m <;> simp [linesDisciplined, ih]
    | data _ => simp [linesDisciplined, ih]

theorem raced_legal {ms ms' : List Micro} (h : List.Forall₂ (Micro.Raced start a v) ms ms')
    (o : Option Operation) : ms'.all (Micro.legalFor o) = ms.all (Micro.legalFor o) := by
  induction h with
  | nil => rfl
  | cons hm _ ih => cases hm <;> simp [Micro.legalFor, ih]

theorem raced_mem {ms ms' : List Micro} (h : List.Forall₂ (Micro.Raced start a v) ms ms') {m : Micro}
    (hm : ∀ c, m ≠ .dataTransfer c) : m ∈ ms' ↔ m ∈ ms := by
  induction h with
  | nil => rfl
  | cons hr _ ih => cases hr <;> simp [ih, hm]

/-! ### The bytes of a program -/

@[simp] theorem bytesToSend_nil : bytesToSend [] = [] := rfl

@[simp] theorem bytesToSend_cons (m : Micro) (ms : List Micro) :
    bytesToSend (m :: ms) = m.outBytes ++ bytesToSend ms := by
  simp [bytesToSend]

theorem bytesToSend_race (ms : List Micro) :
    bytesToSend (ms.map (Micro.race start a v n)) =
      (bytesToSend ms).map (OutByte.race start a v n) := by
  induction ms with
  | nil => rfl
  | cons m ms ih =>
    rw [List.map_cons, bytesToSend_cons, bytesToSend_cons, List.map_append, ih]
    cases m <;> rfl

/-- The bytes of a program after the race: every byte on its own, but for green and blue of a pixel half
sent, which is the first. -/
theorem bytesToSend_raceProgram (ms : List Micro) :
    bytesToSend (raceProgram start a v n ms) = (bytesToSend ms).map (OutByte.race start a v n) ∨
    ∃ r g b bs, bytesToSend ms = .pixelHigh r g b :: bs ∧
      bytesToSend (raceProgram start a v n ms) =
        .pixelHigh (r.race start a v n) g b :: bs.map (OutByte.race start a v n) := by
  rcases raceProgram_cases start a v n ms with h | ⟨r, g, b, c, rest, rfl, h⟩ <;> rw [h]
  · exact .inl (bytesToSend_race start a v n ms)
  · refine .inr ⟨r, g, b, c ++ bytesToSend rest, by simp [Micro.outBytes], ?_⟩
    simp [Micro.outBytes, bytesToSend_race]

theorem race_fetched_none {f : Fetched} (h : payloadAddress start f.index ≠ a) :
    f.race start a v n = f := by
  simp [Fetched.race, h]

theorem race_outByte_none {b : OutByte} (h : ∀ i ∈ b.payloadIndices, payloadAddress start i ≠ a) :
    b.race start a v n = b := by
  cases b <;> simp_all [OutByte.race, OutByte.payloadIndices, race_fetched_none]

theorem race_chunk_none {c : List OutByte}
    (h : ∀ b ∈ c, ∀ i ∈ b.payloadIndices, payloadAddress start i ≠ a) :
    c.map (OutByte.race start a v n) = c := by
  conv => rhs; rw [← List.map_id c]
  exact List.map_congr_left fun b hb => race_outByte_none start a v n (h b hb)

theorem race_micros_none {ms : List Micro}
    (h : ∀ b ∈ bytesToSend ms, ∀ i ∈ b.payloadIndices, payloadAddress start i ≠ a) :
    ms.map (Micro.race start a v n) = ms := by
  induction ms with
  | nil => rfl
  | cons m ms ih =>
    simp only [bytesToSend_cons, List.mem_append] at h
    rw [List.map_cons, ih fun b hb => h b (.inr hb)]
    cases m with
    | dataTransfer c =>
      have hc : c.map (OutByte.race start a v n) = c :=
        race_chunk_none start a v n fun b hb => h b (.inl hb)
      rw [Micro.race, hc]
    | _ => rfl

/-- No payload byte that can still be read lies at the address: the program stays as it is. -/
theorem raceProgram_none {ms : List Micro}
    (h : ∀ i ∈ indicesToRead ms, payloadAddress start i ≠ a) :
    raceProgram start a v n ms = ms := by
  unfold indicesToRead at h
  split at h
  · have hb : ∀ b ∈ _ ++ bytesToSend _, ∀ i ∈ b.payloadIndices, payloadAddress start i ≠ a :=
      fun b hb i hi => h i (List.mem_cons_of_mem _ (List.mem_flatMap.2 ⟨b, hb, hi⟩))
    simp only [List.mem_append] at hb
    simp only [raceProgram]
    rw [race_fetched_none start a v n (h _ List.mem_cons_self),
      race_chunk_none start a v n fun b hc => hb b (.inl hc),
      race_micros_none start a v n fun b hc => hb b (.inr hc)]
  · have hb : ∀ b ∈ bytesToSend ms, ∀ i ∈ b.payloadIndices, payloadAddress start i ≠ a :=
      fun b hb i hi => h i (List.mem_flatMap.2 ⟨b, hb, hi⟩)
    rename_i hno
    rcases raceProgram_cases start a v n ms with hr | ⟨_, _, _, _, _, rfl, _⟩
    · rw [hr]
      exact race_micros_none start a v n hb
    · exact (hno _ _ _ _ _ rfl).elim

end Sys2Proof.Machine
end

