-- ==== Sys2Proof/Tests/Slice0.lean ====
section
/-! SUPPORT. Tests of the model and witnesses of the hypotheses of the obligations. Expected results
come from the spec's words and its test vectors (95_test_vectors.md, V-…), not from the model. -/

namespace Sys2Proof.Tests

open Sys2Proof.Machine

/-! ### Small states -/

/-- A configuration: WIDTH, HEIGHT, OFF_LEFT, OFF_TOP, ROT_DEG; 1 MHz bus, 500 Hz backlight. -/
def cfgOf (w h ol ot rot : Half) : CfgRegs where
  size := pack w h
  offset := pack ol ot
  mode := rot.setWidth 32
  spiHz := 1000000
  blHz := 500
  fps := 0

/-- An idle block under a configuration, with operands, whose next transfers all complete. -/
def idleWith (c : CfgRegs) (arg0 arg1 addr len : Word) : State :=
  { State.reset with
    regs := { Regs.reset with arg0 := arg0, arg1 := arg1, addr := addr, len := len, cfg := c }
    bus := List.replicate 40 .ok }

/-- The reset state with one operation running, `todo` left to do, and the given bus outcomes. -/
def running (o : Operation) (todo : List Micro) (bus : List BusOutcome) : State :=
  { State.reset with op := some o, todo := todo, bus := bus }

/-- The program an instruction starts with: `none` where it answers no next state. -/
def programAfter (i : Instr) (s : State) : Option (List Micro) :=
  match exec i s with
  | .next t => some t.todo
  | _ => none

/-- A state whose turns are given. -/
def withTurns (s : State) (ts : List Turn) : State := { s with turns := ts }

/-- A value of the next state, `none` where a step stops. -/
def after {α : Type} (s : State) (f : State → α) : Option α :=
  match step s with
  | .next t => some (f t)
  | _ => none

/-! ### Well-formedness smoke tests -/

theorem test_params_default_legal : Params.default.wellFormed = true := by decide

theorem test_orientation_two_bits_refused :
    { Params.default with oriLine := 0x30 }.orientationBitsLegal = false := by decide

theorem test_orientation_no_bit_refused :
    { Params.default with oriBgr := 0x00 }.orientationBitsLegal = false := by decide

theorem test_orientation_same_bit_refused :
    { Params.default with oriLine := 0x08 }.orientationBitsLegal = false := by decide

theorem test_max_xfer_zero_refused :
    { Params.default with maxXfer := some 0 }.maxXferLegal = false := by decide

theorem test_max_xfer_inf_legal :
    { Params.default with maxXfer := none }.maxXferLegal = true := by decide

theorem test_spi_mode_four_refused :
    { Params.default with spiMode := 4 }.spiModeLegal = false := by decide

theorem test_pwm_res_zero_refused :
    { Params.default with pwmRes := 0 }.pwmResLegal = false := by decide

theorem test_narrow_access_refused : (HostAccess.read 0x04 .w16).wellFormed = false := by decide

theorem test_misaligned_access_refused :
    (HostAccess.write 0x06 .w32 0).wellFormed = false := by decide

theorem test_memory_unlisted_value_refused : Memory.wf [(5, Memory.unlisted)] = false := by decide

theorem test_memory_unsorted_refused : Memory.wf [(5, 1), (5, 2)] = false := by decide

theorem test_memory_address_too_big_refused : Memory.wf [(2 ^ 32, 1)] = false := by decide

/-! ### Decoding: CTRL words written out from R91, R92 (OP in bits 7:0, OMIT_X1 bit 8, OMIT_Y1 bit 9) -/

theorem test_decode_nop : decode 0b00000000000000000000000000000000 = .instr .nop := by decide
theorem test_decode_init :
    decode 0b00000000000000000000000000000001 = .instr (.init false false) := by decide
theorem test_decode_writeCmd :
    decode 0b00000000000000000000000000000010 = .instr (.writeCmd false false) := by decide
theorem test_decode_writeData :
    decode 0b00000000000000000000000000000011 = .instr (.writeData false false) := by decide
theorem test_decode_setWindow :
    decode 0b00000000000000000000001100000100 = .instr (.setWindow true true) := by decide
theorem test_decode_setWindow_x1 :
    decode 0b00000000000000000000000100000100 = .instr (.setWindow true false) := by decide
theorem test_decode_render :
    decode 0b00000000000000000000000000000101 = .instr (.render false false) := by decide
theorem test_decode_renderRaw :
    decode 0b00000000000000000000000000000110 = .instr (.renderRaw false false) := by decide
theorem test_decode_clear :
    decode 0b11111111111111111111110000000111 = .instr (.clear false false) := by decide
theorem test_decode_clearWindow :
    decode 0b00000000000000000000000000001000 = .instr (.clearWindow false false) := by decide
theorem test_decode_setBrightness :
    decode 0b00000000000000000000000000001001 = .instr (.setBrightness false false) := by decide
theorem test_decode_shutdown :
    decode 0b00000000000000000000000000001010 = .instr (.shutdown false false) := by decide
theorem test_decode_reserved_first :
    decode 0b00000000000000000000000000001011 = .reservedOp 0x0B := by decide
theorem test_decode_reserved_last :
    decode 0b00000000000000000000000011111111 = .reservedOp 0xFF := by decide
theorem test_decodeTableWord_reserved : decodeTableWord 8 0x0B = none := by decide

/-! ### Instructions: the program each one starts, and single steps -/

/-- V-E7: a NOP while BUSY = 1 does nothing. -/
theorem test_nop_while_busy :
    step (withTurns (running .clear [.wait 1] []) [wr 0x00 0x00]) =
      .next (running .clear [.wait 1] []) := by rfl

/-- V-T1: 0x00000129 sends the byte 0x29. -/
theorem test_writeCmd_program :
    programAfter (.writeCmd false false) (idleWith CfgRegs.reset 0x00000129 0 0 0) =
      some [.dcSet .low, .cmdTransfer 0x29, .dcSet .high] := by decide

/-- V-T2: a failing command: BUS_ERR and ERR_OP = 0x02 in STATUS 0x00020400. -/
theorem test_writeCmd_fails :
    after (running .writeCmd [.cmdTransfer 0x29, .dcSet .high] [.fail]) State.statusWord =
      some 0x00020400 := by decide

/-- V-T3: MAX_XFER = 4 and ten bytes at 0x100 go out as 4, 4 and 2 bytes. -/
theorem test_writeData_chunks :
    (programAfter (.writeData false false)
      { idleWith CfgRegs.reset 0 0 0x100 10 with
        params := { Params.default with maxXfer := some 4 }
        mem := (List.range 9).map fun i => (0x101 + i, BitVec.ofNat 8 (i + 1)) }).map
        (List.map fun m => match m with
          | .dataTransfer c => c.map OutByte.value
          | _ => []) =
      some [[0, 1, 2, 3], [4, 5, 6, 7], [8, 9]] := by decide

/-- V-T9: the payload wraps at the top of host memory. -/
theorem test_writeData_wraps :
    (programAfter (.writeData false false)
      { idleWith CfgRegs.reset 0 0 0xFFFFFFFE 3 with
        mem := [(0, 3), (0xFFFFFFFE, 1), (0xFFFFFFFF, 2)] }).map
        (List.map fun m => match m with
          | .dataTransfer c => c.map OutByte.value
          | _ => []) =
      some [[1, 2, 3]] := by decide

/-- V-W1: offsets (0, 80), window (10,20)-(19,29). -/
theorem test_setWindow_program :
    programAfter (.setWindow false false)
        (idleWith (cfgOf 240 240 0 80 0) (pack 10 20) (pack 19 29) 0 0) =
      some [.recordWindow 10 10,
        .dcSet .low, .cmdTransfer 0x2A, .dcSet .high,
        .dataTransfer [.lit 0x00, .lit 0x0A, .lit 0x00, .lit 0x13],
        .dcSet .low, .cmdTransfer 0x2B, .dcSet .high,
        .dataTransfer [.lit 0x00, .lit 0x64, .lit 0x00, .lit 0x6D],
        .dcSet .low, .cmdTransfer 0x2C, .dcSet .high] := by decide

/-- V-W6: an inverted window: LAST_WIN = (0xFFFF, 1), a warning, and the frames all the same. -/
theorem test_setWindow_warns :
    (programAfter (.setWindow false false)
        (idleWith (cfgOf 4 2 0 0 0) (pack 3 0) (pack 1 0) 0 0)).map (List.take 6) =
      some [.recordWindow 0xFFFF 1, .winWarn,
        .dcSet .low, .cmdTransfer 0x2A, .dcSet .high,
        .dataTransfer [.lit 0x00, .lit 0x03, .lit 0x00, .lit 0x01]] := by decide

/-- V-R4: a 2x1 image on a 5x4 panel stands at (1,1)-(2,1). -/
theorem test_render_placement :
    (programAfter (.render false false)
        (idleWith (cfgOf 5 4 0 0 0) (pack 2 1) 0 0 0)).map (List.take 8) =
      some [.recordWindow 2 1,
        .dcSet .low, .cmdTransfer 0x2A, .dcSet .high,
        .dataTransfer [.lit 0x00, .lit 0x01, .lit 0x00, .lit 0x02],
        .dcSet .low, .cmdTransfer 0x2B, .dcSet .high] := by decide

/-- V-R8 in small: an image one pixel too wide is a PreconditionViolation. -/
theorem test_render_too_wide :
    programAfter (.render false false) (idleWith (cfgOf 4 2 0 0 0) (pack 5 1) 0 0 0) =
      some [.raise .precondition] := by decide

/-- The example of R205: red and blue pixels. -/
theorem test_renderRaw_pixels :
    (programAfter (.renderRaw false false)
      { idleWith CfgRegs.reset 0 0 0x10 2 with mem := [(0x10, 0xFF), (0x15, 0xFF)] }).map
        (List.map fun m => match m with
          | .dataTransfer c => c.map OutByte.value
          | _ => []) =
      some [[0x00, 0xF8, 0x1F, 0x00]] := by decide

/-- V-C11: a pixel across the wrap of host memory. -/
theorem test_renderRaw_wraps :
    (programAfter (.renderRaw false false)
      { idleWith CfgRegs.reset 0 0 0xFFFFFFFF 1 with mem := [(0xFFFFFFFF, 0xFF)] }).map
        (List.map fun m => match m with
          | .dataTransfer c => c.map OutByte.value
          | _ => []) =
      some [[0x00, 0xF8]] := by decide

/-- V-W14: CLEAR of a 1x1 panel ends with two zero bytes. -/
theorem test_clear_one_pixel :
    (programAfter (.clear false false) (idleWith (cfgOf 1 1 0 0 0) 0 0 0 0)).map (List.drop 9) =
      some [.dcSet .low, .cmdTransfer 0x2C, .dcSet .high, .dataTransfer [.lit 0, .lit 0]] := by
  decide

/-- R186 with WIDTH = 0: x1 = 0xFFFF, LW = 0, a warning. -/
theorem test_clear_unconfigured :
    (programAfter (.clear false false) (idleWith CfgRegs.reset 0 0 0 0)).map (List.take 6) =
      some [.recordWindow 0 0, .winWarn, .dcSet .low, .cmdTransfer 0x2A, .dcSet .high,
        .dataTransfer [.lit 0x00, .lit 0x00, .lit 0xFF, .lit 0xFF]] := by decide

/-- P2 step 6: a 2x2 window is eight zero bytes. -/
theorem test_clearWindow_program :
    programAfter (.clearWindow false false)
        { idleWith CfgRegs.reset 0 0 0 0 with regs := { Regs.reset with lastW := 2, lastH := 2 } } =
      some [.dataTransfer (List.replicate 8 (.lit 0))] := by decide

/-- V-W11: nothing for a 0 x 0 window. -/
theorem test_clearWindow_nothing :
    programAfter (.clearWindow false false) (idleWith CfgRegs.reset 0 0 0 0) = some [] := by decide

/-- V-B3: -0.5 is clamped to 0. -/
theorem test_setBrightness_clamps :
    programAfter (.setBrightness false false) (idleWith CfgRegs.reset 0xFFFF8000 0 0 0) =
      some [.setDuty 0, .driveBacklight] := by decide

/-- V-B8: in binary mode the smallest brightness drives the output to 65536. -/
theorem test_setBrightness_binary :
    after { running .setBrightness [.driveBacklight] [] with
      regs := { Regs.reset with blDuty := 1 }
      latch := { Latch.reset with cfg := { CfgRegs.reset with mode := 0x00040000 } } }
      (fun t => (t.regs.blOut, t.trace)) = some (65536, [.blSet 65536]) := by decide

/-- V-I2: a rotation of 45 degrees is a ConfigurationError before anything else. -/
theorem test_init_bad_rotation :
    programAfter (.init false false) (idleWith (cfgOf 240 240 0 0 45) 0 0 0 0) =
      some [.raise .configuration] := by decide

/-- The start of V-I13, on a 1x1 panel. -/
theorem test_init_program :
    (programAfter (.init false false) (idleWith (cfgOf 1 1 0 0 0) 0 0 0 0)).map (List.take 23) =
      some [.clearInitDone, .blackout,
        .rstSet .high, .wait 100, .rstSet .low, .wait 100, .rstSet .high, .wait 100,
        .dcSet .low, .cmdTransfer 0x01, .dcSet .high, .wait 150,
        .setOrient 0x10, .dcSet .low, .cmdTransfer 0x36, .dcSet .high, .dataTransfer [.lit 0x10],
        .dcSet .low, .cmdTransfer 0x20, .dcSet .high,
        .dcSet .low, .cmdTransfer 0x11, .dcSet .high] := by decide

/-- V-I17: SHUTDOWN of a 2x1 panel after its addressing. -/
theorem test_shutdown_program :
    (programAfter (.shutdown false false) (idleWith (cfgOf 2 1 0 0 0) 0 0 0 0)).map (List.drop 12) =
      some [.dataTransfer [.lit 0, .lit 0, .lit 0, .lit 0],
        .dcSet .low, .cmdTransfer 0x28, .dcSet .high,
        .setDuty 0, .blackout, .finishShutdown] := by decide

/-- V-I18: SHUTDOWN right after reset sends no data frame after the addressing. -/
theorem test_shutdown_unconfigured :
    (programAfter (.shutdown false false) (idleWith CfgRegs.reset 0 0 0 0)).map (List.drop 10) =
      some [.dcSet .low, .cmdTransfer 0x2C, .dcSet .high,
        .dcSet .low, .cmdTransfer 0x28, .dcSet .high,
        .setDuty 0, .blackout, .finishShutdown] := by decide

/-! ### Registers and errors -/

/-- V-E12: reserved bits of CFG_MODE are forced to 0. -/
theorem test_cfg_mode_reserved_bits :
    after (withTurns State.reset [wr 0x20 0xFFFFFFFF]) (readRegister · 0x20) =
      some 0x0007FFFF := by decide

/-- V-E10: a CFG write while BUSY = 1 is ignored. -/
theorem test_cfg_write_while_busy :
    after (withTurns (running .clear [] []) [wr 0x18 0x00100010]) (readRegister · 0x18) =
      some 0 := by decide

/-- V-E9: W1C is accepted while BUSY = 1. -/
theorem test_status_w1c_while_busy :
    after (withTurns { running .clear [] [] with status := { Status.reset with busErr := true } }
      [wr 0x04 0x00000400]) State.statusWord = some 0x00000001 := by decide

/-- V-E6, V-X2: a CTRL write while BUSY = 1 sets OP_ERR and ERR_OP. -/
theorem test_ctrl_write_while_busy :
    after (withTurns (running .clear [] []) [wr 0x00 0x00000007]) State.statusWord =
      some 0x00070801 := by decide

/-- V-X1: the PreconditionViolation leaves STATUS = 0x00050200. -/
theorem test_precondition_status :
    after (running .render [.raise .precondition] []) State.statusWord = some 0x00050200 := by decide

/-- V-I15: a failing MADCTL command in INIT, after ORIENT was written. -/
theorem test_init_bus_error :
    after { running .init [.cmdTransfer 0x36] [.fail] with
      status := { Status.reset with initDone := true, cfgLock := true } } State.statusWord =
      some 0x00010404 := by decide

/-- S1: the orientation bytes without and with BGR. -/
theorem test_orientation_table :
    [0, 90, 180, 270, 45].map (fun r => orientByte .default (cfgOf 1 1 0 0 r)) =
      [some 0x10, some 0xB0, some 0xD0, some 0x70, none] ∧
    [0, 90, 180, 270].map (fun r => orientByte .default
      { cfgOf 1 1 0 0 r with mode := r.setWidth 32 ||| 0x10000 }) =
      [some 0x18, some 0xB8, some 0xD8, some 0x78] := by decide

/-- V-C4, V-C8, V-C9 and S4. -/
theorem test_pack565 :
    pack565 0x12 0x34 0x56 = 0x11AA ∧ pack565 0x08 0x04 0x08 = 0x0821 ∧
      pack565 0x80 0x80 0x80 = 0x8410 ∧ pack565 0xF8 0xFC 0xF8 = 0xFFFF := by decide

/-- The high ticks of 95_test_vectors.md 2.7 for PWM_RES = 100. -/
theorem test_pwm_high_ticks :
    [0, 32768, 65535, 65536, 1].map (pwmHighTicks · 100) = [0, 50, 99, 100, 0] := by decide

/-- The expansions of R111 for SETWIN and of R113 for CFG (P1). -/
theorem test_pseudo_instructions :
    Pseudo.expand (.setwin 1 1 none none) = [wr 0x08 0x00010001, wr 0x00 0x304] ∧
    Pseudo.expand (.setwin 5 6 (some 100) none) =
      [wr 0x08 0x00060005, wr 0x0C 0x00000064, wr 0x00 0x204] ∧
    Pseudo.expand (.cfg 4 2 2 1 90 true true false 1000000) =
      [wr 0x18 0x00020004, wr 0x1C 0x00010002, wr 0x20 0x0003005A, wr 0x24 0x000F4240] := by decide

/-- R69: the bits of 0x29 go most significant first. -/
theorem test_wire_bits :
    wireBits 0x29 = [false, false, true, false, true, false, false, true] := by decide

/-- A word of the opcode table is fetched and run by the very next step. -/
theorem test_withFetchWord :
    after (State.reset.withFetchWord 8 0x08) (fun t => (t.op, t.busy)) =
      some (some .clearWindow, true) := by decide

/-! ### Witnesses: concrete states and operands that meet the hypotheses of each obligation -/

/-- A 4x2 panel whose block is idle, with every transfer completing. -/
def panel : State := idleWith (cfgOf 4 2 0 0 0) (pack 0 0) (pack 1 1) 0x100 2

theorem witness_DecodeEncodeAgree :
    (Instr.setWindow true false).wellFormed = true ∧
    decode 0x00000104 = .instr (.setWindow true false) ∧ Instr.setWindow true false ≠ .nop ∧
    (∀ k, k < 10 → (0xFFFFFC07 : Word).getLsbD k = (0x00000007 : Word).getLsbD k) := by decide

theorem witness_CtrlWriteRunsDecodedInstruction :
    (withTurns panel [wr 0 0x07, .waitIdle]).turns = .host (.write 0 .w32 0x07) :: [.waitIdle] ∧
    decode 0x07 = .instr (.clear false false) ∧
    decodeTableWord 8 0x0A = some (.shutdown false false) := by decide

theorem witness_StepOtherwiseRunsSequencer :
    (running .clear [.wait 1] []).turns = [] ∧
    (withTurns panel [.sequencer]).turns = .sequencer :: [] ∧
    panel.turns = [] ∧ panel.op = none := by decide

theorem witness_NopHasNoEffect :
    ctrlOp 0xFFFFFF00 = 0 ∧ (withTurns (running .clear [] []) [wr 0 0xFFFFFF00]).turns =
      .host (.write 0 .w32 0xFFFFFF00) :: [] := by decide

theorem witness_RejectedCtrlWriteOnlySetsOpErr :
    (ctrlOp 0x07 ≠ 0 ∧ (withTurns (running .clear [] []) [wr 0 0x07]).busy = true) ∧
    (ctrlOp 0x0B ≠ 0 ∧ 0x0B ≤ (ctrlOp 0x0B).toNat ∧ (withTurns panel [wr 0 0x0B]).busy = false) ∧
    (withTurns panel [wr 0 0x0B]).turns = .host (.write 0 .w32 0x0B) :: [] := by decide

theorem witness_IgnoredCtrlBitsChangeNothing :
    (ctrlOp 0xFFFFFF07 = ctrlOp 0x07 ∧ ctrlOp 0xFFFFFF07 ≠ 0x04) ∧
    (ctrlOp 0xFFFFFD04 = ctrlOp 0x104 ∧ ctrlOmitX1 0xFFFFFD04 = ctrlOmitX1 0x104 ∧
      ctrlOmitY1 0xFFFFFD04 = ctrlOmitY1 0x104) := by decide

theorem witness_OperationReadsOnlyItsLatch :
    panel.op = none ∧ Instr.shutdown true false ∈ [Instr.init true false, .shutdown true false] ∧
    (running .clear [.wait 1] []).op ≠ none ∧ (0x14#8) ∈ [0x08#8, 0x0C#8, 0x10#8, 0x14#8] := by decide

theorem witness_EveryOperationStartsWhenIdle : panel.op = none := by decide

/-- A state of the invariant in which the next step ends the operation. -/
theorem ending_inv : Inv (running .clear [] []) ∧ (running .clear [] []).op ≠ none ∧
    step (running .clear [] []) = .next { running .clear [] [] with op := none } :=
  ⟨⟨by decide, by decide, by decide, by decide, by decide, by decide, by decide, by decide,
    by decide, by decide, by decide⟩, by decide, rfl⟩

theorem witness_OperationEndsWhenNothingIsLeft :
    ((running .clear [] []).op ≠ none ∧ (running .clear [] []).stalled = false ∧
      (running .clear [] []).todo = [] ∧ Inv (running .clear [] [])) ∧
    (State.reset.op = none ∧ State.reset.regs.len = 0) :=
  ⟨⟨by decide, by decide, by decide, ending_inv.1⟩, by decide, by decide⟩

theorem witness_WriteCmdSendsOneCommandByte : panel.Ready ∧ panel.BusOk 1 := by
  unfold State.Ready State.BusOk
  decide

/-- V-T3: ten bytes, MAX_XFER = 4, three transfers. -/
def tenBytes : State :=
  { idleWith CfgRegs.reset 0 0 0x100 10 with params := { Params.default with maxXfer := some 4 } }

theorem witness_WriteDataSendsPayloadInChunks :
    tenBytes.Ready ∧ tenBytes.BusOk (chunks tenBytes.params
      ((List.range tenBytes.regs.len.toNat).map fun i =>
        tenBytes.mem.read ((tenBytes.regs.addr.toNat + i) % 2 ^ 32))).length := by
  unfold State.Ready State.BusOk
  decide

/-- The bus hypothesis of SET_WINDOW for a legal window and for an inverted one, both ends given. -/
theorem witness_SetWindowAddressesTheRectangle :
    panel.Ready ∧
    panel.BusOk ((windowEvents panel.params panel.regs.cfg 0 0 1 1).countP Event.isXfer) ∧
    panel.BusOk ((windowEvents panel.params panel.regs.cfg 3 0 1 0).countP Event.isXfer) := by
  unfold State.Ready State.BusOk
  decide

theorem witness_ClearZeroFillsThePanel :
    (panel.Ready ∧
      panel.BusOk ((clearEvents panel.params panel.regs.cfg).countP Event.isXfer)) ∧
    (tenBytes.Ready ∧ tenBytes.regs.cfg.width = 0 ∧
      tenBytes.BusOk ((clearEvents tenBytes.params tenBytes.regs.cfg).countP Event.isXfer)) := by
  unfold State.Ready State.BusOk
  decide

theorem witness_ClearWindowZeroFillsLastWindow :
    let s := { panel with regs := { panel.regs with lastW := 2, lastH := 2 } }
    (s.Ready ∧ s.BusOk (chunks s.params (List.replicate
      (2 * s.regs.lastW.toNat * s.regs.lastH.toNat) (0 : Byte))).length) ∧
    (panel.Ready ∧ panel.BusOk (chunks panel.params (List.replicate
      (2 * panel.regs.lastW.toNat * panel.regs.lastH.toNat) (0 : Byte))).length) := by
  unfold State.Ready State.BusOk
  decide

theorem witness_RenderRawStreamsPixels :
    panel.Ready ∧ panel.BusOk (chunks panel.params
      (pixelStream panel.params panel.mem panel.regs.addr panel.regs.len.toNat)).length := by
  unfold State.Ready State.BusOk
  decide

/-- A 4x2 image on the 4x2 panel: the largest that fits. -/
def fullImage : State := idleWith (cfgOf 4 2 0 0 0) (pack 4 2) 0 0x100 0

theorem witness_RenderCentresAndStreams :
    fullImage.Ready ∧ 1 ≤ (fullImage.regs.arg0.extractLsb' 0 16).toNat ∧
    1 ≤ (fullImage.regs.arg0.extractLsb' 16 16).toNat ∧
    (fullImage.regs.arg0.extractLsb' 0 16).toNat ≤ fullImage.regs.cfg.width.toNat ∧
    (fullImage.regs.arg0.extractLsb' 16 16).toNat ≤ fullImage.regs.cfg.height.toNat ∧
    fullImage.BusOk ((windowEvents fullImage.params fullImage.regs.cfg 0 0 3 1 ++
      dataEvents fullImage.params
        (pixelStream fullImage.params fullImage.mem fullImage.regs.addr (4 * 2))).countP
          Event.isXfer) := by
  unfold State.Ready State.BusOk
  decide

/-- The four ways of R208, each at its boundary: iw = 0, ih = 0, iw = WIDTH + 1, ih = HEIGHT + 1. -/
theorem witness_RenderRejectsUnfitImage :
    (idleWith (cfgOf 4 2 0 0 0) (pack 0 1) 0 0 0).op = none ∧
    (pack 0 1 : Word).extractLsb' 0 16 = 0 ∧ (pack 1 0 : Word).extractLsb' 16 16 = 0 ∧
    (cfgOf 4 2 0 0 0).width < (pack 5 1 : Word).extractLsb' 0 16 ∧
    (cfgOf 4 2 0 0 0).height < (pack 1 3 : Word).extractLsb' 16 16 := by decide

theorem witness_SetBrightnessClampsAndDrives : panel.Ready := by
  unfold State.Ready
  decide

/-- V-I7: OFF_LEFT + WIDTH = 65536 is the largest legal sum. -/
theorem witness_InitRunsTheSequence :
    panel.Ready ∧ malformed panel.regs.cfg = false ∧
    orientByte panel.params panel.regs.cfg = some 0x10 ∧
    panel.BusOk ((initEvents panel.params panel.regs.cfg 0x10 65536).countP Event.isXfer) ∧
    malformed (cfgOf 2 1 65534 0 0) = false := by
  unfold State.Ready State.BusOk
  decide

/-- V-I2, V-I5, V-I6, V-I8 to V-I10. -/
theorem witness_InitRejectsMalformedConfiguration :
    (idleWith (cfgOf 240 240 0 0 45) 0 0 0 0).op = none ∧
    ([cfgOf 240 240 0 0 45, cfgOf 0 240 0 0 0, cfgOf 240 0 0 0 0, cfgOf 2 1 65535 0 0,
      cfgOf 1 2 0 65535 0, { cfgOf 240 240 0 0 0 with spiHz := 0 },
      { cfgOf 240 240 0 0 0 with blHz := 0 }].all malformed) = true := by decide

theorem witness_ShutdownClearsAndUnlocks :
    panel.Ready ∧ panel.BusOk ((clearEvents panel.params panel.regs.cfg ++
      cmdEvents panel.params.cmdDispoff ++ [Event.blSet 0]).countP Event.isXfer) ∧
    tenBytes.Ready ∧ tenBytes.regs.cfg.width = 0 ∧
      tenBytes.BusOk ((clearEvents tenBytes.params tenBytes.regs.cfg ++
        cmdEvents tenBytes.params.cmdDispoff ++ [Event.blSet 0]).countP Event.isXfer) := by
  unfold State.Ready State.BusOk
  decide

theorem witness_InitAgainIsIdempotent :
    panel.Ready ∧ malformed panel.regs.cfg = false ∧
    ∃ t u : State, exec (.init false false) panel = .next t ∧
      exec (.init false false) t.finish = .next u ∧
      panel.BusOk (transfersIn t.todo + transfersIn u.todo) := by
  refine ⟨⟨rfl, rfl, rfl⟩, by decide, _, _, rfl, rfl, ?_⟩
  unfold State.BusOk
  decide

theorem witness_FailedCommandRestoresDc :
    (let s := running .writeCmd (cmdFrame 0x29 ++ []) [.fail];
      s.op = some .writeCmd ∧ s.stalled = false ∧ s.todo = cmdFrame 0x29 ++ [] ∧
        s.outcomeAt 0 = .fail) ∧
    ∃ s t : State, Inv s ∧ s.op ≠ none ∧ step s = .next t ∧ t.op = none :=
  ⟨by decide, _, _, ending_inv.1, ending_inv.2.1, ending_inv.2.2, rfl⟩

theorem witness_FailedDataStopsTheFrame :
    let s := running .writeData [.dataTransfer [.lit 1], .dataTransfer [.lit 2]] [.fail]
    s.op = some .writeData ∧ s.stalled = false ∧
      s.todo = .dataTransfer [.lit 1] :: [.dataTransfer [.lit 2]] ∧ s.outcomeAt 0 = .fail := by
  decide

theorem witness_StallHangsUntilBlockReset :
    let s := running .writeCmd [.cmdTransfer 0x29, .dcSet .high] [.stall]
    let t := { s with stalled := true }
    (s.op = some .writeCmd ∧ s.stalled = false ∧
      s.todo = .cmdTransfer 0x29 :: [.dcSet .high] ∧ (Micro.cmdTransfer 0x29).isTransfer = true ∧
      s.outcomeAt 0 = .stall) ∧
    (t.op ≠ none ∧ t.stalled = true ∧ step t = .next t ∧ t.turns.head? ≠ some .blockReset) ∧
    (ctrlOp 0x07 ≠ 0 ∧ (withTurns t [wr 0 0x07]).turns = .host (.write 0 .w32 0x07) :: []) ∧
    (withTurns t [.blockReset]).turns = .blockReset :: [] :=
  ⟨by decide, ⟨by decide, by decide, rfl, by decide⟩, by decide, by decide⟩

/-- The second transfer of SET_WINDOW fails. -/
theorem witness_FirstFailureAbortsTheOperation :
    let s := { panel with bus := [.ok, .fail] }
    s.Ready ∧ ∃ t, exec (.setWindow false false) s = .next t ∧ 1 < transfersIn t.todo ∧
      s.BusOk 1 ∧ s.outcomeAt 1 = .fail := by
  refine ⟨⟨rfl, rfl, rfl⟩, _, rfl, by decide, ?_, by decide⟩
  unfold State.BusOk
  decide

theorem witness_AbortOfInitOrShutdown :
    let s := running .init [.cmdTransfer 0x36, .dcSet .high] [.fail]
    let t := running .shutdown [.dataTransfer [.lit 0]] [.fail]
    (s.op = some .init ∧ s.stalled = false ∧ s.todo = .cmdTransfer 0x36 :: [.dcSet .high] ∧
      (Micro.cmdTransfer 0x36).isTransfer = true ∧ s.outcomeAt 0 = .fail) ∧
    (t.op = some .shutdown ∧ t.stalled = false ∧ t.todo = .dataTransfer [.lit 0] :: [] ∧
      (Micro.dataTransfer [.lit 0]).isTransfer = true ∧ t.outcomeAt 0 = .fail) := by decide

theorem witness_OperationsEndUnderBusFair :
    let s := running .writeData [.dataTransfer [.lit 1], .dataTransfer [.lit 2]] [.ok, .fail]
    s.stalled = false ∧ s.BusFair (transfersIn s.todo) := by
  unfold State.BusFair
  decide

theorem witness_WaitIdleEndsUnderBusFair :
    let s := withTurns (running .writeData [.dataTransfer [.lit 1]] [.ok]) [.waitIdle]
    s.turns = [.waitIdle] ∧ s.stalled = false ∧ s.BusFair (transfersIn s.todo) := by
  unfold State.BusFair
  decide

theorem witness_ChunksKeepEveryByteInOrder :
    ([1, 2, 3] : List Byte) ≠ [] ∧ { Params.default with maxXfer := none }.maxXfer = none ∧
    { Params.default with maxXfer := some 1 }.maxXfer = some 1 ∧ 1 ≤ 1 := by decide

theorem witness_OrientationByteOrsTheFlags :
    (cfgOf 1 1 0 0 0).rotDeg = 0 ∧ (cfgOf 1 1 0 0 90).rotDeg = 90 ∧
    (cfgOf 1 1 0 0 180).rotDeg = 180 ∧ (cfgOf 1 1 0 0 270).rotDeg = 270 := by decide

/-- The last column and row of a panel that ends at the last address of controller memory. -/
theorem witness_MalformedExactlyWhenListed :
    malformed (cfgOf 2 2 65534 65534 0) = false ∧
    windowLegal (cfgOf 2 2 65534 65534 0) 0 0 1 1 = true := by decide

theorem witness_PlacementFitsThePanel :
    imageUnfit (fullImage.latchNow false false) = false ∧
    imageUnfit ((idleWith (cfgOf 65535 1 0 0 0) (pack 1 1) 0 0 0).latchNow false false) = false := by
  decide

theorem witness_BacklightLineFollowsTheOutput :
    { CfgRegs.reset with mode := 0x00040000 }.blm = true ∧
    (State.reset.regs.cfg.blm = false ∧ State.reset.pwmCnt < State.reset.params.pwmRes ∧
      State.reset.pwmOut = 0) ∧
    { State.reset with pwmOut := 65536, pwmCnt := 99 }.pwmOut = 65536 ∧
    ({ State.reset with pwmCnt := 99 }.pwmCnt < State.reset.params.pwmRes ∧
      (pwmTick { State.reset with pwmCnt := 99 }).pwmCnt = 0) ∧
    (withTurns panel [.pwmTick]).turns = .pwmTick :: [] := by decide

theorem witness_OperandRegistersReadBack :
    (0x08#8) ∈ [0x08#8, 0x0C#8, 0x10#8, 0x14#8] ∧
    (withTurns panel [wr 0x08 7, rd 0x08]).turns =
      .host (.write 0x08 .w32 7) :: .host (.read 0x08 .w32) :: [] := by decide

theorem witness_CfgWritesOnlyUnlockedAndIdle :
    (0x18#8) ∈ [0x18#8, 0x1C#8, 0x20#8, 0x24#8, 0x28#8, 0x2C#8] ∧
    (0x2C#8) ∈ [0x18#8, 0x1C#8, 0x20#8, 0x24#8, 0x28#8, 0x2C#8] ∧
    (withTurns State.reset [wr 0x18 7]).turns = .host (.write 0x18 .w32 7) :: [] ∧
    (State.reset.status.cfgLock = false ∧ State.reset.busy = false) ∧
    ¬((running .clear [] []).status.cfgLock = false ∧ (running .clear [] []).busy = false) := by
  decide

theorem witness_StatusWriteClearsWrittenOnes :
    (withTurns panel [wr 0x04 0x1F00]).turns = .host (.write 0x04 .w32 0x1F00) :: [] := by decide

theorem witness_ReservedAndReadOnlyOffsets :
    (0x44#8).toNat % 4 = 0 ∧ 0x44 ≤ (0x44#8).toNat ∧ (0xFC#8).toNat % 4 = 0 ∧
    0x44 ≤ (0xFC#8).toNat ∧ (0x00#8).toNat % 4 = 0 ∧ 0x30 ≤ (0x30#8).toNat ∧
    0x30 ≤ (0x40#8).toNat ∧
    (withTurns panel [rd 0x44]).turns = .host (.read 0x44 .w32) :: [] ∧
    (withTurns panel [wr 0x30 5]).turns = .host (.write 0x30 .w32 5) :: [] := by decide

theorem witness_StatusAndPinsFields : 0 < 32 ∧ 31 < 32 := by decide

theorem witness_OnlyAlignedWordAccesses :
    (Width.w8 ≠ .w32) ∧ (0x06#8).toNat % 4 ≠ 0 ∧ (0xFF#8).toNat % 4 ≠ 0 ∧
    ((0xFC#8).toNat % 4 = 0 ∧ Width.w32 = .w32) := by decide

theorem witness_RegisterReadsShowTheFields :
    (0x40#8).toNat % 4 = 0 ∧
    (withTurns panel [rd 0x40]).turns = .host (.read 0x40 .w32) :: [] ∧
    0 < 32 ∧ 31 < 32 ∧ Inv (running .clear [] []) ∧ 19 ≤ 31 :=
  ⟨by decide, by decide, by decide, by decide, ending_inv.1, by decide⟩

/-- A read of the register written, unlocked and idle, and a read of another one. -/
theorem witness_CfgRegistersReadBack :
    (0x20#8) ∈ [0x18#8, 0x1C#8, 0x20#8, 0x24#8, 0x28#8, 0x2C#8] ∧ (0x20#8).toNat % 4 = 0 ∧
    (0x04#8).toNat % 4 = 0 ∧
    (withTurns panel [wr 0x20 7, rd 0x20]).turns =
      .host (.write 0x20 .w32 7) :: .host (.read 0x20 .w32) :: [] ∧
    (withTurns panel [wr 0x20 7, rd 0x04]).turns =
      .host (.write 0x20 .w32 7) :: .host (.read 0x04 .w32) :: [] ∧
    panel.status.cfgLock = false ∧ panel.op = none := by decide

/-- R39: LW is LAST_WIN[15:0] and LH is LAST_WIN[31:16]. -/
theorem test_last_win_layout :
    readRegister { panel with regs := { panel.regs with lastW := 100, lastH := 50 } } 0x38 =
      0x00320064 := by decide

theorem witness_BlockResetRestoresResetValues :
    (withTurns (running .clear [.wait 1] []) [.blockReset]).turns = .blockReset :: [] ∧
    (∃ s ts t, s.turns = .blockReset :: ts ∧ step s = .next t) ∧
    0x44 ≤ (0x44#8).toNat ∧ 0x44 ≤ (0xFF#8).toNat :=
  ⟨by decide, ⟨withTurns panel [.blockReset], [], _, rfl, rfl⟩, by decide, by decide⟩

theorem witness_RaiseRecordsAndAborts :
    (running .init [.wait 1] []).op = some .init ∧
    ∃ s t : State, Inv s ∧ s.op ≠ none ∧ step s = .next t ∧ t.op = none :=
  ⟨by decide, _, _, ending_inv.1, ending_inv.2.1, ending_inv.2.2, rfl⟩

/-- A step that sets each of the error bits, which were 0 before; steps of each kind that change ERR_OP;
a warning, an error and a failing transfer about to be recorded; a host write that clears a bit. -/
theorem witness_ErrOpNamesTheLastSetter :
    after (running .init [.raise .configuration] []) (·.status.cfgErr) = some true ∧
    after (running .render [.raise .precondition] []) (·.status.precondErr) = some true ∧
    after (running .writeData [.dataTransfer [.lit 0]] [.fail]) (·.status.busErr) = some true ∧
    after (running .setWindow [.winWarn] []) (fun t => (t.status.winWarn, t.status.errOp)) =
      some (true, 0x04) ∧
    after (withTurns State.reset [wr 0 0x0B]) (fun t => (t.status.opErr, t.status.errOp)) =
      some (true, 0x0B) ∧
    State.reset.status = Status.reset ∧
    (let s := running .clear [.dataTransfer [.lit 0]] [.fail];
      s.op = some .clear ∧ s.stalled = false ∧ s.todo = .dataTransfer [.lit 0] :: [] ∧
        (Micro.dataTransfer [.lit 0]).isTransfer = true ∧ s.outcomeAt 0 = .fail) ∧
    (let s := withTurns { State.reset with status := { Status.reset with winWarn := true } }
        [wr 0x04 0x1000];
      s.statusWord.getLsbD 12 = true ∧ after s (·.statusWord.getLsbD 12) = some false) := by decide

theorem witness_BlockNeverWritesHostMemory :
    step State.reset = .next State.reset ∧
    ∀ a v, State.reset.turns.head? ≠ some (.host (.store a v)) :=
  ⟨rfl, fun _ _ h => by cases h⟩

theorem witness_HostStoreWritesOneByte :
    let s := withTurns { State.reset with mem := [(5, 1)] } [.host (.store 5 0)]
    s.mem.wf = true ∧ s.turns = .host (.store 5 0) :: [] ∧ s.op = none ∧ s.todo = [] := by decide

/-- A pixel half sent, with a whole pixel after it, from the payload at 0x100. -/
def halfSent : State :=
  { running .renderRaw [.dataTransfer [.pixelHigh ⟨0, 1⟩ ⟨1, 2⟩ ⟨2, 3⟩],
      .dataTransfer [.pixelLow ⟨3, 4⟩ ⟨4, 5⟩ ⟨5, 6⟩], .dataTransfer [.pixelHigh ⟨3, 4⟩ ⟨4, 5⟩ ⟨5, 6⟩]] []
    with latch := { Latch.reset with addr := 0x100 } }

/-- R67: a store to green or blue of a pixel half sent changes nothing of what is still to be sent. -/
theorem test_half_sent_pixel_is_read :
    after (withTurns halfSent [.host (.store 0x101 9)]) (·.todo) = some halfSent.todo ∧
    after (withTurns halfSent [.host (.store 0x102 9)]) (·.todo) = some halfSent.todo := by decide

/-- R81, R201: red of a pixel half sent is old or new. -/
theorem test_half_sent_red_races :
    after (withTurns halfSent [.host (.store 0x100 9)]) (fun t => (bytesToSend t.todo).head?) =
      some (some (.pixelHigh
        (if Config.raceTakesNew 0 0 then ⟨0, 9⟩ else ⟨0, 1⟩) ⟨1, 2⟩ ⟨2, 3⟩)) := by
  cases h : Config.raceTakesNew 0 0 <;>
    simp [after, withTurns, halfSent, step, takeTurn, hostAccess, hostStore, running, raceProgram,
      Fetched.race, bytesToSend, Micro.outBytes, payloadAddress, State.reset, h]

/-- Stores to payload bytes that can still be read, and one to a byte that has been read; a pixel half
sent and one still to be sent. -/
theorem witness_RacingStoreGivesOldOrNewByte :
    (withTurns halfSent [.host (.store 0x104 9)]).turns = .host (.store 0x104 9) :: [] ∧
    halfSent.Races 0x104 ∧ halfSent.Races 0x100 ∧ ¬ halfSent.Races 0x101 ∧
    (bytesToSend halfSent.todo)[1]? = some (.pixelLow ⟨3, 4⟩ ⟨4, 5⟩ ⟨5, 6⟩) ∧
    (bytesToSend halfSent.todo)[2]? = some (.pixelHigh ⟨3, 4⟩ ⟨4, 5⟩ ⟨5, 6⟩) := by
  unfold State.Races
  decide

theorem reset_step : step State.reset = .next State.reset := rfl

theorem witness_StepKeepsInv :
    Inv State.reset ∧ Inv (running .setBrightness [.driveBacklight] []) ∧
      ∃ t, step (running .setBrightness [.driveBacklight] []) = .next t :=
  ⟨⟨by decide, by decide, by decide, by decide, by decide, by decide, by decide, by decide,
      by decide, by decide, by decide⟩,
    ⟨by decide, by decide, by decide, by decide, by decide, by decide, by decide, by decide,
      by decide, by decide, by decide⟩, _, rfl⟩

theorem witness_StepKeepsLifecycleInv :
    let s := { panel with
      op := some .init, todo := [.finishInit]
      status := { Status.reset with cfgLock := true } }
    LifecycleInv s ∧ ∃ t, step s = .next t :=
  ⟨⟨by decide, by decide, by decide, by decide⟩, _, rfl⟩

/-- A step that writes a CFG register, and a block reset. -/
theorem witness_ConfigurationChangesOnlyUnlocked :
    after (withTurns State.reset [wr 0x18 0x00020004]) (·.regs.cfg) ≠
      some (withTurns State.reset [wr 0x18 0x00020004]).regs.cfg ∧
    after (withTurns panel [.blockReset]) (·.regs.cfg) ≠ some panel.regs.cfg := by decide

theorem witness_TraceOnlyGrows :
    after (running .init [.wait 5] []) (·.trace) = some (State.reset.trace ++ [.wait 5]) := by decide

/-- Each kind of register does change in an operation that may change it. -/
theorem witness_ReadOnlyRegistersChangeOnlyInTheirOperations :
    panel.op = none ∧
    (let s := { panel with regs := { panel.regs with arg0 := 32768 } };
      s.op = none ∧ ∃ t, exec (.setBrightness false false) s = .next t ∧
        (seqRun 1 t).regs.blDuty ≠ s.regs.blDuty ∧ (seqRun 2 t).regs.blOut ≠ s.regs.blOut) ∧
    (∃ t, exec (.setWindow false false) panel = .next t ∧
      (seqRun 1 t).regs.lastW ≠ panel.regs.lastW ∧ (seqRun 2 t).dc ≠ panel.dc) ∧
    (∃ t, exec (.init false false) panel = .next t ∧
      (seqRun 5 t).rst ≠ panel.rst ∧ (seqRun 13 t).regs.orient ≠ panel.regs.orient) ∧
    (let s := { panel with status := { Status.reset with initDone := true, cfgLock := true } };
      s.op = none ∧ ∃ t, exec (.shutdown false false) s = .next t ∧
        (seqRun 20 t).status.initDone ≠ s.status.initDone ∧
        (seqRun 20 t).status.cfgLock ≠ s.status.cfgLock) :=
  ⟨by decide, ⟨by decide, _, rfl, by decide, by decide⟩, ⟨_, rfl, by decide, by decide⟩,
    ⟨_, rfl, by decide, by decide⟩, by decide, ⟨_, rfl, by decide, by decide⟩⟩

theorem witness_OnlyCtrlWritesStartOperations :
    let s := withTurns State.reset [wr 0 0x08]
    s.op = none ∧ ∃ t, step s = .next t ∧ t.op = some .clearWindow :=
  ⟨by decide, _, rfl, rfl⟩

/-- The panel after its own reset pulse, with an image that fits and a command that arms. -/
def knownPanel : State := { panel with
  trace := [.rstSet .low, .rstSet .high]
  regs := { panel.regs with arg0 := pack 0x2C 1, cfg := cfgOf 0x2C 2 0 0 0 } }

/-- The hypotheses of every clause, and the transfers of each operation completing. -/
theorem witness_AddressingArmsTheController :
    (Inv panel ∧ panel.op = none ∧ malformed panel.regs.cfg = false ∧
      (∃ t, exec (.init false false) panel = .next t ∧ panel.BusOk (transfersIn t.todo))) ∧
    (Inv knownPanel ∧ knownPanel.op = none ∧ knownPanel.panelView.known = true ∧
      imageUnfit (knownPanel.latchNow false false) = false ∧
      knownPanel.regs.arg0.extractLsb' 0 8 = knownPanel.params.cmdRamwr ∧
      (∃ t, exec (.writeCmd false false) knownPanel = .next t ∧
        knownPanel.BusOk (transfersIn t.todo))) ∧
    (withTurns panel [.blockReset]).turns = .blockReset :: [] := by
  refine ⟨⟨⟨by decide, by decide, by decide, by decide, by decide, by decide, by decide, by decide,
      by decide, by decide, by decide⟩, by decide, by decide, _, rfl, ?_⟩,
    ⟨⟨by decide, by decide, by decide, by decide, by decide, by decide, by decide, by decide,
      by decide, by decide, by decide⟩, by decide, by decide, by decide, by decide, _, rfl, ?_⟩,
    by decide⟩
  all_goals
    unfold State.BusOk
    decide

/-- R270, R272: a block reset in the middle of a command leaves dc = 1 and a panel whose state is
unknown, and data bytes sent after it are no command. -/
theorem test_reset_inside_command :
    let s := { running .writeCmd [.cmdTransfer 0x2C, .dcSet .high] [] with
      trace := [.rstSet .low, .rstSet .high, .dcSet .low], dc := .low }
    after (withTurns s [.blockReset]) (fun t => (t.dc, t.panelView.dc, panelArmed t)) =
      some (.high, .high, .unknown) ∧
    after (withTurns s [.blockReset]) (fun t => panelArmed (t.emit (.xfer [0x2C]))) =
      some .unknown := by decide

end Sys2Proof.Tests
end

/-! Proofs about the registers and the state (10_state.md). First the rules that later proofs use: what
the step of one turn is, and what a register read depends on. -/

namespace Sys2Proof.Machine

/-! ### The step of one turn -/

theorem step_turn {s : State} {tn : Turn} {ts : List Turn} (h : s.turns = tn :: ts) :
    step s = takeTurn tn { s with turns := ts } := by
  rw [step, h]

/-- An aligned word write to any register but CTRL is `writeRegister`. -/
theorem step_writeRegister {s : State} {off : BitVec 8} {v : Word} {ts : List Turn}
    (h : s.turns = .host (.write off .w32 v) :: ts) (h0 : off ≠ 0) (h4 : off.toNat % 4 = 0) :
    step s = .next (writeRegister off v { s with turns := ts }) := by
  have hl : accessLegal off .w32 = true := by simp [accessLegal, h4]
  rw [step_turn h, takeTurn, hostAccess, if_pos hl, if_neg h0]

theorem step_blockReset {s : State} {ts : List Turn} (h : s.turns = .blockReset :: ts) :
    step s = .next (blockReset { s with turns := ts }) :=
  step_turn h

/-! ### Register reads -/

/-- A register read depends on the registers, STATUS, the running operation and the two lines alone. -/
theorem readRegister_congr {s t : State} (hr : t.regs = s.regs) (hs : t.status = s.status)
    (ho : t.op = s.op) (hd : t.dc = s.dc) (hrst : t.rst = s.rst) (off : BitVec 8) :
    readRegister t off = readRegister s off := by
  simp only [readRegister, State.statusWord, State.busy, State.pinsWord, hr, hs, ho, hd, hrst]

theorem readRegister_reserved (s : State) {off : BitVec 8} (h : 0x44 ≤ off.toNat) :
    readRegister s off = 0 := by
  unfold readRegister
  split
  iterate 16 omega
  rfl

/-! ### STATUS and PINS bit by bit -/

theorem flagBit_getLsbD (b : Bool) (i : Nat) {k : Nat} (hk : k < 32) :
    (flagBit b i).getLsbD k = (b && decide (k = i)) := by
  cases b with
  | false => simp [flagBit]
  | true =>
    by_cases h : k = i
    · subst h
      simp [flagBit, hk]
    · have hne : i ≤ k → k - i ≠ 0 := by omega
      simpa [flagBit, h, hk] using hne

/-- The layout of STATUS (10_state.md R24), each of the 32 bits on its own. -/
theorem statusWord_getLsbD (s : State) {i : Nat} (hi : i < 32) :
    s.statusWord.getLsbD i =
      if i = 0 then s.busy else if i = 1 then s.status.initDone else if i = 2 then s.status.cfgLock
      else if i = 8 then s.status.cfgErr else if i = 9 then s.status.precondErr
      else if i = 10 then s.status.busErr else if i = 11 then s.status.opErr
      else if i = 12 then s.status.winWarn
      else if 16 ≤ i ∧ i ≤ 23 then s.status.errOp.getLsbD (i - 16) else false := by
  simp only [State.statusWord, BitVec.getLsbD_or, flagBit_getLsbD _ _ hi, BitVec.getLsbD_shiftLeft,
    BitVec.getLsbD_setWidth]
  interval_cases i <;> simp

/-- The layout of PINS (10_state.md R41). -/
theorem pinsWord_getLsbD (s : State) {i : Nat} (hi : i < 32) :
    s.pinsWord.getLsbD i =
      if i = 0 then decide (s.dc = .high) else if i = 1 then decide (s.rst = .high)
      else if i = 2 then decide (s.regs.blOut ≠ 0) else false := by
  have hl : ∀ l : Level, l.isHigh = decide (l = .high) := by intro l; cases l <;> rfl
  simp only [State.pinsWord, BitVec.getLsbD_or, flagBit_getLsbD _ _ hi, hl]
  split_ifs with h0 h1 h2
  · simp [h0]
  · simp [h1]
  · simp [h2, bne, beq_eq_decide]
  · simp [h0, h1, h2]

/-- Settles O41, from the layouts of the two words bit by bit. -/
theorem statusAndPinsFields : Obligations.StatusAndPinsFields :=
  ⟨fun s _ hi => ⟨statusWord_getLsbD s hi, pinsWord_getLsbD s hi⟩, by decide⟩

/-! ### Host writes to STATUS and to CFG registers -/

/-- Writing ones to STATUS clears the bits 8 to 12 that are written, and no other (10_state.md R25). -/
theorem statusWord_writeOneToClear (s : State) (v : Word) {i : Nat} (hi : i < 32) :
    { s with status := s.status.writeOneToClear v }.statusWord.getLsbD i =
      (s.statusWord.getLsbD i && !(decide (8 ≤ i ∧ i ≤ 12) && v.getLsbD i)) := by
  rw [statusWord_getLsbD _ hi, statusWord_getLsbD _ hi]
  by_cases h : 8 ≤ i ∧ i ≤ 12
  · obtain rfl | rfl | rfl | rfl | rfl : i = 8 ∨ i = 9 ∨ i = 10 ∨ i = 11 ∨ i = 12 := by omega
    all_goals simp [Status.writeOneToClear]
  · have : i ≠ 8 ∧ i ≠ 9 ∧ i ≠ 10 ∧ i ≠ 11 ∧ i ≠ 12 := by omega
    simp [h, this, Status.writeOneToClear, State.busy]

/-- Settles O40: the step is `Status.writeOneToClear`, whose bits `statusWord_writeOneToClear` gives. -/
theorem statusWriteClearsWrittenOnes : Obligations.StatusWriteClearsWrittenOnes := by
  intro s v ts h
  exact ⟨_, step_writeRegister h (by decide) (by decide),
    fun i hi => statusWord_writeOneToClear { s with turns := ts } v hi, rfl⟩

theorem cfgWritable_iff (s : State) :
    s.cfgWritable = true ↔ s.status.cfgLock = false ∧ s.busy = false := by
  simp [State.cfgWritable]

theorem writeCfg_of_writable {s : State} (h : s.cfgWritable = true) (f : CfgRegs → CfgRegs) :
    writeCfg f s = { s with regs := { s.regs with cfg := f s.regs.cfg } } :=
  if_pos h

theorem writeCfg_of_not_writable {s : State} (h : ¬ s.cfgWritable = true) (f : CfgRegs → CfgRegs) :
    writeCfg f s = s :=
  if_neg h

/-- The value a CFG register takes when `v` is written to it: the reserved bits of CFG_MODE are forced
to 0 (10_state.md R36). -/
def CfgRegs.store (off : BitVec 8) (v : Word) (c : CfgRegs) : CfgRegs where
  size := if off = 0x18 then v else c.size
  offset := if off = 0x1C then v else c.offset
  mode := if off = 0x20 then v &&& cfgModeWritable else c.mode
  spiHz := if off = 0x24 then v else c.spiHz
  blHz := if off = 0x28 then v else c.blHz
  fps := if off = 0x2C then v else c.fps

/-- A write to a CFG offset is one store into the configuration, guarded as `writeCfg` says. -/
theorem writeRegister_cfg {off : BitVec 8}
    (h : off ∈ [0x18#8, 0x1C#8, 0x20#8, 0x24#8, 0x28#8, 0x2C#8]) (v : Word) (s : State) :
    writeRegister off v s = writeCfg (CfgRegs.store off v) s := by
  simp only [List.mem_cons, List.not_mem_nil, or_false] at h
  rcases h with rfl | rfl | rfl | rfl | rfl | rfl <;> rfl

/-- Settles O39: the step is a guarded store into the configuration. -/
theorem cfgWritesOnlyUnlockedAndIdle : Obligations.CfgWritesOnlyUnlockedAndIdle := by
  intro s off v ts hoff h
  have hword : ∀ o ∈ [0x18#8, 0x1C#8, 0x20#8, 0x24#8, 0x28#8, 0x2C#8], o ≠ 0 ∧ o.toNat % 4 = 0 := by
    decide
  obtain ⟨h0, h4⟩ := hword off hoff
  rw [step_writeRegister h h0 h4, writeRegister_cfg hoff, ← cfgWritable_iff]
  exact ⟨fun hw => congrArg _ (writeCfg_of_writable (s := { s with turns := ts }) hw _),
    fun hw => congrArg _ (writeCfg_of_not_writable (s := { s with turns := ts }) hw _)⟩

/-! ### The reset state -/

/-- Registers, STATUS and lines hold the values of 10_state.md R49 and no operation runs. -/
structure State.AtReset (t : State) : Prop where
  regs : t.regs = Regs.reset
  status : t.status = Status.reset
  op : t.op = none
  dc : t.dc = .high
  rst : t.rst = .high
  pwmOut : t.pwmOut = 0

theorem atReset_reset : State.reset.AtReset := ⟨rfl, rfl, rfl, rfl, rfl, rfl⟩

theorem atReset_blockReset (s : State) : (blockReset s).AtReset := ⟨rfl, rfl, rfl, rfl, rfl, rfl⟩

theorem readRegister_atReset {t : State} (h : t.AtReset) (off : BitVec 8) :
    readRegister t off = readRegister State.reset off :=
  readRegister_congr h.regs h.status h.op h.dc h.rst off

/-- With an output value of 0 the `bl` line is low, at any phase of the PWM counter. -/
theorem blLine_atReset {t : State} (h : t.AtReset) : t.blLine = .low := by
  have hm : Regs.reset.cfg.blm = false := rfl
  simp [State.blLine, h.regs, h.pwmOut, hm, pwmHighTicks]

/-- Settles O45: both the reset state and the state after a block reset are `AtReset`, and an idle
sequencer emits nothing. -/
theorem blockResetRestoresResetValues : Obligations.BlockResetRestoresResetValues := by
  refine ⟨fun s ts h => ⟨_, step_blockReset h, rfl, rfl, fun n => ?_⟩, fun t ht => ?_⟩
  · rw [seqRun_idle (blockReset_op _), blockReset_trace]
  · have h : t.AtReset := by
      obtain rfl | ⟨s, ts, hs, hstep⟩ := ht
      · exact atReset_reset
      · rw [step_blockReset hs] at hstep
        cases hstep
        exact atReset_blockReset _
    refine ⟨h.op, h.dc, h.rst, blLine_atReset h, fun off hoff => ?_,
      fun off hoff => readRegister_reserved t hoff, ?_⟩
    · rw [readRegister_atReset h]
      revert off
      decide
    · simp only [readRegister_atReset h]
      decide

/-! ### The operand registers and the latch -/

/-- The state with other values in the four operand registers. -/
def State.withOperands (a b c d : Word) (s : State) : State :=
  { s with regs := { s.regs with arg0 := a, arg1 := b, addr := c, len := d } }

section operands

variable (a b c d : Word)

theorem raiseError_withOperands (e : ErrorKind) (s : State) :
    raiseError e (s.withOperands a b c d) = (raiseError e s).withOperands a b c d := by
  obtain ⟨_, _, _, op, _⟩ := s
  cases op <;> rfl

theorem reportWindow_withOperands (s : State) :
    reportWindow (s.withOperands a b c d) = (reportWindow s).withOperands a b c d := by
  obtain ⟨_, _, _, op, _⟩ := s
  cases op <;> rfl

theorem transfer_withOperands (bs : List Byte) {onFail : State → State}
    (hf : ∀ s : State, onFail (s.withOperands a b c d) = (onFail s).withOperands a b c d) (s : State) :
    transfer bs onFail (s.withOperands a b c d) = (transfer bs onFail s).withOperands a b c d := by
  have ho : (s.withOperands a b c d).outcomeAt 0 = s.outcomeAt 0 := rfl
  unfold transfer
  rw [ho]
  cases s.outcomeAt 0 with
  | ok => rfl
  | fail => exact hf (s.drawOutcome.emit (.xferFail bs))
  | stall => rfl

/-- No micro-step reads or writes an operand register. -/
theorem perform_withOperands (m : Micro) (s : State) :
    perform m (s.withOperands a b c d) = (perform m s).withOperands a b c d := by
  cases m with
  | raise e => exact raiseError_withOperands a b c d e s
  | winWarn => exact reportWindow_withOperands a b c d s
  | cmdTransfer x =>
    exact transfer_withOperands a b c d _
      (fun s => raiseError_withOperands a b c d .busIO (s.driveDc .high)) s
  | dataTransfer x =>
    exact transfer_withOperands a b c d _ (raiseError_withOperands a b c d .busIO) s
  | _ => rfl

theorem seqStep_withOperands (s : State) :
    seqStep (s.withOperands a b c d) = (seqStep s).withOperands a b c d := by
  obtain ⟨h, hop | hst⟩ | ⟨hop, hst, htodo, h⟩ | ⟨hop, hst, m, ms, htodo, h⟩ := seqStep_cases s
  · rw [h, seqStep_idle (s := s.withOperands a b c d) hop]
  · rw [h, seqStep_stalled (s := s.withOperands a b c d) hst]
  · rw [h, seqStep_end (s := s.withOperands a b c d) hop hst htodo]
    rfl
  · rw [h, seqStep_perform (s := s.withOperands a b c d) hop hst htodo, ← perform_withOperands]
    rfl

theorem seqRun_withOperands (n : Nat) (s : State) :
    seqRun n (s.withOperands a b c d) = (seqRun n s).withOperands a b c d := by
  induction n generalizing s with
  | zero => rfl
  | succ n ih => rw [seqRun_succ, seqRun_succ, seqStep_withOperands, ih]

end operands

/-- Every instruction but NOP latches the operands and its own omission bits when it starts an
operation (10_state.md R43). -/
theorem exec_latch {s : State} (h : s.op = none) {i : Instr} (hi : i ≠ .nop) :
    ∃ t, exec i s = .next t ∧ t.latch = s.latchNow i.omits.1 i.omits.2 := by
  obtain ⟨o, ho⟩ := operationOf_isSome hi
  exact ⟨_, (exec_start ho s).1, by rw [startOperation_idle h]⟩

/-- While an operation runs, no register write other than to CTRL reaches the configuration, the latch
or the program. -/
theorem writeRegister_running {s : State} (h : s.op ≠ none) (off : BitVec 8) (v : Word) :
    (writeRegister off v s).regs.cfg = s.regs.cfg ∧ (writeRegister off v s).latch = s.latch ∧
      (writeRegister off v s).todo = s.todo := by
  obtain hw | ⟨-, hw⟩ | ⟨_, _, _, _, hw⟩ | ⟨-, hcfg, -⟩ := writeRegister_cases off v s
  · rw [hw]; exact ⟨rfl, rfl, rfl⟩
  · rw [hw]; exact ⟨rfl, rfl, rfl⟩
  · rw [hw]; exact ⟨rfl, rfl, rfl⟩
  · have hidle : s.busy = false := ((cfgWritable_iff s).1 hcfg).2
    exact absurd (by simpa [State.busy] using hidle) h

/-- What is written to an operand register is read back. -/
theorem readRegister_writeRegister_operand {off : BitVec 8}
    (h : off ∈ [0x08#8, 0x0C#8, 0x10#8, 0x14#8]) (v : Word) (s : State) :
    readRegister (writeRegister off v s) off = v := by
  simp only [List.mem_cons, List.not_mem_nil, or_false] at h
  rcases h with rfl | rfl | rfl | rfl <;> rfl

/-- Settles O8: the start latches, the micro-steps commute with every change of the operand registers,
and no register read sees the latch. -/
theorem operationReadsOnlyItsLatch : Obligations.OperationReadsOnlyItsLatch := by
  refine ⟨fun s x y hop i hi => ?_, fun s a b c d n _ => seqRun_withOperands a b c d n s,
    fun s off v hop => ?_, fun s l off => readRegister_congr rfl rfl rfl rfl rfl off⟩
  · have hom : i ≠ .nop ∧ i.omits = (x, y) := by
      simp only [List.mem_cons, List.not_mem_nil, or_false] at hi
      rcases hi with rfl | rfl | rfl | rfl | rfl | rfl | rfl | rfl | rfl | rfl <;> simp [Instr.omits]
    obtain ⟨hn, hxy⟩ := hom
    simpa [hxy, State.latchNow] using exec_latch hop hn
  · obtain ⟨hcfg, hlatch, htodo⟩ := writeRegister_running hop off v
    exact ⟨hcfg, hlatch, htodo, fun hoff => readRegister_writeRegister_operand hoff v s⟩

end Sys2Proof.Machine

/-! Proofs about the two memories (20_memory.md): which register accesses have a meaning, and that no
rule of the block writes host memory. -/

namespace Sys2Proof.Machine

/-! ### The accesses that have a meaning -/

theorem accessLegal_iff (off : BitVec 8) (w : Width) :
    accessLegal off w = true ↔ w = .w32 ∧ off.toNat % 4 = 0 := by
  simp [accessLegal]

/-- A CTRL write answers a next state for every word, reserved operation codes included. -/
theorem writeCtrl_next (v : Word) (s : State) : ∃ t, writeCtrl v s = .next t := by
  obtain ⟨-, h⟩ | ⟨-, -, h⟩ | ⟨-, _, -, h⟩ := writeCtrl_cases v s <;> exact ⟨_, h⟩

/-- A legal read returns one value and changes nothing else. -/
theorem hostAccess_read_legal {off : BitVec 8} {w : Width} (h : accessLegal off w = true) (s : State) :
    hostAccess (.read off w) s = .next { s with reads := s.reads ++ [readRegister s off] } :=
  if_pos h

theorem hostAccess_read_illegal {off : BitVec 8} {w : Width} (h : ¬ accessLegal off w = true)
    (s : State) : hostAccess (.read off w) s = .refused (.notAlignedWord off w) :=
  if_neg h

/-- A legal write runs the word as an instruction at CTRL and is a register write anywhere else. -/
theorem hostAccess_write_legal {off : BitVec 8} {w : Width} (h : accessLegal off w = true) (v : Word)
    (s : State) : hostAccess (.write off w v) s =
      if off = 0 then writeCtrl v s else .next (writeRegister off v s) :=
  if_pos h

theorem hostAccess_write_illegal {off : BitVec 8} {w : Width} (h : ¬ accessLegal off w = true)
    (v : Word) (s : State) : hostAccess (.write off w v) s = .refused (.notAlignedWord off w) :=
  if_neg h

theorem hostAccess_write_next {off : BitVec 8} {w : Width} (h : accessLegal off w = true) (v : Word)
    (s : State) : ∃ t, hostAccess (.write off w v) s = .next t := by
  rw [hostAccess_write_legal h]
  by_cases h0 : off = 0
  · rw [if_pos h0]
    exact writeCtrl_next v s
  · exact ⟨_, if_neg h0⟩

/-- Settles O43: the step of an access is `hostAccess`, whose two answers `accessLegal` tells apart. -/
theorem onlyAlignedWordAccesses : Obligations.OnlyAlignedWordAccesses := by
  intro s off w v ts
  rw [step_turn (ts := ts) rfl, step_turn (ts := ts) rfl]
  constructor
  · intro hbad
    have hl : ¬ accessLegal off w = true := by
      rw [accessLegal_iff, not_and_or]
      exact hbad
    exact ⟨hostAccess_read_illegal hl _, hostAccess_write_illegal hl v _⟩
  · intro hgood
    have hl : accessLegal off w = true := (accessLegal_iff off w).2 hgood
    exact ⟨⟨_, hostAccess_read_legal hl _⟩, hostAccess_write_next hl v _⟩

/-! ### Host memory -/

@[simp] theorem pwmTick_mem (s : State) : (pwmTick s).mem = s.mem := rfl

@[simp] theorem pollIdle_mem (s : State) : (pollIdle s).mem = s.mem := by
  unfold pollIdle
  split <;> rfl

/-- A transfer keeps host memory where its failure does. -/
theorem transfer_mem (bs : List Byte) {onFail : State → State}
    (hf : ∀ u : State, (onFail u).mem = u.mem) (s : State) :
    (transfer bs onFail s).mem = s.mem := by
  obtain ⟨-, h⟩ | ⟨-, h⟩ | ⟨-, h⟩ := transfer_cases bs onFail s <;> simp [h, hf]

@[simp] theorem perform_mem (m : Micro) (s : State) : (perform m s).mem = s.mem := by
  cases m with
  | cmdTransfer b =>
    exact transfer_mem [b] (fun u => raiseError_mem .busIO (u.driveDc .high)) s
  | dataTransfer c => exact transfer_mem _ (fun u => raiseError_mem .busIO u) s
  | raise e => exact raiseError_mem e s
  | winWarn => exact reportWindow_mem s
  | _ => rfl

@[simp] theorem seqStep_mem (s : State) : (seqStep s).mem = s.mem := by
  obtain ⟨h, -⟩ | ⟨-, -, -, h⟩ | ⟨-, -, m, ms, -, h⟩ := seqStep_cases s <;> simp [h]

@[simp] theorem writeRegister_mem (off : BitVec 8) (v : Word) (s : State) :
    (writeRegister off v s).mem = s.mem := by
  obtain h | ⟨-, h⟩ | ⟨_, _, _, _, h⟩ | ⟨-, -, _, -, h⟩ := writeRegister_cases off v s <;> rw [h]

/-- Starting an operation reads host memory into the program and leaves it as it is. -/
theorem writeCtrl_mem {v : Word} {s t : State} (h : writeCtrl v s = .next t) : t.mem = s.mem := by
  obtain ⟨-, hw⟩ | ⟨-, -, hw⟩ | ⟨hidle, o, -, hw⟩ := writeCtrl_cases v s
  all_goals cases hw.symm.trans h
  · rfl
  · rfl
  · rw [startOperation_idle hidle]

/-- Every turn but the host's own store leaves host memory as it is. -/
theorem TurnEffect.mem_eq {s t : State} {tn : Turn} (h : TurnEffect s t tn)
    (hns : ∀ a v, tn ≠ .host (.store a v)) : t.mem = s.mem := by
  cases h with
  | read _ _ h => rw [h]
  | ctrl v h => exact writeCtrl_mem h
  | write off v _ _ h => rw [h, writeRegister_mem]
  | store a v _ => exact absurd rfl (hns a v)
  | waitIdle h => rw [h, pollIdle_mem]
  | sequencer h => rw [h, seqStep_mem]
  | pwmTick h => rw [h, pwmTick_mem]
  | blockReset h => rw [h, blockReset_mem]

/-- A step whose turn is not a host store leaves host memory as it is. -/
theorem step_mem {s t : State} (h : step s = .next t)
    (hns : ∀ a v, s.turns.head? ≠ some (.host (.store a v))) : t.mem = s.mem := by
  obtain ⟨-, rfl⟩ | ⟨tn, ts, hturns, heff⟩ := step_cases h
  · exact seqStep_mem s
  · refine heff.mem_eq fun a v htn => hns a v ?_
    rw [hturns, htn, List.head?_cons]

/-- Settles O48: the whole memory is kept, so every byte of it is. -/
theorem blockNeverWritesHostMemory : Obligations.BlockNeverWritesHostMemory := by
  intro s t h hns a
  rw [step_mem h hns]

end Sys2Proof.Machine

/-! Proofs about the instructions as they arrive in the CTRL word (30_encoding.md). First the rules they
use: what a CTRL write does in each of its three cases, and what an operation that has started leaves
where every transfer completes. -/

namespace Sys2Proof.Machine

/-! ### The CTRL write, one equation per case -/

theorem step_writeCtrl {s : State} {v : Word} {ts : List Turn}
    (h : s.turns = .host (.write 0 .w32 v) :: ts) : step s = writeCtrl v { s with turns := ts } := by
  have hl : accessLegal 0 .w32 = true := by decide
  rw [step_turn h, takeTurn, hostAccess_write_legal hl, if_pos rfl]

/-- OP 0x00 is discarded (30_encoding.md R99). -/
theorem writeCtrl_nop {v : Word} (h : ctrlOp v = 0) (s : State) : writeCtrl v s = .next s := by
  rw [writeCtrl, decode_zero h]
  rfl

/-- No operation has the code of NOP or a reserved one. -/
theorem operation_code_defined (o : Operation) : o.code ≠ 0 ∧ o.code.toNat < 0x0B := by
  cases o <;> decide

/-- A running operation or a reserved OP makes a CTRL write a rejection (R100). -/
theorem writeCtrl_rejected {v : Word} {s : State} (h0 : ctrlOp v ≠ 0)
    (hr : s.op ≠ none ∨ 0x0B ≤ (ctrlOp v).toNat) :
    writeCtrl v s = .next (raiseReject (ctrlOp v) s) := by
  obtain ⟨h, -⟩ | ⟨-, -, hw⟩ | ⟨hidle, o, hc, -⟩ := writeCtrl_cases v s
  · exact absurd h h0
  · exact hw
  · have hlt := (operation_code_defined o).2
    rw [hc] at hlt
    rcases hr with hr | hr
    · exact absurd hidle hr
    · omega

/-- The word with an operation's code asks for the start of that operation (R92). -/
theorem writeCtrl_start {v : Word} {o : Operation} (hc : o.code = ctrlOp v) (s : State) :
    writeCtrl v s =
      .next (startOperation o (ctrlOmitX1 v) (ctrlOmitY1 v) (programOf s o) s) := by
  unfold writeCtrl decode
  rw [← hc]
  cases o <;> rfl

/-- Settles O5: a word with OP 0x00 is decoded as NOP, whose exec is the state itself. -/
theorem nopHasNoEffect : Obligations.NopHasNoEffect :=
  ⟨fun _ => rfl, fun _ _ _ hv hturns => (step_writeCtrl hturns).trans (writeCtrl_nop hv _)⟩

/-! ### The sequencer and the latch -/

theorem raiseError_setLatch (e : ErrorKind) (s : State) (l : Latch) :
    raiseError e { s with latch := l } = { raiseError e s with latch := l } := by
  obtain ⟨_, _, _, op, _⟩ := s
  cases op <;> rfl

theorem reportWindow_setLatch (s : State) (l : Latch) :
    reportWindow { s with latch := l } = { reportWindow s with latch := l } := by
  obtain ⟨_, _, _, op, _⟩ := s
  cases op <;> rfl

theorem transfer_setLatch (bs : List Byte) {onFail : State → State} {l : Latch}
    (hf : ∀ u : State, onFail { u with latch := l } = { onFail u with latch := l }) (s : State) :
    transfer bs onFail { s with latch := l } = { transfer bs onFail s with latch := l } := by
  have ho : State.outcomeAt { s with latch := l } 0 = s.outcomeAt 0 := rfl
  unfold transfer
  rw [ho]
  cases s.outcomeAt 0 with
  | ok => rfl
  | fail => exact hf (s.drawOutcome.emit (.xferFail bs))
  | stall => rfl

/-- The actuation mode (`blm`) is all of the latch that a micro-step reads. -/
theorem perform_setLatch (m : Micro) {s : State} {l : Latch} (h : l.cfg.blm = s.latch.cfg.blm) :
    perform m { s with latch := l } = { perform m s with latch := l } := by
  cases m with
  | raise e => exact raiseError_setLatch e s l
  | winWarn => exact reportWindow_setLatch s l
  | cmdTransfer b =>
    exact transfer_setLatch [b] (fun u => raiseError_setLatch .busIO (u.driveDc .high) l) s
  | dataTransfer c => exact transfer_setLatch _ (fun u => raiseError_setLatch .busIO u l) s
  | driveBacklight =>
    simp only [perform, h]
    rfl
  | _ => rfl

theorem transfer_latch (bs : List Byte) {onFail : State → State}
    (hf : ∀ u : State, (onFail u).latch = u.latch) (s : State) :
    (transfer bs onFail s).latch = s.latch := by
  obtain ⟨-, h⟩ | ⟨-, h⟩ | ⟨-, h⟩ := transfer_cases bs onFail s <;> simp [h, hf]

/-- No micro-step writes the latch: it is taken at operation start (10_state.md R43). -/
@[simp] theorem perform_latch (m : Micro) (s : State) : (perform m s).latch = s.latch := by
  cases m with
  | cmdTransfer b =>
    exact transfer_latch [b] (fun u => raiseError_latch .busIO (u.driveDc .high)) s
  | dataTransfer c => exact transfer_latch _ (fun u => raiseError_latch .busIO u) s
  | raise e => exact raiseError_latch e s
  | winWarn => exact reportWindow_latch s
  | _ => rfl

@[simp] theorem seqStep_latch (s : State) : (seqStep s).latch = s.latch := by
  obtain ⟨h, -⟩ | ⟨-, -, -, h⟩ | ⟨-, -, m, ms, -, h⟩ := seqStep_cases s <;> simp [h]

@[simp] theorem seqRun_latch (n : Nat) (s : State) : (seqRun n s).latch = s.latch := by
  induction n generalizing s with
  | zero => rfl
  | succ n ih => rw [seqRun_succ, ih, seqStep_latch]

theorem seqStep_setLatch {s : State} {l : Latch} (h : l.cfg.blm = s.latch.cfg.blm) :
    seqStep { s with latch := l } = { seqStep s with latch := l } := by
  obtain ⟨hs, hop | hst⟩ | ⟨hop, hst, htodo, hs⟩ | ⟨hop, hst, m, ms, htodo, hs⟩ := seqStep_cases s
  · rw [hs, seqStep_idle (s := { s with latch := l }) hop]
  · rw [hs, seqStep_stalled (s := { s with latch := l }) hst]
  · rw [hs, seqStep_end (s := { s with latch := l }) hop hst htodo]
    rfl
  · rw [hs, seqStep_perform (s := { s with latch := l }) hop hst htodo]
    exact perform_setLatch m (s := { s with todo := ms, stepIx := s.stepIx + 1 }) h

/-- A run of the sequencer commutes with every change of the latch that keeps the actuation mode. -/
theorem seqRun_setLatch (n : Nat) {s : State} {l : Latch} (h : l.cfg.blm = s.latch.cfg.blm) :
    seqRun n { s with latch := l } = { seqRun n s with latch := l } := by
  induction n generalizing s with
  | zero => rfl
  | succ n ih => rw [seqRun_succ, seqRun_succ, seqStep_setLatch h, ih (by rw [seqStep_latch, h])]

/-! ### The ignored bits of a CTRL word -/

/-- SET_WINDOW is the one operation whose program depends on the omission bits (30_encoding.md R97). -/
theorem programOf_ignores_omits {o : Operation} (ho : o ≠ .setWindow) (s : State) (x y x' y' : Bool) :
    programOf s o (s.latchNow x y) = programOf s o (s.latchNow x' y') := by
  cases o with
  | setWindow => exact absurd rfl ho
  | _ => rfl

/-- Two starts of one operation whose omission bits agree wherever they are read: the states differ in
the latched bits alone. -/
theorem startOperation_omits {s : State} (hidle : s.op = none) (o : Operation) {x y x' y' : Bool}
    (h : o = .setWindow → x = x' ∧ y = y') :
    startOperation o x' y' (programOf s o) s =
      { startOperation o x y (programOf s o) s with latch := s.latchNow x' y' } := by
  have hprog : programOf s o (s.latchNow x' y') = programOf s o (s.latchNow x y) := by
    by_cases ho : o = .setWindow
    · obtain ⟨rfl, rfl⟩ := h ho
      rfl
    · exact programOf_ignores_omits ho s x' y' x y
  rw [startOperation_idle hidle, startOperation_idle hidle, hprog]

/-- Settles O7: NOP and a rejection do not look at the ignored bits; an operation start puts them into
the latch only, where no micro-step reads them. -/
theorem ignoredCtrlBitsChangeNothing : Obligations.IgnoredCtrlBitsChangeNothing := by
  intro s v w hop hwin
  obtain ⟨h0, hv⟩ | ⟨h0, hr, hv⟩ | ⟨hidle, o, hc, hv⟩ := writeCtrl_cases v s
  · exact ⟨s, s, hv, writeCtrl_nop (hop ▸ h0) s, fun n => ⟨_, _, rfl⟩⟩
  · refine ⟨_, _, hv, ?_, fun n => ⟨_, _, rfl⟩⟩
    rw [hop] at h0 hr ⊢
    exact writeCtrl_rejected h0 hr
  · refine ⟨_, _, hv, writeCtrl_start (hc.trans hop) s,
      fun n => ⟨ctrlOmitX1 w, ctrlOmitY1 w, ?_⟩⟩
    have hbits : o = .setWindow → ctrlOmitX1 v = ctrlOmitX1 w ∧ ctrlOmitY1 v = ctrlOmitY1 w := by
      rintro rfl
      exact hwin hc.symm
    have hlatch : (startOperation o (ctrlOmitX1 v) (ctrlOmitY1 v) (programOf s o) s).latch =
        s.latchNow (ctrlOmitX1 v) (ctrlOmitY1 v) := by rw [startOperation_idle hidle]
    rw [startOperation_omits hidle o hbits, seqRun_setLatch n (by rw [hlatch]; rfl), seqRun_latch,
      hlatch]
    rfl

/-! ### An operation from its start to its end -/

/-- The state in which the operation `o` has started from `s` with its own program (40_transport.md
R142). -/
def State.begin (s : State) (o : Operation) (x y : Bool) : State :=
  { s with
    latch := s.latchNow x y, op := some o, stepIx := 0
    todo := programOf s o (s.latchNow x y), stalled := false }

/-- In an idle block every instruction but NOP begins its operation. -/
theorem exec_begin {s : State} (hidle : s.op = none) {i : Instr} {o : Operation}
    (h : operationOf i = some o) : exec i s = .next (s.begin o i.omits.1 i.omits.2) := by
  rw [(exec_start h s).1, startOperation_idle hidle]
  rfl

theorem started_begin (s : State) (o : Operation) (x y : Bool) :
    Started s (s.begin o x y) o (s.latchNow x y) := rfl

/-- Where its transfers complete, an operation that begins performs its whole program `ms` and ends. -/
theorem begin_finish {s : State} {o : Operation} {x y : Bool} {ms : List Micro}
    (hprog : programOf s o (s.latchNow x y) = ms) (hgo : ∀ m ∈ ms, m.goesOn = true)
    (hok : s.BusOk (transfersIn ms)) :
    (s.begin o x y).finish =
      { okFold ms (s.begin o x y) with todo := [], stepIx := ms.length, op := none } := by
  subst hprog
  rw [← Nat.zero_add (List.length _)]
  exact finish_program (s := s.begin o x y) (Option.some_ne_none o) rfl hgo hok

theorem okFold_stalled {ms : List Micro} (hgo : ∀ m ∈ ms, m.goesOn = true) (s : State) :
    (okFold ms s).stalled = s.stalled := by
  induction ms generalizing s with
  | nil => rfl
  | cons m ms ih =>
    have hms : ∀ m' ∈ ms, m'.goesOn = true := fun m' h => hgo m' (List.mem_cons_of_mem m h)
    rw [okFold_cons, ih hms, okStep_stalled (hgo m List.mem_cons_self)]

/-- What no micro-step of a running operation touches: host memory, the parameters, the inputs and what
the host has read, the PWM phase and the latch. -/
structure Untouched (s u : State) : Prop where
  mem : u.mem = s.mem
  params : u.params = s.params
  turns : u.turns = s.turns
  reads : u.reads = s.reads
  resetMark : u.resetMark = s.resetMark
  pwmCnt : u.pwmCnt = s.pwmCnt
  latch : u.latch = s.latch

theorem Untouched.trans {s t u : State} (h : Untouched s t) (h' : Untouched t u) : Untouched s u where
  mem := h'.mem.trans h.mem
  params := h'.params.trans h.params
  turns := h'.turns.trans h.turns
  reads := h'.reads.trans h.reads
  resetMark := h'.resetMark.trans h.resetMark
  pwmCnt := h'.pwmCnt.trans h.pwmCnt
  latch := h'.latch.trans h.latch

theorem okStep_untouched (m : Micro) (s : State) : Untouched s (okStep m s) := by
  cases m with
  | raise e => constructor <;> simp [okStep, perform]
  | winWarn => constructor <;> simp [okStep, perform]
  | _ => exact ⟨rfl, rfl, rfl, rfl, rfl, rfl, rfl⟩

theorem okFold_untouched (ms : List Micro) (s : State) : Untouched s (okFold ms s) := by
  induction ms generalizing s with
  | nil => exact ⟨rfl, rfl, rfl, rfl, rfl, rfl, rfl⟩
  | cons m ms ih => exact (okStep_untouched m s).trans (ih (okStep m s))

/-- How an instruction whose transfers complete is shown to be `Completed`: `u` is the state after its
program, of which the lines, the registers, STATUS, the trace and the PWM waveform are left to check. -/
theorem completed_begin {s u : State} {o : Operation} {x y : Bool} {ms : List Micro} {r : Regs}
    {st : Status} {evs : List Event} (hprog : programOf s o (s.latchNow x y) = ms)
    (hgo : ∀ m ∈ ms, m.goesOn = true) (hok : s.BusOk (transfersIn ms))
    (hu : okFold ms (s.begin o x y) = u) (hlines : u.dc = .high ∧ u.rst = .high) (hregs : u.regs = r)
    (hstatus : u.status = st) (htrace : u.trace = s.trace ++ evs)
    (hcount : transfersIn ms = evs.countP Event.isXfer)
    (hpwm : evs.any Event.isBlSet = false → u.pwmOut = s.pwmOut ∧ u.freeIx = s.freeIx) :
    Completed s (s.begin o x y).finish (s.latchNow x y) r st evs := by
  have hframe : Untouched (s.begin o x y) u := hu ▸ okFold_untouched ms _
  have hstalled : u.stalled = false := hu ▸ okFold_stalled hgo (s.begin o x y)
  have hbus := okFold_bus hgo (s.begin o x y)
  rw [hu, hcount] at hbus
  rw [begin_finish hprog hgo hok, hu]
  exact {
    idle := ⟨rfl, rfl, hstalled⟩
    lines := hlines
    latch := hframe.latch
    regs := hregs
    status := hstatus
    trace := htrace
    mem := hframe.mem
    params := hframe.params
    host := ⟨hframe.turns, hframe.reads, hframe.resetMark⟩
    bus := hbus
    pwm := ⟨hframe.pwmCnt, hpwm⟩ }

/-! ### WRITE_CMD -/

/-- Settles O11: the program of WRITE_CMD is one command frame. -/
theorem writeCmdSendsOneCommandByte : Obligations.WriteCmdSendsOneCommandByte := by
  rintro s x y ⟨hidle, -, hrst⟩ hok
  have hprog : programOf s .writeCmd (s.latchNow x y) = cmdFrame (s.regs.arg0.extractLsb' 0 8) := rfl
  exact ⟨s.begin .writeCmd x y, exec_begin hidle rfl, started_begin s .writeCmd x y,
    completed_begin hprog (cmdFrame_goesOn _) hok (okFold_cmdFrame _ _) ⟨rfl, hrst⟩ rfl rfl rfl rfl
      fun _ => ⟨rfl, rfl⟩⟩

/-! ### SET_BRIGHTNESS -/

/-- The clamp of 44_backlight.md R220 in integers. -/
theorem clampQ_toNat (v : Int) : ((clampQ v).toNat : Int) = max 0 (min 65536 v) := by
  unfold clampQ
  split_ifs with hneg hbig
  · rw [show (0 : Duty).toNat = 0 from rfl]
    omega
  · rw [show (65536 : Duty).toNat = 65536 from rfl]
    omega
  · rw [BitVec.toNat_ofInt]
    omega

/-- The output of 44_backlight.md R221: in binary mode full for every duty above 0. -/
theorem blout_eq (d : Duty) (blm : Bool) :
    blout d blm = if blm then (if 0 < d.toNat then 65536 else 0) else d := by
  have hd : 0 < d.toNat ↔ ¬ d = 0 := by
    rw [Nat.pos_iff_ne_zero, ne_eq, BitVec.toNat_eq]
    rfl
  simp only [blout, hd, ite_not]

/-- Settles O19: the two micro-steps set BL_DUTY to the clamped value and BL_OUT to `blout` of it; with
no transfer among them no bus outcome is asked for. -/
theorem setBrightnessClampsAndDrives : Obligations.SetBrightnessClampsAndDrives := by
  rintro s x y ⟨hidle, hlines⟩
  have hprog : programOf s .setBrightness (s.latchNow x y) =
    [.setDuty (clampQ s.regs.arg0.toInt), .driveBacklight] := rfl
  have hgo : ∀ m ∈ [.setDuty (clampQ s.regs.arg0.toInt), .driveBacklight], Micro.goesOn m = true := by
    simp [Micro.goesOn]
  have hok : s.BusOk 0 := fun k hk => absurd hk k.not_lt_zero
  exact ⟨s.begin .setBrightness x y, exec_begin hidle rfl, started_begin s .setBrightness x y,
    clampQ s.regs.arg0.toInt, blout (clampQ s.regs.arg0.toInt) s.regs.cfg.blm,
    clampQ_toNat _, blout_eq _ _,
    completed_begin hprog hgo hok rfl hlines rfl rfl rfl rfl fun hnone => nomatch hnone⟩

end Sys2Proof.Machine

/-! Proofs about the Transport (40_transport.md): what a failed transfer does to the operation it is in,
how an operation can end, and what the pieces of a data frame are. -/

namespace Sys2Proof.Machine

/-! ### A failed transfer -/

/-- An error ends the running operation with nothing left to do (60_exceptions.md R245). -/
theorem raiseError_todo {s : State} (e : ErrorKind) (h : s.op ≠ none) :
    (raiseError e s).todo = [] := by
  obtain ⟨o, ho⟩ := Option.ne_none_iff_exists'.1 h
  rw [raiseError_running _ _ ho]

theorem raiseError_errOp {s : State} {o : Operation} (e : ErrorKind) (h : s.op = some o) :
    (raiseError e s).status.errOp = o.code := by
  rw [raiseError_running _ _ h]
  cases e <;> split <;> rfl

theorem raiseError_busErr {s : State} (h : s.op ≠ none) :
    (raiseError .busIO s).status.busErr = true := by
  obtain ⟨o, ho⟩ := Option.ne_none_iff_exists'.1 h
  rw [raiseError_running _ _ ho]
  split <;> rfl

theorem transfer_fail {s : State} (h : s.outcomeAt 0 = .fail) (bs : List Byte)
    (onFail : State → State) :
    transfer bs onFail s = onFail (s.drawOutcome.emit (.xferFail bs)) := by
  simp [transfer, h]

section failing

variable {s : State} {ms : List Micro}

theorem seqStep_cmdTransfer_fail {b : Byte} (hop : s.op ≠ none) (hst : s.stalled = false)
    (ht : s.todo = .cmdTransfer b :: ms) (hf : s.outcomeAt 0 = .fail) :
    seqStep s = failCommand
      ({ s with todo := ms, stepIx := s.stepIx + 1 }.drawOutcome.emit (.xferFail [b])) := by
  rw [seqStep_perform hop hst ht]
  exact transfer_fail (s := { s with todo := ms, stepIx := s.stepIx + 1 }) hf [b] failCommand

theorem seqStep_dataTransfer_fail {c : List OutByte} (hop : s.op ≠ none) (hst : s.stalled = false)
    (ht : s.todo = .dataTransfer c :: ms) (hf : s.outcomeAt 0 = .fail) :
    seqStep s = failData ({ s with todo := ms, stepIx := s.stepIx + 1 }.drawOutcome.emit
      (.xferFail (c.map OutByte.value))) := by
  rw [seqStep_perform hop hst ht]
  exact transfer_fail (s := { s with todo := ms, stepIx := s.stepIx + 1 }) hf _ failData

/-- A failing `Cmd(b)` has aborted after two steps: the drive of dc = 0 and the transfer, which restores
dc = 1 itself (40_transport.md R135). -/
theorem seqRun_cmdFrame_fail {b : Byte} (hop : s.op ≠ none) (hst : s.stalled = false)
    (ht : s.todo = cmdFrame b ++ ms) (hf : s.outcomeAt 0 = .fail) :
    seqRun 2 s = failCommand ({ s.driveDc .low with
      todo := .dcSet .high :: ms, stepIx := s.stepIx + 2 }.drawOutcome.emit (.xferFail [b])) := by
  rw [seqRun_succ, seqStep_perform hop hst ht, seqRun_succ, seqRun_zero]
  exact seqStep_cmdTransfer_fail hop hst rfl hf

end failing

/-- Settles O25: the failing step is one `raiseError`, which leaves the block idle. -/
theorem failedDataStopsTheFrame : Obligations.FailedDataStopsTheFrame := by
  intro s o c ms hop hst ht hf
  have hne : s.op ≠ none := by simp [hop]
  rw [seqStep_dataTransfer_fail hne hst ht hf]
  exact ⟨raiseError_trace _ _, raiseError_op _ _, raiseError_todo _ hne, raiseError_busErr hne,
    raiseError_errOp _ hop, raiseError_regs _ _, raiseError_dc _ _, raiseError_busCount _ _,
    seqRun_idle (raiseError_op _ _)⟩

/-! ### How an operation ends -/

theorem transfer_op_of_not_fail {s : State} (h : s.outcomeAt 0 ≠ .fail) (bs : List Byte)
    (onFail : State → State) : (transfer bs onFail s).op = s.op := by
  obtain ⟨-, ht⟩ | ⟨hf, -⟩ | ⟨-, ht⟩ := transfer_cases bs onFail s
  · rw [ht]; rfl
  · exact absurd hf h
  · rw [ht]; rfl

/-- A micro-step that ends its operation is a failing check or a failing transfer; under the line
discipline it leaves dc = 1. -/
theorem perform_ends_dc_high {m : Micro} {ms : List Micro} {s : State}
    (hlines : linesDisciplined s.dc s.rst (m :: ms) = true) (hop : s.op ≠ none)
    (hend : (perform m s).op = none) : (perform m s).dc = .high := by
  cases m with
  | raise e =>
    have hdc : s.dc = .high := by simp_all [linesDisciplined]
    rw [perform, raiseError_dc, hdc]
  | cmdTransfer b =>
    by_cases hf : s.outcomeAt 0 = .fail
    · rw [perform, transfer_fail hf, failCommand, raiseError_dc, driveDc_dc]
    · exact absurd ((transfer_op_of_not_fail hf _ _).symm.trans hend) hop
  | dataTransfer c =>
    have hdc : s.dc = .high := by simp_all [linesDisciplined]
    by_cases hf : s.outcomeAt 0 = .fail
    · rw [perform, transfer_fail hf, failData, raiseError_dc, emit_dc, drawOutcome_dc, hdc]
    · exact absurd ((transfer_op_of_not_fail hf _ _).symm.trans hend) hop
  | winWarn => exact absurd ((reportWindow_op s).symm.trans hend) hop
  | _ => exact absurd hend hop

theorem seqStep_ends_dc_high {s : State} (hlines : linesDisciplined s.dc s.rst s.todo = true)
    (hop : s.op ≠ none) (hend : (seqStep s).op = none) : (seqStep s).dc = .high := by
  obtain ⟨h, -⟩ | ⟨-, -, ht, h⟩ | ⟨-, -, m, ms, ht, h⟩ := seqStep_cases s
  · exact absurd (h ▸ hend) hop
  · have hdc : s.dc = .high ∧ s.rst = .high := by simpa [ht, linesDisciplined] using hlines
    rw [h, endOperation_dc, hdc.1]
  · rw [ht] at hlines
    rw [h] at hend ⊢
    exact perform_ends_dc_high (s := { s with todo := ms, stepIx := s.stepIx + 1 }) hlines hop hend

@[simp] theorem writeRegister_op (off : BitVec 8) (v : Word) (s : State) :
    (writeRegister off v s).op = s.op := by
  obtain h | ⟨-, h⟩ | ⟨_, _, _, _, h⟩ | ⟨-, -, _, -, h⟩ := writeRegister_cases off v s <;> rw [h]

@[simp] theorem pollIdle_op (s : State) : (pollIdle s).op = s.op := by
  unfold pollIdle
  split <;> rfl

/-- A CTRL write to a running block is discarded or rejected; the operation goes on. -/
theorem writeCtrl_op_running {v : Word} {s t : State} (hop : s.op ≠ none)
    (h : writeCtrl v s = .next t) : t.op = s.op := by
  obtain ⟨-, hw⟩ | ⟨-, -, hw⟩ | ⟨hidle, -⟩ := writeCtrl_cases v s
  · cases hw.symm.trans h; rfl
  · cases hw.symm.trans h; rfl
  · exact absurd hidle hop

/-- Only the sequencer and the block reset can end the running operation. -/
theorem TurnEffect.op_running {s t : State} {tn : Turn} (h : TurnEffect s t tn)
    (hop : s.op ≠ none) : t.op = s.op ∨ t = seqStep s ∨ t = Machine.blockReset s := by
  cases h with
  | read _ _ h => exact .inl (by rw [h])
  | ctrl v h => exact .inl (writeCtrl_op_running hop h)
  | write off v _ _ h => exact .inl (by rw [h, writeRegister_op])
  | store a v h => exact .inl (by rw [h]; rfl)
  | waitIdle h => exact .inl (by rw [h, pollIdle_op])
  | sequencer h => exact .inr (.inl h)
  | pwmTick h => exact .inl (by rw [h]; rfl)
  | blockReset h => exact .inr (.inr h)

/-- The idle level of DC holds after every step that ends an operation (10_state.md R45). -/
theorem step_ends_dc_high {s t : State} (hinv : Inv s) (hop : s.op ≠ none) (h : step s = .next t)
    (hend : t.op = none) : t.dc = .high := by
  obtain ⟨-, rfl⟩ | ⟨tn, ts, -, heff⟩ := step_cases h
  · exact seqStep_ends_dc_high hinv.lines hop hend
  · obtain hsame | rfl | rfl := heff.op_running hop
    · exact absurd (hsame.symm.trans hend) hop
    · exact seqStep_ends_dc_high (s := { s with turns := ts }) hinv.lines hop hend
    · rfl

/-- Settles O24: the failing frame is `seqRun_cmdFrame_fail`, and every end of an operation
`step_ends_dc_high`. -/
theorem failedCommandRestoresDc : Obligations.FailedCommandRestoresDc := by
  refine ⟨fun s o b ms hop hst ht hf => ?_, fun s t => step_ends_dc_high⟩
  have hne : s.op ≠ none := by simp [hop]
  refine ⟨2, ?_⟩
  rw [seqRun_cmdFrame_fail hne hst ht hf, failCommand]
  exact ⟨by simp, raiseError_dc _ _, raiseError_op _ _, raiseError_todo _ hne,
    raiseError_busErr hne, raiseError_errOp _ hop, raiseError_regs _ _, raiseError_rst _ _,
    raiseError_mem _ _⟩

/-! ### The pieces of a data frame -/

section pieces

variable {α : Type} {m : Nat}

theorem piecesOf_length_le : ∀ {fuel : Nat} {bs : List α}, ∀ c ∈ piecesOf m fuel bs, c.length ≤ m
  | 0, _, _, h => by simp [piecesOf] at h
  | _ + 1, [], _, h => by simp at h
  | fuel + 1, x :: xs, c, h => by
    rw [piecesOf, List.mem_cons] at h
    rcases h with rfl | h
    · exact List.length_take_le _ _
    · exact piecesOf_length_le c h

/-- A piece that another one follows is full: what follows comes from the bytes dropped after it. -/
theorem piecesOf_dropLast_full :
    ∀ {fuel : Nat} {bs : List α}, ∀ c ∈ (piecesOf m fuel bs).dropLast, c.length = m
  | 0, _, _, h => by simp [piecesOf] at h
  | _ + 1, [], _, h => by simp at h
  | fuel + 1, x :: xs, c, h => by
    rw [piecesOf] at h
    by_cases hdrop : (x :: xs).drop m = []
    · simp [hdrop] at h
    by_cases hrest : piecesOf m fuel ((x :: xs).drop m) = []
    · simp [hrest] at h
    rw [List.dropLast_cons_of_ne_nil hrest, List.mem_cons] at h
    rcases h with rfl | h
    · rw [List.drop_eq_nil_iff, not_le] at hdrop
      exact List.length_take_of_le hdrop.le
    · exact piecesOf_dropLast_full c h

/-- Where all pieces but the last have `m` elements, the last one holds what the others leave. -/
theorem length_flatten_of_dropLast_full {ps : List (List α)} {c : List α}
    (hfull : ∀ p ∈ ps.dropLast, p.length = m) (hlast : ps.getLast? = some c) :
    ps.flatten.length = m * (ps.length - 1) + c.length := by
  have hsum : (ps.dropLast.map List.length).sum = m * (ps.length - 1) := by
    rw [List.sum_eq_card_nsmul _ m (List.forall_mem_map.2 hfull), List.length_map, List.length_dropLast,
      smul_eq_mul, Nat.mul_comm]
  conv_lhs => rw [← List.dropLast_append_getLast? c hlast]
  rw [List.flatten_append, List.length_append, List.length_flatten, hsum, List.flatten_singleton]

/-- The number of pieces, from the length of the last one. -/
theorem ceil_div_of_last {n k r : Nat} (hk : 1 ≤ k) (hn : n = m * (k - 1) + r) (hr : 1 ≤ r)
    (hrm : r ≤ m) : (n + m - 1) / m = k := by
  obtain ⟨k, rfl⟩ := Nat.exists_eq_add_of_le' hk
  have hm : 0 < m := hr.trans hrm
  have : n + m - 1 = (r - 1) + m * (k + 1) := by
    rw [Nat.mul_add, hn, Nat.add_sub_cancel]
    omega
  rw [this, Nat.add_mul_div_left _ _ hm, Nat.div_eq_of_lt (by omega), Nat.zero_add]

end pieces

/-- Settles O31: the concatenation, the full pieces and the bounds of a piece are inductions on the
pieces; the length of the last piece and their number follow by counting bytes. -/
theorem chunksKeepEveryByteInOrder : Obligations.ChunksKeepEveryByteInOrder := by
  refine fun p bs hbs => ⟨fun hinf => by simp [chunks, hinf, hbs], fun m hp hm => ?_⟩
  have hchunks : chunks p bs = piecesOf m bs.length bs := by rw [chunks, hp]
  rw [hchunks]
  have hflat : (piecesOf m bs.length bs).flatten = bs := piecesOf_flatten hm le_rfl
  have hne : piecesOf m bs.length bs ≠ [] := fun h => hbs (by rw [← hflat, h, List.flatten_nil])
  have hlast : ∀ c, (piecesOf m bs.length bs).getLast? = some c →
      bs.length = m * ((piecesOf m bs.length bs).length - 1) + c.length ∧
        1 ≤ c.length ∧ c.length ≤ m := by
    intro c hc
    have hmem := List.mem_of_getLast? hc
    refine ⟨?_, List.length_pos_of_ne_nil (piecesOf_nonempty_pieces hm c hmem),
      piecesOf_length_le c hmem⟩
    rw [← length_flatten_of_dropLast_full piecesOf_dropLast_full hc, hflat]
  refine ⟨hflat, ?_, piecesOf_dropLast_full, fun c hc => ?_⟩
  · obtain ⟨hlen, hpos, hle⟩ := hlast _ (List.getLast?_eq_some_getLast hne)
    exact (ceil_div_of_last (List.length_pos_of_ne_nil hne) hlen hpos hle).symm
  · obtain ⟨hlen, hpos, hle⟩ := hlast c hc
    exact ⟨by omega, hpos, hle⟩

end Sys2Proof.Machine

/-! Proofs about the configuration check of the Initialization Sequencer (41_init_sequencer.md). -/

namespace Sys2Proof.Machine

/-! ### Malformed configurations -/

theorem rotationLegal_iff (c : CfgRegs) :
    rotationLegal c = true ↔ c.rotDeg.toNat ∈ [0, 90, 180, 270] := by
  simp [rotationLegal, or_assoc]

/-- The cases of `malformed(L)` (R150), one by one. -/
theorem malformed_iff (c : CfgRegs) :
    malformed c = true ↔
      c.rotDeg.toNat ∉ [0, 90, 180, 270] ∨ c.width = 0 ∨ c.height = 0 ∨
        c.offLeft.toNat + c.width.toNat > 65536 ∨ c.offTop.toNat + c.height.toNat > 65536 ∨
        c.spiHz = 0 ∨ (c.blm = false ∧ c.blHz = 0) := by
  simp only [malformed, Bool.or_eq_true, Bool.and_eq_true, Bool.not_eq_true', decide_eq_true_eq,
    ← Bool.not_eq_true, rotationLegal_iff, BitVec.toNat_eq, BitVec.ofNat_eq_ofNat, BitVec.toNat_zero,
    gt_iff_lt, or_assoc]

/-- Under a configuration that is not malformed the physical panel ends within 16 bits on both axes. -/
theorem panel_fits_of_not_malformed {c : CfgRegs} (h : malformed c = false) :
    c.offLeft.toNat + c.width.toNat ≤ 65536 ∧ c.offTop.toNat + c.height.toNat ≤ 65536 := by
  have hm := mt (malformed_iff c).2 (by simp [h])
  simp only [not_or, gt_iff_lt, not_lt] at hm
  obtain ⟨-, -, -, hleft, htop, -⟩ := hm
  exact ⟨hleft, htop⟩

theorem windowLegal_iff (c : CfgRegs) (x0 y0 x1 y1 : Half) :
    windowLegal c x0 y0 x1 y1 = true ↔
      (x0.toNat ≤ x1.toNat ∧ x1.toNat < c.width.toNat) ∧
        y0.toNat ≤ y1.toNat ∧ y1.toNat < c.height.toNat := by
  simp [windowLegal]

/-- A coordinate inside a panel that ends within 16 bits is moved by the offset without wrapping. -/
theorem toNat_add_offset {x off size : Half} (hx : x.toNat < size.toNat)
    (hfit : off.toNat + size.toNat ≤ 65536) : (x + off).toNat = x.toNat + off.toNat :=
  BitVec.toNat_add_of_lt (by omega)

/-- Settles O32: the iff lists the disjuncts of `malformed`; a legal window lies inside the panel, which
ends within 16 bits once moved by the offsets. -/
theorem malformedExactlyWhenListed : Obligations.MalformedExactlyWhenListed := by
  refine ⟨malformed_iff, fun c x0 y0 x1 y1 hwell hlegal => ?_⟩
  obtain ⟨hleft, htop⟩ := panel_fits_of_not_malformed hwell
  obtain ⟨⟨hx01, hx1⟩, hy01, hy1⟩ := (windowLegal_iff c x0 y0 x1 y1).1 hlegal
  exact ⟨toNat_add_offset (hx01.trans_lt hx1) hleft, toNat_add_offset hx1 hleft,
    toNat_add_offset (hy01.trans_lt hy1) htop, toNat_add_offset hy1 htop⟩

end Sys2Proof.Machine

/-! Proofs about the Window Manager (42_window.md): SET_WINDOW. -/

namespace Sys2Proof.Machine

/-- The window invariant (42_window.md R183) in the order of 16-bit words. -/
theorem windowLegal_iff_le (c : CfgRegs) (x0 y0 x1 y1 : Half) :
    windowLegal c x0 y0 x1 y1 = true ↔ x0 ≤ x1 ∧ x1 < c.width ∧ y0 ≤ y1 ∧ y1 < c.height := by
  simp only [windowLegal_iff, and_assoc, BitVec.le_def, BitVec.lt_def]

/-- Settles O13: the program is `setWindowCore` of the resolved corners, and the status it leaves turns
on `windowLegal`. -/
theorem setWindowAddressesTheRectangle : Obligations.SetWindowAddressesTheRectangle := by
  rintro s x y ⟨hidle, -, hrst⟩ c x0 y0 x1 y1 evs hok
  have hprog : programOf s .setWindow (s.latchNow x y) = setWindowCore s.params c x0 y0 x1 y1 := rfl
  have hcount : transfersIn (setWindowCore s.params c x0 y0 x1 y1) = evs.countP Event.isXfer :=
    transfersIn_setWindowCore s.params c x0 y0 x1 y1
  have hrun := okFold_setWindowCore s.params c x0 y0 x1 y1 (s.begin .setWindow x y) .setWindow rfl
  exact ⟨s.begin .setWindow x y, exec_begin hidle rfl, started_begin s .setWindow x y,
    completed_begin hprog (setWindowCore_goesOn s.params c x0 y0 x1 y1) (hcount ▸ hok) hrun
      ⟨rfl, hrst⟩ rfl (if_congr (windowLegal_iff_le c x0 y0 x1 y1) rfl rfl) rfl hcount
      fun _ => ⟨rfl, rfl⟩⟩

end Sys2Proof.Machine

/-! Proofs about the Color Pipeline (43_color.md): the check of RENDER. -/

namespace Sys2Proof.Machine

/-! ### An operation whose check fails -/

/-- An operation whose program is a failed check ends at its first micro-step: STATUS records the error
and nothing else changes but what the start itself wrote (60_exceptions.md R245). -/
theorem seqStep_begin_raise {s : State} {o : Operation} {x y : Bool} {e : ErrorKind}
    (hidle : s.op = none) (hprog : programOf s o (s.latchNow x y) = [.raise e])
    (hkeep : abortClearsInitDone e o = false) :
    seqStep (s.begin o x y) = { s with
      latch := s.latchNow x y, stepIx := 1, stalled := false, todo := []
      status := s.status.recordError e o.code } := by
  rw [seqStep_perform (s := s.begin o x y) (Option.some_ne_none o) rfl hprog, perform,
    raiseError_running (o := o) (h := rfl), hkeep, hidle]
  rfl

/-! ### RENDER of an image that does not fit -/

/-- The cases of RENDER's precondition (43_color.md R208) in the order of 16-bit words. -/
theorem imageUnfit_iff (l : Latch) :
    imageUnfit l = true ↔
      l.imageW = 0 ∨ l.imageH = 0 ∨ l.cfg.width < l.imageW ∨ l.cfg.height < l.imageH := by
  simp only [imageUnfit, Bool.or_eq_true, decide_eq_true_eq, or_assoc, BitVec.lt_def,
    BitVec.toNat_eq, BitVec.ofNat_eq_ofNat, BitVec.toNat_zero]

theorem renderProgram_unfit {l : Latch} (h : imageUnfit l = true) (p : Params) (m : Memory) :
    renderProgram p m l = [.raise .precondition] :=
  if_pos h

/-- Settles O18: the program of an unfit image is the failed check alone. -/
theorem renderRejectsUnfitImage : Obligations.RenderRejectsUnfitImage := by
  intro s x y hidle iw ih hunfit
  have hprog : programOf s .render (s.latchNow x y) = [.raise .precondition] :=
    renderProgram_unfit ((imageUnfit_iff (s.latchNow x y)).2 hunfit) s.params s.mem
  exact ⟨s.begin .render x y, 1, exec_begin hidle rfl, rfl, seqStep_begin_raise hidle hprog rfl⟩

end Sys2Proof.Machine

/-! Proofs about the errors (60_exceptions.md): the rejection of a CTRL write, what raising an error does
to STATUS, and INIT's configuration check. -/

namespace Sys2Proof.Machine

/-! ### Rejected CTRL writes -/

theorem busy_iff (s : State) : s.busy = true ↔ s.op ≠ none := by
  rw [State.busy, Option.isSome_iff_ne_none]

/-- Settles O6: the step is the CTRL write, and a rejected one is `raiseReject`. -/
theorem rejectedCtrlWriteOnlySetsOpErr : Obligations.RejectedCtrlWriteOnlySetsOpErr := by
  intro s v ts h0 hr hturns
  rw [busy_iff] at hr
  rw [step_writeCtrl hturns, writeCtrl_rejected (s := { s with turns := ts }) h0 hr]
  rfl

/-! ### Raising an error -/

/-- INIT_DONE is lost by a bus error in INIT or SHUTDOWN only (41_init_sequencer.md R161). -/
theorem abortClearsInitDone_eq (e : ErrorKind) (o : Operation) :
    abortClearsInitDone e o =
      (decide (e = .busIO) && (decide (o = .init) || decide (o = .shutdown))) := by
  simp only [abortClearsInitDone, beq_eq_decide]

/-- The three error bits and ERR_OP after an error is recorded. -/
theorem recordError_eq (e : ErrorKind) (op : Byte) (st : Status) :
    st.recordError e op = { st with
      cfgErr := st.cfgErr || decide (e = .configuration)
      precondErr := st.precondErr || decide (e = .precondition)
      busErr := st.busErr || decide (e = .busIO)
      errOp := op } := by
  cases e <;> simp [Status.recordError]

/-- Clearing INIT_DONE under a condition is one conjunction. -/
theorem ite_clear_initDone (b : Bool) (st : Status) :
    (if b then { st with initDone := false } else st) = { st with initDone := st.initDone && !b } := by
  cases b <;> simp

/-- Settles O46: the raised state is `raiseError_running` with STATUS written out field by field; it is
idle, so the sequencer leaves it; the level of DC is `step_ends_dc_high`. -/
theorem raiseRecordsAndAborts : Obligations.RaiseRecordsAndAborts := by
  refine ⟨fun s o e hop => ⟨?_, seqRun_idle (raiseError_op e s)⟩, fun s t => step_ends_dc_high⟩
  rw [raiseError_running e s hop, ite_clear_initDone, recordError_eq, abortClearsInitDone_eq]

/-! ### INIT under a malformed configuration -/

theorem initProgram_malformed {l : Latch} (h : malformed l.cfg = true) (p : Params) :
    initProgram p l = [.raise .configuration] := by
  rw [initProgram, h]

/-- Settles O21: the program under a malformed configuration is the failed check alone. -/
theorem initRejectsMalformedConfiguration : Obligations.InitRejectsMalformedConfiguration := by
  intro s x y hidle hbad
  have hprog : programOf s .init (s.latchNow x y) = [.raise .configuration] :=
    initProgram_malformed (l := s.latchNow x y) hbad s.params
  exact ⟨s.begin .init x y, 1, exec_begin hidle rfl, rfl, seqStep_begin_raise hidle hprog rfl⟩

end Sys2Proof.Machine

/-! Rules about one micro-step that the proofs about the whole machine share: which of its outcomes it can
have, the events it emits, and what it leaves to do. -/

namespace Sys2Proof.Machine

/-! ### The outcomes of a micro-step -/

/-- Everything a micro-step can do: its effect where the bus answers ok, or what a failed or a stalled
transfer does. -/
theorem perform_cases (m : Micro) (s : State) :
    perform m s = okStep m s ∨
    (∃ b, m = .cmdTransfer b ∧ s.outcomeAt 0 = .fail ∧
      perform m s = failCommand (s.drawOutcome.emit (.xferFail [b]))) ∨
    (∃ c, m = .dataTransfer c ∧ s.outcomeAt 0 = .fail ∧
      perform m s = failData (s.drawOutcome.emit (.xferFail (c.map OutByte.value)))) ∨
    (m.isTransfer = true ∧ s.outcomeAt 0 = .stall ∧
      perform m s = { s.drawOutcome with stalled := true }) := by
  cases m with
  | cmdTransfer b =>
    obtain ⟨-, h⟩ | ⟨hf, h⟩ | ⟨hs, h⟩ := transfer_cases [b] failCommand s
    · exact .inl h
    · exact .inr (.inl ⟨b, rfl, hf, h⟩)
    · exact .inr (.inr (.inr ⟨rfl, hs, h⟩))
  | dataTransfer c =>
    obtain ⟨-, h⟩ | ⟨hf, h⟩ | ⟨hs, h⟩ := transfer_cases (c.map OutByte.value) failData s
    · exact .inl h
    · exact .inr (.inr (.inl ⟨c, rfl, hf, h⟩))
    · exact .inr (.inr (.inr ⟨rfl, hs, h⟩))
  | _ => exact .inl rfl

theorem perform_untouched (m : Micro) (s : State) : Untouched s (perform m s) := by
  obtain h | ⟨b, -, -, h⟩ | ⟨c, -, -, h⟩ | ⟨-, -, h⟩ := perform_cases m s <;> rw [h]
  · exact okStep_untouched m s
  · constructor <;> simp [failCommand]
  · constructor <;> simp [failData]
  · exact ⟨rfl, rfl, rfl, rfl, rfl, rfl, rfl⟩

theorem seqStep_untouched (s : State) : Untouched s (seqStep s) := by
  obtain ⟨h, -⟩ | ⟨-, -, -, h⟩ | ⟨-, -, m, ms, -, h⟩ := seqStep_cases s <;> rw [h]
  · exact ⟨rfl, rfl, rfl, rfl, rfl, rfl, rfl⟩
  · exact ⟨rfl, rfl, rfl, rfl, rfl, rfl, rfl⟩
  · obtain ⟨h1, h2, h3, h4, h5, h6, h7⟩ :=
      perform_untouched m { s with todo := ms, stepIx := s.stepIx + 1 }
    exact ⟨h1, h2, h3, h4, h5, h6, h7⟩

/-! ### The registers a micro-step writes -/

theorem dutyLegal_clampQ (v : Int) : dutyLegal (clampQ v) = true := by
  have h := clampQ_toNat v
  rw [dutyLegal, decide_eq_true_eq]
  omega

/-- The registers that only the host writes (10_state.md R26 to R36). -/
def Regs.hostPart (r : Regs) : (Word × Word × Word × Word) × CfgRegs :=
  ((r.arg0, r.arg1, r.addr, r.len), r.cfg)

theorem okStep_hostPart (m : Micro) (s : State) :
    (okStep m s).regs.hostPart = s.regs.hostPart := by
  cases m with
  | raise e => exact congrArg _ (raiseError_regs e s)
  | winWarn => exact congrArg _ (reportWindow_regs s)
  | _ => rfl

theorem perform_hostPart (m : Micro) (s : State) :
    (perform m s).regs.hostPart = s.regs.hostPart := by
  obtain h | ⟨b, -, -, h⟩ | ⟨c, -, -, h⟩ | ⟨-, -, h⟩ := perform_cases m s <;> rw [h]
  · exact okStep_hostPart m s
  · rw [failCommand, raiseError_regs]; rfl
  · rw [failData, raiseError_regs]; rfl
  · rfl

/-- The sequencer writes no register that the host writes. -/
theorem seqStep_hostPart (s : State) : (seqStep s).regs.hostPart = s.regs.hostPart := by
  obtain ⟨h, -⟩ | ⟨-, -, -, h⟩ | ⟨-, -, m, ms, -, h⟩ := seqStep_cases s <;> rw [h]
  · rfl
  · exact perform_hostPart m _

theorem seqStep_cfg (s : State) : (seqStep s).regs.cfg = s.regs.cfg :=
  congrArg Prod.snd (seqStep_hostPart s)

/-! ### The events of a micro-step -/

/-- The events a micro-step emits where its transfer, if it is one, completes. -/
def Micro.events (s : State) : Micro → List Event
  | .dcSet l => [.dcSet l]
  | .cmdTransfer b => [.xfer [b]]
  | .dataTransfer c => [.xfer (c.map OutByte.value)]
  | .rstSet l => [.rstSet l]
  | .wait ms => [.wait ms]
  | .blackout => [.blSet 0]
  | .driveBacklight => [.blSet (blout s.regs.blDuty s.latch.cfg.blm)]
  | _ => []

theorem okStep_trace (m : Micro) (s : State) : (okStep m s).trace = s.trace ++ m.events s := by
  cases m with
  | raise e => simp [okStep, perform, Micro.events]
  | winWarn => simp [okStep, perform, Micro.events]
  | _ => simp [okStep, perform, Micro.events]

theorem events_length (m : Micro) (s : State) : (m.events s).length ≤ 1 := by
  cases m <;> simp [Micro.events]

/-- The level of DC after an event. -/
def Event.dcAfter (l : Level) : Event → Level
  | .dcSet l' => l'
  | _ => l

/-- No event but a drive of DC moves the level of DC in the panel's view. -/
theorem see_dc (q : Byte) (v : PanelView) (e : Event) : (v.see q e).dc = e.dcAfter v.dc := by
  cases e with
  | xfer bs => simp only [PanelView.see, Event.dcAfter]; split <;> simp [*]
  | rstSet l => cases l <;> rfl
  | _ => rfl

/-- The events of a micro-step show the level it leaves DC at. -/
theorem seeAll_events_dc (q : Byte) {v : PanelView} {s : State} (hv : v.dc = s.dc) (m : Micro) :
    (v.seeAll q (m.events s)).dc = (okStep m s).dc := by
  cases m with
  | raise e => exact hv.trans (raiseError_dc e s).symm
  | winWarn => exact hv.trans (reportWindow_dc s).symm
  | _ => simp [Micro.events, see_dc, Event.dcAfter, okStep, perform, hv]

/-- The trace grows by at most two events, which show the level DC is left at. -/
theorem perform_trace (m : Micro) (s : State) :
    ∃ evs, (perform m s).trace = s.trace ++ evs ∧ evs.length ≤ 2 ∧
      ∀ (q : Byte) (v : PanelView), v.dc = s.dc → (v.seeAll q evs).dc = (perform m s).dc := by
  obtain h | ⟨b, -, -, h⟩ | ⟨c, -, -, h⟩ | ⟨-, -, h⟩ := perform_cases m s <;> rw [h]
  · exact ⟨m.events s, okStep_trace m s, (events_length m s).trans one_le_two,
      fun q v hv => seeAll_events_dc q hv m⟩
  · exact ⟨[.xferFail [b], .dcSet .high], by simp [failCommand], le_rfl,
      fun q v _ => by simp [see_dc, Event.dcAfter, failCommand]⟩
  · exact ⟨[.xferFail (c.map OutByte.value)], by simp [failData], one_le_two,
      fun q v hv => by simp [see_dc, Event.dcAfter, failData, hv]⟩
  · exact ⟨[], (List.append_nil _).symm, Nat.zero_le 2, fun q v hv => hv⟩

/-- The sequencer lets the trace grow by at most two events, which show the level DC is left at; an idle
or stalled block emits none. -/
theorem seqStep_trace (s : State) :
    ∃ evs, (seqStep s).trace = s.trace ++ evs ∧ evs.length ≤ 2 ∧
      (evs ≠ [] → s.op ≠ none ∧ s.stalled = false) ∧
      ∀ (q : Byte) (v : PanelView), v.dc = s.dc → (v.seeAll q evs).dc = (seqStep s).dc := by
  obtain ⟨h, -⟩ | ⟨-, -, -, h⟩ | ⟨hop, hst, m, ms, -, h⟩ := seqStep_cases s <;> rw [h]
  · exact ⟨[], (List.append_nil _).symm, Nat.zero_le 2, fun hne => absurd rfl hne, fun _ _ hv => hv⟩
  · exact ⟨[], (List.append_nil _).symm, Nat.zero_le 2, fun hne => absurd rfl hne, fun _ _ hv => hv⟩
  · obtain ⟨evs, ht, hlen, hdc⟩ := perform_trace m { s with todo := ms, stepIx := s.stepIx + 1 }
    exact ⟨evs, ht, hlen, fun _ => ⟨hop, hst⟩, hdc⟩

/-! ### What a micro-step leaves to do -/

/-- A micro-step that does not abort leaves the program alone. -/
theorem okStep_todo {m : Micro} (h : m.goesOn = true) (s : State) : (okStep m s).todo = s.todo := by
  cases m with
  | raise e => simp [Micro.goesOn] at h
  | winWarn => exact reportWindow_todo s
  | _ => rfl

/-- The line discipline of what is left goes on from the lines that a completed micro-step leaves. -/
theorem okStep_lines {m : Micro} {ms : List Micro} {s : State}
    (h : linesDisciplined s.dc s.rst (m :: ms) = true) :
    linesDisciplined (okStep m s).dc (okStep m s).rst ms = true := by
  cases m with
  | raise e =>
    change linesDisciplined (raiseError e s).dc (raiseError e s).rst ms = true
    rw [raiseError_dc, raiseError_rst]
    exact (Bool.and_eq_true_iff.1 h).2
  | winWarn => simpa [linesDisciplined, okStep, perform] using h
  | cmdTransfer b => exact (Bool.and_eq_true_iff.1 h).2
  | dataTransfer c => exact (Bool.and_eq_true_iff.1 h).2
  | _ => exact h

/-- A transfer and a failing check happen with the reset line high, and all but a command's with DC
high. -/
theorem lines_of_abort {m : Micro} {ms : List Micro} {dc rst : Level}
    (hm : m.isTransfer = true ∨ m.goesOn = false) (h : linesDisciplined dc rst (m :: ms) = true) :
    rst = .high ∧ ((∃ b, m = .cmdTransfer b) ∨ dc = .high) := by
  cases m with
  | raise e => simp_all [linesDisciplined]
  | cmdTransfer b => simp_all [linesDisciplined]
  | dataTransfer c => simp_all [linesDisciplined]
  | _ => simp [Micro.isTransfer, Micro.goesOn] at hm

theorem okStep_rst (m : Micro) (s : State) : (okStep m s).rst = s.rst ∨ ∃ l, m = .rstSet l := by
  cases m with
  | rstSet l => exact .inr ⟨l, rfl⟩
  | raise e => exact .inl (raiseError_rst e s)
  | winWarn => exact .inl (reportWindow_rst s)
  | _ => exact .inl rfl

/-- The two ways on from a micro-step under the line discipline: the operation goes on with the rest of
its program, or it has aborted with the lines at their idle levels. -/
theorem perform_progress {m : Micro} {ms : List Micro} {s : State} (hop : s.op ≠ none)
    (hlines : linesDisciplined s.dc s.rst (m :: ms) = true) :
    ((perform m s).op = s.op ∧ (perform m s).todo = s.todo ∧
      linesDisciplined (perform m s).dc (perform m s).rst ms = true ∧
      ((perform m s).rst = s.rst ∨ ∃ l, m = .rstSet l)) ∨
    ((perform m s).op = none ∧ (perform m s).todo = [] ∧ (perform m s).stalled = s.stalled ∧
      (perform m s).dc = .high ∧ (perform m s).rst = .high) := by
  obtain h | ⟨b, rfl, -, h⟩ | ⟨c, rfl, -, h⟩ | ⟨hm, -, h⟩ := perform_cases m s <;> rw [h]
  · by_cases hgo : m.goesOn = true
    · exact .inl ⟨okStep_op hgo s, okStep_todo hgo s, okStep_lines hlines, okStep_rst m s⟩
    · obtain ⟨e, rfl⟩ : ∃ e, m = .raise e := by cases m <;> simp [Micro.goesOn] at hgo ⊢
      obtain ⟨hrst, ⟨_, hb⟩ | hdc⟩ := lines_of_abort (.inr rfl) hlines
      · cases hb
      · exact .inr ⟨raiseError_op e s, raiseError_todo e hop, raiseError_stalled e s,
          (raiseError_dc e s).trans hdc, (raiseError_rst e s).trans hrst⟩
  · obtain ⟨hrst, -⟩ := lines_of_abort (.inl rfl) hlines
    exact .inr ⟨raiseError_op _ _, raiseError_todo _ hop, raiseError_stalled _ _, raiseError_dc _ _,
      (raiseError_rst _ _).trans hrst⟩
  · obtain ⟨hrst, ⟨_, hb⟩ | hdc⟩ := lines_of_abort (.inl rfl) hlines
    · cases hb
    · exact .inr ⟨raiseError_op _ _, raiseError_todo _ hop, raiseError_stalled _ _,
        (raiseError_dc _ _).trans hdc, (raiseError_rst _ _).trans hrst⟩
  · have hrest : linesDisciplined s.dc s.rst ms = true := by
      cases m with
      | cmdTransfer b => exact (Bool.and_eq_true_iff.1 hlines).2
      | dataTransfer c => exact (Bool.and_eq_true_iff.1 hlines).2
      | _ => cases hm
    exact .inl ⟨rfl, rfl, hrest, .inl rfl⟩

/-- A micro-step either lets its operation go on with the rest of the program or ends it with nothing
left to do. -/
theorem perform_op_todo (m : Micro) {s : State} (hop : s.op ≠ none) :
    ((perform m s).op = s.op ∧ (perform m s).todo = s.todo) ∨
      ((perform m s).op = none ∧ (perform m s).todo = []) := by
  obtain h | ⟨b, -, -, h⟩ | ⟨c, -, -, h⟩ | ⟨-, -, h⟩ := perform_cases m s <;> rw [h]
  · by_cases hgo : m.goesOn = true
    · exact .inl ⟨okStep_op hgo s, okStep_todo hgo s⟩
    · obtain ⟨e, rfl⟩ : ∃ e, m = .raise e := by cases m <;> simp [Micro.goesOn] at hgo ⊢
      exact .inr ⟨raiseError_op e s, raiseError_todo e hop⟩
  · exact .inr ⟨raiseError_op _ _, raiseError_todo _ hop⟩
  · exact .inr ⟨raiseError_op _ _, raiseError_todo _ hop⟩
  · exact .inl ⟨rfl, rfl⟩

/-! ### STATUS after a micro-step -/

/-- STATUS after an error, field by field (60_exceptions.md R245). -/
theorem raiseError_status {s : State} {o : Operation} (e : ErrorKind) (h : s.op = some o) :
    (raiseError e s).status = { s.status with
      cfgErr := s.status.cfgErr || decide (e = .configuration)
      precondErr := s.status.precondErr || decide (e = .precondition)
      busErr := s.status.busErr || decide (e = .busIO)
      errOp := o.code
      initDone := s.status.initDone && !abortClearsInitDone e o } := by
  rw [raiseError_running e s h, ite_clear_initDone, recordError_eq]

@[simp] theorem raiseError_cfgLock (e : ErrorKind) (s : State) :
    (raiseError e s).status.cfgLock = s.status.cfgLock := by
  cases h : s.op with
  | none => rw [raiseError, h]
  | some o => rw [raiseError_status e h]

theorem raiseError_initDone {e : ErrorKind} {s : State}
    (h : (raiseError e s).status.initDone = true) : s.status.initDone = true := by
  cases hop : s.op with
  | none => rwa [raiseError, hop] at h
  | some o =>
    rw [raiseError_status e hop] at h
    exact (Bool.and_eq_true_iff.1 h).1

/-- CFG_LOCK and INIT_DONE after a micro-step: INIT's last one sets both, SHUTDOWN's last one clears
both, and any other keeps CFG_LOCK and sets no INIT_DONE. -/
theorem perform_lifecycle (m : Micro) (s : State) :
    (m = .finishInit ∧ (perform m s).status.cfgLock = true) ∨
    ((perform m s).status.cfgLock = false ∧ (perform m s).status.initDone = false) ∨
    ((perform m s).status.cfgLock = s.status.cfgLock ∧
      ((perform m s).status.initDone = true → s.status.initDone = true)) := by
  obtain h | ⟨b, -, -, h⟩ | ⟨c, -, -, h⟩ | ⟨-, -, h⟩ := perform_cases m s <;> rw [h]
  · cases m with
    | finishInit => exact .inl ⟨rfl, rfl⟩
    | finishShutdown => exact .inr (.inl ⟨rfl, rfl⟩)
    | clearInitDone => exact .inr (.inr ⟨rfl, fun h => nomatch h⟩)
    | raise e => exact .inr (.inr ⟨raiseError_cfgLock e s, raiseError_initDone⟩)
    | winWarn =>
      refine .inr (.inr ?_)
      rw [okStep, perform, reportWindow]
      · split <;> exact ⟨rfl, id⟩
      · exact nofun
      · exact nofun
    | _ => exact .inr (.inr ⟨rfl, id⟩)
  · exact .inr (.inr ⟨raiseError_cfgLock _ _, raiseError_initDone⟩)
  · exact .inr (.inr ⟨raiseError_cfgLock _ _, raiseError_initDone⟩)
  · exact .inr (.inr ⟨rfl, id⟩)

/-! ### The micro-steps of each operation -/

/-- The micro-steps of the addressing step and of the frames. -/
def Micro.inWindow : Micro → Bool
  | .dcSet _ | .cmdTransfer _ | .dataTransfer _ | .recordWindow _ _ | .winWarn => true
  | _ => false

/-- The micro-steps of INIT once its configuration has been found legal. -/
def Micro.inInit : Micro → Bool
  | .raise _ | .setDuty _ | .finishShutdown => false
  | _ => true

/-- The micro-steps of a command frame. -/
def Micro.inCommand : Micro → Bool
  | .dcSet _ | .cmdTransfer _ => true
  | _ => false

/-- The micro-steps of a data frame. -/
def Micro.isData : Micro → Bool
  | .dataTransfer _ => true
  | _ => false

/-- The micro-steps of SET_BRIGHTNESS. -/
def Micro.setsBacklight : Micro → Bool
  | .setDuty d => dutyLegal d
  | .driveBacklight => true
  | _ => false

/-- The micro-steps of SHUTDOWN after its frames. -/
def Micro.darkens : Micro → Bool
  | .setDuty d => dutyLegal d
  | .blackout | .finishShutdown => true
  | _ => false

/-- The micro-steps an operation's program is made of. -/
def Operation.admits (m : Micro) : Operation → Bool
  | .init => m.inInit || !m.goesOn
  | .writeCmd => m.inCommand
  | .writeData | .renderRaw | .clearWindow => m.isData
  | .setWindow | .clear => m.inWindow
  | .render => m.inWindow || !m.goesOn
  | .setBrightness => m.setsBacklight
  | .shutdown => m.inWindow || m.darkens

theorem inInit_of_inWindow {m : Micro} (h : m.inWindow = true) : m.inInit = true := by
  cases m with
  | raise e => cases h
  | setDuty d => cases h
  | finishShutdown => cases h
  | _ => rfl

theorem goesOn_of_inInit {m : Micro} (h : m.inInit = true) : m.goesOn = true := by
  cases m with
  | raise e => cases h
  | _ => rfl

theorem cmdFrame_inWindow (b : Byte) : ∀ m ∈ cmdFrame b, m.inWindow = true :=
  List.all_eq_true.1 rfl

theorem dataFrame_isData (p : Params) (bs : List OutByte) :
    ∀ m ∈ dataFrame p bs, m.isData = true := by
  intro m h
  obtain ⟨c, -, rfl⟩ := List.mem_map.1 h
  rfl

theorem dataFrame_inWindow (p : Params) (bs : List OutByte) :
    ∀ m ∈ dataFrame p bs, m.inWindow = true := by
  intro m h
  obtain ⟨c, -, rfl⟩ := List.mem_map.1 h
  rfl

theorem setWindowCore_inWindow (p : Params) (c : CfgRegs) (x0 y0 x1 y1 : Half) :
    ∀ m ∈ setWindowCore p c x0 y0 x1 y1, m.inWindow = true := by
  have hwarn : ∀ m ∈ (if windowLegal c x0 y0 x1 y1 then [] else [.winWarn] : List Micro),
      m.inWindow = true := by
    split <;> exact List.all_eq_true.1 rfl
  have hframe : ∀ b bs, ∀ m ∈ cmdFrame b ++ litFrame p bs, m.inWindow = true := fun b bs =>
    List.forall_mem_append.2 ⟨cmdFrame_inWindow b, dataFrame_inWindow p _⟩
  have hframes : ∀ m ∈ addressingFrames p c x0 y0 x1 y1, m.inWindow = true :=
    List.forall_mem_append.2 ⟨List.forall_mem_append.2 ⟨hframe _ _, hframe _ _⟩, cmdFrame_inWindow _⟩
  exact List.forall_mem_cons.2 ⟨rfl, List.forall_mem_append.2 ⟨hwarn, hframes⟩⟩

theorem fullClear_inWindow (p : Params) (c : CfgRegs) : ∀ m ∈ fullClear p c, m.inWindow = true :=
  List.forall_mem_append.2 ⟨setWindowCore_inWindow p c _ _ _ _, dataFrame_inWindow p _⟩

theorem waitIfPositive_inInit (n : Nat) : ∀ m ∈ waitIfPositive n, m.inInit = true := by
  unfold waitIfPositive
  split <;> exact List.all_eq_true.1 rfl

theorem replayTable_inInit (p : Params) : ∀ m ∈ replayTable p, m.inInit = true := by
  intro m hm
  obtain ⟨e, -, hentry⟩ := List.mem_flatMap.1 hm
  obtain hframes | hwait := List.mem_append.1 hentry
  · obtain hcmd | hdata := List.mem_append.1 hframes
    · exact inInit_of_inWindow (cmdFrame_inWindow _ m hcmd)
    · exact inInit_of_inWindow (dataFrame_inWindow _ _ m hdata)
  · exact waitIfPositive_inInit _ m hwait

theorem initSequence_inInit (p : Params) (c : CfgRegs) (o : Byte) :
    ∀ m ∈ initSequence p c o, m.inInit = true := by
  have app : ∀ {a b : List Micro}, (∀ m ∈ a, m.inInit = true) → (∀ m ∈ b, m.inInit = true) →
      ∀ m ∈ a ++ b, m.inInit = true := fun ha hb => List.forall_mem_append.2 ⟨ha, hb⟩
  have hcmd : ∀ b, ∀ m ∈ cmdFrame b, m.inInit = true := fun b m hm =>
    inInit_of_inWindow (cmdFrame_inWindow b m hm)
  have hstart : ∀ m ∈ [.clearInitDone, .blackout] ++ hardwareReset p, m.inInit = true :=
    List.all_eq_true.1 rfl
  have horient : ∀ m ∈ configureOrientation p c o, m.inInit = true :=
    List.forall_mem_cons.2 ⟨rfl, app (app (hcmd _) fun m hm =>
      inInit_of_inWindow (dataFrame_inWindow p _ m hm)) (hcmd _)⟩
  have hwindow : ∀ m ∈ setDefaultWindow p c, m.inInit = true := fun m hm =>
    inInit_of_inWindow (setWindowCore_inWindow p c _ _ _ _ m hm)
  have hclear : ∀ m ∈ fullClear p c, m.inInit = true := fun m hm =>
    inInit_of_inWindow (fullClear_inWindow p c m hm)
  have hend : ∀ m ∈ [.driveBacklight, .finishInit], Micro.inInit m = true :=
    List.all_eq_true.1 rfl
  have hwait : ∀ b n, ∀ m ∈ cmdFrame b ++ waitIfPositive n, m.inInit = true := fun b n =>
    app (hcmd b) (waitIfPositive_inInit n)
  exact app (app (app (app (app (app (app (app hstart (hwait _ _)) horient)
    (replayTable_inInit p)) (hwait _ _)) (hwait _ _)) hwindow) hclear) hend

/-- INIT's program is its whole sequence where the configuration is legal and the failed check
otherwise. -/
theorem initProgram_cases (p : Params) (l : Latch) :
    (malformed l.cfg = false ∧ ∃ o, orientByte p l.cfg = some o ∧
      initProgram p l = initSequence p l.cfg o) ∨
    initProgram p l = [.raise .configuration] := by
  unfold initProgram
  split
  · exact .inl ⟨‹_›, _, ‹_›, rfl⟩
  · exact .inr rfl

theorem renderProgram_fit {l : Latch} (h : imageUnfit l = false) (p : Params) (m : Memory) :
    renderProgram p m l =
      setWindowCore p l.cfg (placeStart l.cfg.width l.imageW) (placeStart l.cfg.height l.imageH)
        (placeEnd l.cfg.width l.imageW) (placeEnd l.cfg.height l.imageH) ++
      streamPixels p m l.addr (l.imageW.toNat * l.imageH.toNat) := by
  rw [renderProgram, h]
  rfl

theorem renderProgram_fit_inWindow {l : Latch} (h : imageUnfit l = false) (p : Params) (m : Memory) :
    ∀ x ∈ renderProgram p m l, x.inWindow = true := by
  rw [renderProgram_fit h]
  exact List.forall_mem_append.2 ⟨setWindowCore_inWindow _ _ _ _ _ _, dataFrame_inWindow _ _⟩

/-- Every operation's program is made of its own micro-steps. -/
theorem programOf_admits (s : State) (o : Operation) (l : Latch) :
    ∀ m ∈ programOf s o l, o.admits m = true := by
  cases o with
  | init =>
    intro m hm
    obtain ⟨-, b, -, h⟩ | h := initProgram_cases s.params l
    · rw [Operation.admits, initSequence_inInit s.params l.cfg b m (h ▸ hm)]
      rfl
    · rw [programOf, h, List.mem_singleton] at hm
      rw [hm]
      rfl
  | writeCmd => exact List.all_eq_true.1 rfl
  | writeData => exact dataFrame_isData _ _
  | setWindow => exact setWindowCore_inWindow _ _ _ _ _ _
  | render =>
    intro m hm
    cases h : imageUnfit l with
    | true =>
      rw [programOf, renderProgram_unfit h, List.mem_singleton] at hm
      rw [hm]
      rfl
    | false =>
      rw [Operation.admits, renderProgram_fit_inWindow h s.params s.mem m hm]
      rfl
  | renderRaw => exact dataFrame_isData _ _
  | clear => exact fullClear_inWindow _ _
  | clearWindow => exact dataFrame_isData _ _
  | setBrightness =>
    exact List.forall_mem_cons.2 ⟨dutyLegal_clampQ _, List.all_eq_true.1 rfl⟩
  | shutdown =>
    intro m hm
    rw [Operation.admits, Bool.or_eq_true]
    obtain hframes | hdark := List.mem_append.1 hm
    · exact .inl (List.forall_mem_append.2 ⟨fullClear_inWindow s.params l.cfg,
        cmdFrame_inWindow s.params.cmdDispoff⟩ m hframes)
    · exact .inr ((List.all_eq_true (p := Micro.darkens)).1 rfl m hdark)

/-- A program is a failed check alone or has no failing check in it. -/
theorem programOf_goesOn (s : State) (o : Operation) (l : Latch) :
    (∃ e, programOf s o l = [.raise e]) ∨ ∀ m ∈ programOf s o l, m.goesOn = true := by
  have hadm := programOf_admits s o l
  have hgo : (∀ m, o.admits m = true → m.goesOn = true) → ∀ m ∈ programOf s o l, m.goesOn = true :=
    fun h m hm => h m (hadm m hm)
  cases o with
  | init =>
    obtain ⟨-, b, -, h⟩ | h := initProgram_cases s.params l
    · exact .inr fun m hm => goesOn_of_inInit (initSequence_inInit s.params l.cfg b m (h ▸ hm))
    · exact .inl ⟨_, h⟩
  | render =>
    cases h : imageUnfit l with
    | true => exact .inl ⟨_, renderProgram_unfit h s.params s.mem⟩
    | false =>
      exact .inr fun m hm =>
        goesOn_of_inInit (inInit_of_inWindow (renderProgram_fit_inWindow h s.params s.mem m hm))
  | _ =>
    refine .inr (hgo fun m h => ?_)
    cases m with
    | raise e => cases h
    | _ => rfl

/-! ### What a CTRL write leaves -/

/-- What a CTRL write can change: STATUS by a rejection, or the state by the start of an operation. -/
theorem writeCtrl_eq {v : Word} {s t : State} (h : writeCtrl v s = .next t) :
    t = s ∨ (ctrlOp v ≠ 0 ∧ t = raiseReject (ctrlOp v) s) ∨
      (s.op = none ∧ ∃ o : Operation, o.code = ctrlOp v ∧
        t = s.begin o (ctrlOmitX1 v) (ctrlOmitY1 v)) := by
  obtain ⟨-, he⟩ | ⟨h0, -, he⟩ | ⟨hidle, o, hc, he⟩ := writeCtrl_cases v s
  all_goals cases he.symm.trans h
  · exact .inl rfl
  · exact .inr (.inl ⟨h0, rfl⟩)
  · exact .inr (.inr ⟨hidle, o, hc, startOperation_idle hidle o _ _ _⟩)

end Sys2Proof.Machine

/-! Proofs about the invariants of the whole machine: `Inv` and `LifecycleInv` hold at reset and every
step keeps them. -/

namespace Sys2Proof.Machine

/-! ### The invariant and the sequencer -/

theorem dutyLegal_blout {d : Duty} (h : dutyLegal d = true) (blm : Bool) :
    dutyLegal (blout d blm) = true := by
  unfold blout
  split_ifs
  · rfl
  · rfl
  · exact h

/-- The brightness values of a state are in range (10_state.md R37, R38). -/
def State.dutiesLegal (s : State) : Prop :=
  dutyLegal s.regs.blDuty = true ∧ dutyLegal s.regs.blOut = true ∧ dutyLegal s.pwmOut = true

theorem dutiesLegal_setBlOut {d : Duty} {s : State} (hd : dutyLegal d = true) (h : s.dutiesLegal) :
    (s.setBlOut d).dutiesLegal := by
  obtain ⟨hduty, -, hpwm⟩ := h
  refine ⟨hduty, hd, ?_⟩
  rw [setBlOut_pwmOut]
  split
  · exact hd
  · exact hpwm

theorem State.dutiesLegal.congr {s t : State} (h : s.dutiesLegal) (hr : t.regs = s.regs)
    (hp : t.pwmOut = s.pwmOut) : t.dutiesLegal := by
  rwa [State.dutiesLegal, hr, hp]

theorem perform_dutiesLegal {m : Micro} {s : State} {o : Option Operation}
    (hm : m.legalFor o = true) (h : s.dutiesLegal) : (perform m s).dutiesLegal := by
  obtain ht | ⟨b, -, -, ht⟩ | ⟨c, -, -, ht⟩ | ⟨-, -, ht⟩ := perform_cases m s <;> rw [ht]
  · cases m with
    | setDuty d => exact ⟨hm, h.2⟩
    | blackout => exact dutiesLegal_setBlOut rfl h
    | driveBacklight => exact dutiesLegal_setBlOut (dutyLegal_blout h.1 _) h
    | raise e => exact h.congr (raiseError_regs _ _) (raiseError_pwmOut _ _)
    | winWarn => exact h.congr (reportWindow_regs _) (reportWindow_pwmOut _)
    | _ => exact h
  · exact h.congr (raiseError_regs _ _) (raiseError_pwmOut _ _)
  · exact h.congr (raiseError_regs _ _) (raiseError_pwmOut _ _)
  · exact h

/-- Where the trace has grown by events that show the level of DC, the panel's view still shows it. -/
theorem seen_of_trace {s t : State} {evs : List Event} (hmark : s.resetMark ≤ s.trace.length)
    (hseen : s.panelView.dc = s.dc) (hparams : t.params = s.params)
    (hreset : t.resetMark = s.resetMark) (htrace : t.trace = s.trace ++ evs)
    (hdc : ∀ (q : Byte) (v : PanelView), v.dc = s.dc → (v.seeAll q evs).dc = t.dc) :
    t.resetMark ≤ t.trace.length ∧ t.panelView.dc = t.dc := by
  refine ⟨?_, ?_⟩
  · rw [hreset, htrace, List.length_append]
    omega
  · rw [panelView_append hmark hparams htrace hreset]
    exact hdc _ _ hseen

/-- A micro-step of a running operation keeps the invariant: `s` is the state it is performed in, from
whose program it has been taken. -/
theorem perform_keeps_inv {m : Micro} {s : State} (hop : s.op ≠ none) (hst : s.stalled = false)
    (h : Inv { s with todo := m :: s.todo }) : Inv (perform m s) := by
  have hlegal : m.legalFor s.op = true ∧ s.todo.all (Micro.legalFor s.op) = true := by
    simpa using h.todo
  have hu := perform_untouched m s
  obtain ⟨evs, htrace, -, hdc⟩ := perform_trace m s
  obtain ⟨hmark, hseen⟩ :=
    seen_of_trace (s := s) h.mark h.seen hu.params hu.resetMark htrace hdc
  have hcfg : (perform m s).regs.cfg = s.regs.cfg := congrArg Prod.snd (perform_hostPart m s)
  have hprogram : ((perform m s).op = none → (perform m s).todo = [] ∧ (perform m s).stalled = false) ∧
      linesDisciplined (perform m s).dc (perform m s).rst (perform m s).todo = true ∧
      ((perform m s).op ≠ some .init → (perform m s).rst = .high) ∧
      (perform m s).todo.all (Micro.legalFor (perform m s).op) = true := by
    obtain ⟨ho, ht, hl, hr⟩ | ⟨ho, ht, hs, hd, hr⟩ := perform_progress hop h.lines
    · rw [ho, ht]
      refine ⟨fun hn => absurd hn hop, hl, fun hn => ?_, hlegal.2⟩
      obtain hr | ⟨l, rfl⟩ := hr
      · rw [hr]
        exact h.pulse hn
      · exact absurd (beq_iff_eq.1 hlegal.1) hn
    · rw [ho, ht, hs, hd, hr]
      exact ⟨fun _ => ⟨rfl, hst⟩, rfl, fun _ => rfl, rfl⟩
  obtain ⟨hidle, hl, hp, ht⟩ := hprogram
  exact {
    mem := hu.mem ▸ h.mem
    params := hu.params ▸ h.params
    idle := hidle
    lines := hl
    pulse := hp
    todo := ht
    cfgMode := hcfg ▸ h.cfgMode
    duty := perform_dutiesLegal hlegal.1 h.duty
    pwm := by rw [hu.pwmCnt, hu.params]; exact h.pwm
    mark := hmark
    seen := hseen }

/-- With nothing left to do the lines are at their idle levels. -/
theorem Inv.lines_idle {s : State} (h : Inv s) (ht : s.todo = []) : s.dc = .high ∧ s.rst = .high := by
  simpa [ht, linesDisciplined] using h.lines

theorem seqStep_keeps_inv {s : State} (h : Inv s) : Inv (seqStep s) := by
  obtain ⟨hs, -⟩ | ⟨-, hst, ht, hs⟩ | ⟨hop, hst, m, ms, ht, hs⟩ := seqStep_cases s <;> rw [hs]
  · exact h
  · exact { h with
      idle := fun _ => ⟨ht, hst⟩
      pulse := fun _ => (h.lines_idle ht).2
      todo := by rw [endOperation_todo, ht]; rfl }
  · refine perform_keeps_inv (s := { s with todo := ms, stepIx := s.stepIx + 1 }) hop hst ?_
    exact { h with
      idle := fun hn => absurd hn hop
      lines := ht ▸ h.lines
      todo := ht ▸ h.todo }

/-! ### The invariant and the other turns -/

/-- An operation writes only legal brightnesses and moves the reset line only if it is INIT. -/
theorem legalFor_of_admits {o : Operation} {m : Micro} (h : o.admits m = true) :
    m.legalFor (some o) = true := by
  cases m with
  | setDuty d =>
    cases o with
    | setBrightness => exact h
    | shutdown => exact h
    | _ => cases h
  | rstSet l =>
    cases o with
    | init => rfl
    | _ => cases h
  | _ => rfl

theorem begin_keeps_inv {s : State} (h : Inv s) (hidle : s.op = none) (o : Operation) (x y : Bool) :
    Inv (s.begin o x y) := by
  obtain ⟨hdc, hrst⟩ := h.lines_idle (h.idle hidle).1
  exact { h with
    idle := fun hn => nomatch hn
    lines := by
      rw [State.begin, hdc, hrst]
      exact programOf_lines s o _
    pulse := fun _ => hrst
    todo := List.all_eq_true.2 fun m hm => legalFor_of_admits (programOf_admits s o _ m hm) }

theorem writeCtrl_keeps_inv {v : Word} {s t : State} (h : Inv s) (hw : writeCtrl v s = .next t) :
    Inv t := by
  obtain rfl | ⟨-, rfl⟩ | ⟨hidle, o, -, rfl⟩ := writeCtrl_eq hw
  · exact h
  · exact { h with }
  · exact begin_keeps_inv h hidle o _ _

theorem writeRegister_keeps_inv {s : State} (h : Inv s) (off : BitVec 8) (v : Word) :
    Inv (writeRegister off v s) := by
  obtain he | ⟨-, he⟩ | ⟨_, _, _, _, he⟩ | ⟨-, -, c, hc, he⟩ := writeRegister_cases off v s <;> rw [he]
  · exact h
  · exact { h with }
  · exact { h with }
  · refine { h with cfgMode := ?_ }
    obtain hc | hc := hc
    · exact hc ▸ h.cfgMode
    · show c.mode &&& ~~~cfgModeWritable = 0
      rw [hc, BitVec.and_assoc, BitVec.and_not_self]
      exact BitVec.and_zero

theorem hostStore_keeps_inv {s : State} (h : Inv s) (a : Word) (v : Byte) :
    Inv (hostStore a v s) := by
  have hr := raceProgram_raced s.latch.addr a v s.freeIx s.todo
  exact { h with
    mem := memory_write_wf h.mem a.isLt
    idle := fun hn => by
      obtain ⟨ht, hst⟩ := h.idle hn
      exact ⟨by rw [hostStore, ht, raceProgram_nil], hst⟩
    lines := (raced_lines _ _ _ hr s.dc s.rst).trans h.lines
    todo := (raced_legal _ _ _ hr s.op).trans h.todo }

theorem pollIdle_keeps_inv {s : State} (h : Inv s) : Inv (pollIdle s) := by
  unfold pollIdle
  split <;> exact { h with }

theorem Inv.pwmRes_pos {s : State} (h : Inv s) : 0 < s.params.pwmRes :=
  Nat.zero_lt_of_lt h.pwm

theorem pwmTick_keeps_inv {s : State} (h : Inv s) : Inv (pwmTick s) := by
  obtain ⟨hduty, hout, hpwm⟩ := h.duty
  have htaken : dutyLegal (pwmTick s).pwmOut = true := by
    rw [pwmTick]
    split
    · exact hout
    · exact hpwm
  exact { h with
    duty := ⟨hduty, hout, htaken⟩
    pwm := Nat.mod_lt _ h.pwmRes_pos }

theorem blockReset_keeps_inv {s : State} (h : Inv s) : Inv (blockReset s) where
  mem := h.mem
  params := h.params
  idle _ := ⟨rfl, rfl⟩
  lines := rfl
  pulse _ := rfl
  todo := rfl
  cfgMode := by rw [blockReset_regs]; decide
  duty := ⟨by rw [blockReset_regs]; decide, by rw [blockReset_regs]; decide, rfl⟩
  pwm := Nat.mod_lt _ h.pwmRes_pos
  mark := le_rfl
  seen := by rw [panelView_blockReset]; rfl

theorem TurnEffect.keeps_inv {s t : State} {tn : Turn} (he : TurnEffect s t tn) (h : Inv s) :
    Inv t := by
  cases he with
  | read off _ ht => rw [ht]; exact { h with }
  | ctrl v hw => exact writeCtrl_keeps_inv h hw
  | write off v _ _ ht => rw [ht]; exact writeRegister_keeps_inv h off v
  | store a v ht => rw [ht]; exact hostStore_keeps_inv h a v
  | waitIdle ht => rw [ht]; exact pollIdle_keeps_inv h
  | sequencer ht => rw [ht]; exact seqStep_keeps_inv h
  | pwmTick ht => rw [ht]; exact pwmTick_keeps_inv h
  | blockReset ht => rw [ht]; exact blockReset_keeps_inv h

/-- Settles O51: a step is one move of the sequencer or one turn, and each of them keeps `Inv`. -/
theorem stepKeepsInv : Obligations.StepKeepsInv := by
  intro s t h hstep
  obtain ⟨-, rfl⟩ | ⟨tn, ts, -, he⟩ := step_cases hstep
  · exact seqStep_keeps_inv h
  · exact he.keeps_inv { h with }

/-! ### The lifecycle invariant -/

/-- A micro-step of a running operation keeps the lifecycle invariant: `s` is the state it is performed
in, from whose program it has been taken. -/
theorem perform_keeps_lifecycleInv {m : Micro} {s : State} (hop : s.op ≠ none)
    (h : LifecycleInv { s with todo := m :: s.todo }) : LifecycleInv (perform m s) := by
  have hcfg : (perform m s).regs.cfg = s.regs.cfg := congrArg Prod.snd (perform_hostPart m s)
  have hstatus : ((perform m s).status.cfgLock = true → malformed s.regs.cfg = false) ∧
      ((perform m s).status.initDone = true → (perform m s).status.cfgLock = true) := by
    obtain ⟨rfl, hlock⟩ | ⟨hlock, hdone⟩ | ⟨hlock, hdone⟩ := perform_lifecycle m s
    · exact ⟨fun _ => (h.pending List.mem_cons_self).2, fun _ => hlock⟩
    · rw [hlock, hdone]
      exact ⟨fun hf => (nomatch hf), fun hf => nomatch hf⟩
    · rw [hlock]
      exact ⟨h.locked, fun hd => h.done (hdone hd)⟩
  have hprogram : (Micro.finishInit ∈ (perform m s).todo →
      (perform m s).op = some .init ∧ malformed s.regs.cfg = false) ∧
      ((perform m s).op = none → (perform m s).todo = []) := by
    obtain ⟨ho, ht⟩ | ⟨ho, ht⟩ := perform_op_todo m hop <;> rw [ho, ht]
    · exact ⟨fun hm => h.pending (List.mem_cons_of_mem m hm), fun hn => absurd hn hop⟩
    · exact ⟨fun hm => absurd hm List.not_mem_nil, fun _ => rfl⟩
  exact {
    locked := hcfg.symm ▸ hstatus.1
    done := hstatus.2
    pending := hcfg.symm ▸ hprogram.1
    idle := hprogram.2 }

theorem seqStep_keeps_lifecycleInv {s : State} (h : LifecycleInv s) : LifecycleInv (seqStep s) := by
  obtain ⟨hs, -⟩ | ⟨-, -, ht, hs⟩ | ⟨hop, -, m, ms, ht, hs⟩ := seqStep_cases s <;> rw [hs]
  · exact h
  · exact { h with
      pending := fun hm => absurd (ht ▸ hm : Micro.finishInit ∈ []) List.not_mem_nil
      idle := fun _ => ht }
  · refine perform_keeps_lifecycleInv (s := { s with todo := ms, stepIx := s.stepIx + 1 }) hop ?_
    exact { h with
      pending := fun hm => h.pending (ht ▸ hm)
      idle := fun hn => absurd hn hop }

/-- Only INIT under a legal configuration has the setting of CFG_LOCK in its program. -/
theorem finishInit_mem_programOf {s : State} {o : Operation} {l : Latch}
    (h : Micro.finishInit ∈ programOf s o l) : o = .init ∧ malformed l.cfg = false := by
  have ho : o = .init := by
    have hadm := programOf_admits s o l _ h
    cases o with
    | init => rfl
    | _ => cases hadm
  subst ho
  obtain ⟨hlegal, -⟩ | hraise := initProgram_cases s.params l
  · exact ⟨rfl, hlegal⟩
  · rw [programOf, hraise, List.mem_singleton] at h
    cases h

theorem writeCtrl_keeps_lifecycleInv {v : Word} {s t : State} (h : LifecycleInv s)
    (hw : writeCtrl v s = .next t) : LifecycleInv t := by
  obtain rfl | ⟨-, rfl⟩ | ⟨hidle, o, -, rfl⟩ := writeCtrl_eq hw
  · exact h
  · exact { h with }
  · exact { h with
      pending := fun hm => by
        obtain ⟨rfl, hlegal⟩ := finishInit_mem_programOf hm
        exact ⟨rfl, hlegal⟩
      idle := fun hn => nomatch hn }

theorem writeRegister_keeps_lifecycleInv {s : State} (h : LifecycleInv s) (off : BitVec 8)
    (v : Word) : LifecycleInv (writeRegister off v s) := by
  obtain he | ⟨-, he⟩ | ⟨_, _, _, _, he⟩ | ⟨-, hw, c, -, he⟩ := writeRegister_cases off v s <;> rw [he]
  · exact h
  · exact { h with }
  · exact { h with }
  · obtain ⟨hlock, hbusy⟩ := (cfgWritable_iff s).1 hw
    have ht : s.todo = [] := h.idle (by simpa [State.busy] using hbusy)
    exact { h with
      locked := fun hl => absurd (hlock.symm.trans hl) Bool.false_ne_true
      pending := fun hm => absurd (ht ▸ hm : Micro.finishInit ∈ []) List.not_mem_nil }

theorem hostStore_keeps_lifecycleInv {s : State} (h : LifecycleInv s) (a : Word) (v : Byte) :
    LifecycleInv (hostStore a v s) := by
  have hr := raceProgram_raced s.latch.addr a v s.freeIx s.todo
  exact { h with
    pending := fun hm => h.pending ((raced_mem _ _ _ hr (m := .finishInit) nofun).1 hm)
    idle := fun hn => by rw [hostStore, h.idle hn, raceProgram_nil] }

theorem pollIdle_keeps_lifecycleInv {s : State} (h : LifecycleInv s) :
    LifecycleInv (pollIdle s) := by
  unfold pollIdle
  split <;> exact { h with }

theorem blockReset_lifecycleInv (s : State) : LifecycleInv (blockReset s) where
  locked hl := nomatch hl
  done hd := nomatch hd
  pending hm := absurd hm List.not_mem_nil
  idle _ := rfl

theorem TurnEffect.keeps_lifecycleInv {s t : State} {tn : Turn} (he : TurnEffect s t tn)
    (h : LifecycleInv s) : LifecycleInv t := by
  cases he with
  | read off _ ht => rw [ht]; exact { h with }
  | ctrl v hw => exact writeCtrl_keeps_lifecycleInv h hw
  | write off v _ _ ht => rw [ht]; exact writeRegister_keeps_lifecycleInv h off v
  | store a v ht => rw [ht]; exact hostStore_keeps_lifecycleInv h a v
  | waitIdle ht => rw [ht]; exact pollIdle_keeps_lifecycleInv h
  | sequencer ht => rw [ht]; exact seqStep_keeps_lifecycleInv h
  | pwmTick ht => rw [ht]; exact { h with }
  | blockReset ht => rw [ht]; exact blockReset_lifecycleInv s

/-- Settles O53: a step is one move of the sequencer or one turn, and each of them keeps
`LifecycleInv`; the lock is set by INIT's last micro-step alone, which only a legal configuration
reaches. -/
theorem stepKeepsLifecycleInv : Obligations.StepKeepsLifecycleInv := by
  intro s t h hstep
  obtain ⟨-, rfl⟩ | ⟨tn, ts, -, he⟩ := step_cases hstep
  · exact seqStep_keeps_lifecycleInv h
  · exact he.keeps_lifecycleInv { h with }

/-! ### The reset state -/

/-- Settles O52: an idle block with nothing emitted, every register at its reset value. -/
theorem resetHasInv : Obligations.ResetHasInv where
  left := {
    mem := rfl
    params := by decide
    idle := fun _ => ⟨rfl, rfl⟩
    lines := rfl
    pulse := fun _ => rfl
    todo := rfl
    cfgMode := by decide
    duty := by decide
    pwm := by decide
    mark := le_rfl
    seen := rfl }
  right := {
    locked := fun hl => nomatch hl
    done := fun hd => nomatch hd
    pending := fun hm => absurd hm List.not_mem_nil
    idle := fun _ => rfl }

end Sys2Proof.Machine

/-! Proofs about the CTRL word (30_encoding.md). -/

namespace Sys2Proof.Machine

/-! ### Decoding and encoding -/

theorem ctrlOp_encode (i : Instr) :
    ctrlOp (encode i) = i.opcode ∧ ctrlOmitX1 (encode i) = i.omits.1 ∧
      ctrlOmitY1 (encode i) = i.omits.2 := by
  obtain ⟨hop, hx, hy, -⟩ := Laws.EncodedFields.of_word i.opcode i.omits.1 i.omits.2
  exact ⟨hop, hx, hy⟩

/-- The decoder reads the operation code and the two omission bits alone (R92, R98). -/
theorem decode_congr {w v : Word} (hop : ctrlOp w = ctrlOp v) (hx : ctrlOmitX1 w = ctrlOmitX1 v)
    (hy : ctrlOmitY1 w = ctrlOmitY1 v) : decode w = decode v := by
  simp only [decode, hop, hx, hy]

theorem decode_encode (i : Instr) : decode (encode i) = .instr i := by
  obtain ⟨hop, hx, hy⟩ := ctrlOp_encode i
  simp only [decode, hop, hx, hy]
  cases i <;> rfl

/-- The bits of OP are the low eight of the word (R91). -/
theorem ctrlOp_getLsbD (w : Word) {k : Nat} (hk : k < 8) : (ctrlOp w).getLsbD k = w.getLsbD k := by
  simp [ctrlOp, hk]

/-- Settles O1: the fields of an encoded word are the instruction's, a decoded word has its
instruction's, and the decoder reads no bit above bit 9. -/
theorem decodeEncodeAgree : Obligations.DecodeEncodeAgree := by
  refine ⟨fun i _ => decode_encode i, fun w i h => ?_, fun w v hbits => ?_⟩
  · obtain ⟨hop, homits⟩ := decode_sound h
    exact ⟨hop.symm, homits⟩
  · refine decode_congr (BitVec.eq_of_getLsbD_eq fun k hk => ?_) (hbits 8 (by decide))
      (hbits 9 (by decide))
    rw [ctrlOp_getLsbD w hk, ctrlOp_getLsbD v hk]
    exact hbits k (by omega)

/-- Settles O2, by decoding each word. -/
theorem specWordsDecode : Obligations.SpecWordsDecode := by
  unfold Obligations.SpecWordsDecode
  decide

/-! ### The step at a CTRL write and at a sequencer turn -/

theorem writeCtrl_instr {v : Word} {i : Instr} (h : decode v = .instr i) (s : State) :
    writeCtrl v s = exec i s := by
  rw [writeCtrl, h]

theorem decodeTableWord_eq_some {nbits w : Nat} {i : Instr} (h : decodeTableWord nbits w = some i) :
    decode (tableWord nbits w) = .instr i := by
  unfold decodeTableWord at h
  split at h
  · rwa [← Option.some.inj h]
  · cases h

/-- Settles O3: the step of a CTRL write is `writeCtrl`, which runs the decoded instruction. -/
theorem ctrlWriteRunsDecodedInstruction : Obligations.CtrlWriteRunsDecodedInstruction := by
  refine ⟨fun s v i ts hturns hdec => ?_, fun s nbits w i hdec => ?_⟩
  · rw [step_writeCtrl hturns, writeCtrl_instr hdec]
  · rw [step_writeCtrl (s := s.withFetchWord nbits w) rfl,
      writeCtrl_instr (decodeTableWord_eq_some hdec)]
    rfl

theorem step_noTurn {s : State} (h : s.turns = []) : step s = .next (seqStep s) := by
  rw [step, h]

/-- Settles O4: without a turn the sequencer moves, and it leaves an idle block as it is. -/
theorem stepOtherwiseRunsSequencer : Obligations.StepOtherwiseRunsSequencer := by
  refine fun s => ⟨step_noTurn, fun ts h => step_turn h, fun h hidle => ?_⟩
  rw [step_noTurn h, seqStep_idle hidle]

/-! ### Operation start and end -/

/-- Settles O9: each of the ten instructions begins its own operation. -/
theorem everyOperationStartsWhenIdle : Obligations.EveryOperationStartsWhenIdle := by
  intro s x y hidle
  have hstart : ∀ {i : Instr} {o : Operation}, operationOf i = some o → i.omits = (x, y) →
      ∃ t, exec i s = .next t ∧ Started s t o (s.latchNow x y) := by
    intro i o ho hom
    refine ⟨_, exec_begin hidle ho, ?_⟩
    rw [hom]
    exact started_begin s o x y
  exact ⟨hstart rfl rfl, hstart rfl rfl, hstart rfl rfl, hstart rfl rfl, hstart rfl rfl,
    hstart rfl rfl, hstart rfl rfl, hstart rfl rfl, hstart rfl rfl, hstart rfl rfl⟩

/-- Settles O10: with nothing left to do the step of the sequencer is `endOperation`; WRITE_DATA with
LEN = 0 has nothing to do from its start on. -/
theorem operationEndsWhenNothingIsLeft : Obligations.OperationEndsWhenNothingIsLeft := by
  refine ⟨fun s hop hst ht => ?_, fun s x y hidle hlen => ?_⟩
  · rw [seqStep_end hop hst ht]
    exact ⟨rfl, rfl, fun hinv => (hinv.lines_idle ht).1⟩
  · have ht : (s.begin .writeData x y).todo = [] := by
      have hn : (s.latchNow x y).len.toNat = 0 := by
        rw [State.latchNow, hlen]
        rfl
      simp [State.begin, programOf, writeDataProgram, hn, payloadBytes, dataFrame]
    have hend := seqStep_end (s := s.begin .writeData x y) (Option.some_ne_none _) rfl ht
    refine ⟨s.begin .writeData x y, exec_begin hidle rfl, rfl, ?_, ?_⟩
    · rw [hend]
      rfl
    · rw [hend]
      rfl

end Sys2Proof.Machine

/-! Proofs about the functions of the units: the orientation byte (41_init_sequencer.md), the packing and
the placement of pixels (43_color.md), and the backlight line (44_backlight.md). -/

namespace Sys2Proof.Machine

/-! ### The orientation byte -/

theorem orientByte_of_rotBits {p : Params} {c : CfgRegs} {r : Byte}
    (h : rotBits p c.rotDeg = some r) :
    orientByte p c = some (p.oriLine ||| (if c.bgr then p.oriBgr else 0) ||| r) := by
  rw [orientByte, h]
  rfl

/-- The orientation byte of each of the four rotations (R151, R152). -/
theorem orientByte_rotations (p : Params) (c : CfgRegs) :
    let base := p.oriLine ||| (if c.bgr then p.oriBgr else 0)
    (c.rotDeg = 0 → orientByte p c = some base) ∧
    (c.rotDeg = 90 → orientByte p c = some (base ||| (p.oriMirrorV ||| p.oriSwap))) ∧
    (c.rotDeg = 180 → orientByte p c = some (base ||| (p.oriMirrorH ||| p.oriMirrorV))) ∧
    (c.rotDeg = 270 → orientByte p c = some (base ||| (p.oriMirrorH ||| p.oriSwap))) := by
  refine ⟨fun h => ?_, fun h => ?_, fun h => ?_, fun h => ?_⟩
  · rw [orientByte_of_rotBits (r := 0) (by rw [h]; rfl)]
    exact congrArg some BitVec.or_zero
  all_goals exact orientByte_of_rotBits (by rw [h]; rfl)

/-- Settles O33: the values under the default parameters are those of `orientByte_rotations`. -/
theorem orientationByteOrsTheFlags : Obligations.OrientationByteOrsTheFlags := by
  refine ⟨orientByte_rotations, fun c => ?_⟩
  obtain ⟨h0, h90, h180, h270⟩ := orientByte_rotations .default c
  refine ⟨fun h => (h0 h).trans ?_, fun h => (h90 h).trans ?_, fun h => (h180 h).trans ?_,
    fun h => (h270 h).trans ?_⟩ <;> cases c.bgr <;> rfl

/-! ### Packed pixels -/

/-- Fields that do not overlap add up. -/
theorem or_fields {a b c : Nat} (hb : b < 2 ^ 6) (hc : c < 2 ^ 5) :
    a <<< 11 ||| b <<< 5 ||| c = a * 2048 + b * 32 + c := by
  have hb' : b <<< 5 < 2 ^ 11 := by
    rw [Nat.shiftLeft_eq]
    omega
  have hjoin : a <<< 11 + b <<< 5 = (a * 64 + b) <<< 5 := by
    simp only [Nat.shiftLeft_eq]
    omega
  rw [← Nat.shiftLeft_add_eq_or_of_lt hb', hjoin, ← Nat.shiftLeft_add_eq_or_of_lt hc,
    Nat.shiftLeft_eq]
  omega

/-- The packed pixel in arithmetic (R201). -/
theorem pack565_toNat (r g b : Byte) :
    (pack565 r g b).toNat = (r.toNat / 8) * 2048 + (g.toNat / 4) * 32 + b.toNat / 8 := by
  have hr := r.isLt
  have hg := g.isLt
  have hb := b.isLt
  have hfields : (pack565 r g b).toNat =
      (r.toNat / 8) <<< 11 ||| (g.toNat / 4) <<< 5 ||| b.toNat / 8 := by
    have hshift : ∀ x n : Nat, x <<< n < 2 ^ 16 → x <<< n % 2 ^ 16 = x <<< n := fun x n h =>
      Nat.mod_eq_of_lt h
    simp only [pack565, BitVec.toNat_or, BitVec.toNat_shiftLeft, BitVec.toNat_setWidth,
      BitVec.extractLsb'_toNat, Nat.shiftRight_eq_div_pow]
    rw [Nat.mod_eq_of_lt (a := r.toNat / 2 ^ 3) (by omega),
      Nat.mod_eq_of_lt (a := g.toNat / 2 ^ 2) (by omega),
      Nat.mod_eq_of_lt (a := b.toNat / 2 ^ 3) (by omega),
      Nat.mod_eq_of_lt (a := r.toNat / 2 ^ 3) (by omega),
      Nat.mod_eq_of_lt (a := g.toNat / 2 ^ 2) (by omega),
      Nat.mod_eq_of_lt (a := b.toNat / 2 ^ 3) (by omega),
      hshift _ _ (by rw [Nat.shiftLeft_eq]; omega), hshift _ _ (by rw [Nat.shiftLeft_eq]; omega)]
  rw [hfields, or_fields (by omega) (by omega)]

/-- Settles O36, the formula of `pack565_toNat`. -/
theorem pack565PlacesTheChannels : Obligations.Pack565PlacesTheChannels := pack565_toNat

/-- Settles O35: in the arithmetic of `pack565_toNat` each channel's kept bits are one digit. -/
theorem pack565KeepsTheTopBits : Obligations.Pack565KeepsTheTopBits := by
  refine ⟨fun r g b r' g' b' => ?_, rfl, fun r g b => ?_⟩
  · have hg := g.isLt
    have hb := b.isLt
    have hg' := g'.isLt
    have hb' := b'.isLt
    simp only [BitVec.toNat_eq, BitVec.toNat_ushiftRight, Nat.shiftRight_eq_div_pow, pack565_toNat]
    omega
  · have hr := r.isLt
    have hg := g.isLt
    have hb := b.isLt
    simp only [BitVec.toNat_eq, BitVec.le_def, pack565_toNat, BitVec.toNat_ofNat,
      BitVec.ofNat_eq_ofNat]
    omega

/-! ### The placement of an image -/

/-- An image side that fits, centred on its extent (R206). -/
theorem placement_fits {extent size : Half} (hpos : 1 ≤ size.toNat)
    (hfit : size.toNat ≤ extent.toNat) :
    (placeStart extent size).toNat = (extent.toNat - size.toNat) / 2 ∧
      (placeEnd extent size).toNat + 1 = (placeStart extent size).toNat + size.toNat ∧
      placeEnd extent size - placeStart extent size + 1 = size ∧
      (placeStart extent size).toNat ≤ (placeEnd extent size).toNat ∧
      (placeEnd extent size).toNat < extent.toNat := by
  have hlt := extent.isLt
  have hstart : (placeStart extent size).toNat = (extent.toNat - size.toNat) / 2 := by
    rw [placeStart, BitVec.toNat_ofNat, Nat.mod_eq_of_lt (by omega)]
  have hend : (placeEnd extent size).toNat + 1 = (placeStart extent size).toNat + size.toNat := by
    rw [placeEnd]
    generalize placeStart extent size = x at hstart ⊢
    bv_omega
  refine ⟨hstart, hend, ?_, by omega, by omega⟩
  rw [placeEnd]
  bv_omega

theorem image_fits {l : Latch} (h : imageUnfit l = false) :
    1 ≤ l.imageW.toNat ∧ 1 ≤ l.imageH.toNat ∧ l.imageW.toNat ≤ l.cfg.width.toNat ∧
      l.imageH.toNat ≤ l.cfg.height.toNat := by
  simp only [imageUnfit, Bool.or_eq_false_iff, decide_eq_false_iff_not] at h
  omega

/-- Settles O34: `placement_fits` on both axes. -/
theorem placementFitsThePanel : Obligations.PlacementFitsThePanel := by
  intro l hfit
  obtain ⟨hw, hh, hwW, hhH⟩ := image_fits hfit
  obtain ⟨hx0, hx1, hxs, hxle, hxlt⟩ := placement_fits hw hwW
  obtain ⟨hy0, hy1, hys, hyle, hylt⟩ := placement_fits hh hhH
  exact ⟨hx0, hy0, hx1, hy1, hxs, hys,
    (windowLegal_iff _ _ _ _ _).2 ⟨⟨hxle, hxlt⟩, hyle, hylt⟩⟩

/-! ### The backlight line -/

/-- Binary mode (44_backlight.md R223). -/
theorem blLine_binary {s : State} (h : s.regs.cfg.blm = true) :
    s.blLine = .high ↔ s.regs.blOut ≠ 0 := by
  rw [State.blLine, if_pos h]
  by_cases h0 : s.regs.blOut = 0 <;> simp [h0]

/-- Continuous mode (R224). -/
theorem blLine_continuous {s : State} (h : s.regs.cfg.blm = false) :
    s.blLine = .high ↔ s.pwmCnt < s.pwmOut.toNat * s.params.pwmRes / 65536 := by
  rw [State.blLine, if_neg (by simp [h])]
  by_cases hlt : s.pwmCnt < pwmHighTicks s.pwmOut s.params.pwmRes
  · rw [if_pos hlt]
    exact iff_of_true rfl hlt
  · rw [if_neg hlt]
    exact iff_of_false nofun hlt

theorem low_of_not_high {l : Level} (h : ¬ l = .high) : l = .low := by
  cases l
  · rfl
  · exact absurd rfl h

theorem pwmTick_pwmCnt {s : State} (h : s.pwmCnt < s.params.pwmRes) :
    (pwmTick s).pwmCnt = if s.pwmCnt + 1 = s.params.pwmRes then 0 else s.pwmCnt + 1 := by
  show (s.pwmCnt + 1) % s.params.pwmRes = _
  split
  · rename_i hend
    rw [hend, Nat.mod_self]
  · exact Nat.mod_eq_of_lt (by omega)

/-- Settles O37: the line is `blLine_binary` and `blLine_continuous`, and a tick takes the output over
at the start of a period. -/
theorem backlightLineFollowsTheOutput : Obligations.BacklightLineFollowsTheOutput := by
  refine ⟨fun s => blLine_binary, fun s hmode hcnt => ⟨blLine_continuous hmode, fun h0 => ?_,
    fun hfull => ?_⟩, fun s hcnt => ⟨pwmTick_pwmCnt hcnt, fun h0 => ?_, ?_⟩, fun s ts hturns => ?_⟩
  · refine low_of_not_high (mt (blLine_continuous hmode).1 ?_)
    simp [h0]
  · rw [blLine_continuous hmode, hfull, show (65536 : Duty).toNat = 65536 from rfl,
      Nat.mul_div_cancel_left _ (by decide)]
    exact hcnt
  · have hcnt0 : (s.pwmCnt + 1) % s.params.pwmRes = 0 := h0
    simp [pwmTick, hcnt0]
  · rw [pwmTick]
    split
    · exact .inl rfl
    · exact .inr rfl
  · exact ⟨_, step_turn hturns, rfl, rfl, rfl⟩

end Sys2Proof.Machine

/-! Proofs about the registers as the host reads and writes them (10_state.md) and about host memory
(20_memory.md). -/

namespace Sys2Proof.Machine

/-! ### Reads -/

theorem step_readRegister {s : State} {off : BitVec 8} {ts : List Turn}
    (h : s.turns = .host (.read off .w32) :: ts) (h4 : off.toNat % 4 = 0) :
    step s = .next { s with turns := ts, reads := s.reads ++ [readRegister s off] } := by
  rw [step_turn h, takeTurn, hostAccess_read_legal ((accessLegal_iff off .w32).2 ⟨rfl, h4⟩)]
  rfl

theorem readRegister_ctrl (s : State) : readRegister s 0 = 0 := rfl

/-- A register of two half words, bit by bit. -/
theorem getLsbD_halves (w : Word) {i : Nat} (hi : i < 32) :
    w.getLsbD i = if i < 16 then (lowHalf w).getLsbD i else (highHalf w).getLsbD (i - 16) := by
  split
  · simp [lowHalf, *]
  · simp [highHalf, show i - 16 < 16 by omega, show 16 + (i - 16) = i by omega]

theorem getLsbD_pack (a b : Half) (i : Nat) :
    (pack a b).getLsbD i = if i < 16 then a.getLsbD i else b.getLsbD (i - 16) := by
  rw [pack, BitVec.getLsbD_append]

/-- A narrow register reads 0 above its bits. -/
theorem getLsbD_widen {n : Nat} (d : BitVec n) {i : Nat} (hi : i < 32) :
    (d.setWidth 32).getLsbD i = if i < n then d.getLsbD i else false := by
  rw [BitVec.getLsbD_setWidth, decide_eq_true hi, Bool.true_and]
  split
  · rfl
  · exact BitVec.getLsbD_of_ge d i (by omega)

/-- CFG_MODE below its reserved bits (R32). -/
theorem getLsbD_mode (c : CfgRegs) {i : Nat} (hi : i < 19) :
    c.mode.getLsbD i =
      if i < 16 then c.rotDeg.getLsbD i else if i = 16 then c.bgr else if i = 17 then c.inv
      else c.blm := by
  split_ifs with h16 h h
  · rw [getLsbD_halves c.mode (by omega), if_pos h16, CfgRegs.rotDeg]
  · rw [h, CfgRegs.bgr]
  · rw [h, CfgRegs.inv]
  · rw [show i = 18 by omega, CfgRegs.blm]

/-- The reserved bits of CFG_MODE are 0 under the invariant (R32). -/
theorem getLsbD_mode_reserved {s : State} (h : Inv s) {i : Nat} (hlo : 19 ≤ i) (hi : i < 32) :
    s.regs.cfg.mode.getLsbD i = false := by
  have hw : ∀ k < 32, 19 ≤ k → cfgModeWritable.getLsbD k = false := by decide
  have hbit := congrArg (fun w : Word => w.getLsbD i) h.cfgMode
  simpa only [BitVec.getLsbD_and, BitVec.getLsbD_not, hi, hw i hi hlo, decide_true, Bool.not_false,
    Bool.and_true, BitVec.ofNat_eq_ofNat, BitVec.getLsbD_zero] using hbit

/-- Settles O44: the step is `step_readRegister`, and each register is read at its bits. -/
theorem registerReadsShowTheFields : Obligations.RegisterReadsShowTheFields := by
  refine ⟨fun s off ts h4 hturns => step_readRegister hturns h4, fun s i hi => ?_⟩
  exact ⟨getLsbD_halves _ hi, getLsbD_halves _ hi, fun h19 => getLsbD_mode _ h19,
    fun hinv hlo => getLsbD_mode_reserved hinv hlo hi, rfl, rfl, rfl, getLsbD_widen _ hi,
    getLsbD_widen _ hi, getLsbD_pack _ _ i, getLsbD_widen _ hi⟩

/-! ### Writes -/

theorem writeRegister_operand {off : BitVec 8} (h : off ∈ [0x08#8, 0x0C#8, 0x10#8, 0x14#8])
    (v : Word) (s : State) :
    writeRegister off v s = { s with regs := { s.regs with
      arg0 := if off = 0x08 then v else s.regs.arg0
      arg1 := if off = 0x0C then v else s.regs.arg1
      addr := if off = 0x10 then v else s.regs.addr
      len := if off = 0x14 then v else s.regs.len } } := by
  simp only [List.mem_cons, List.not_mem_nil, or_false] at h
  rcases h with rfl | rfl | rfl | rfl <;> rfl

/-- Settles O38: the write is `writeRegister_operand`, and the read after it returns the value. -/
theorem operandRegistersReadBack : Obligations.OperandRegistersReadBack := by
  intro s off v ts hoff hturns
  have hword : ∀ o ∈ [0x08#8, 0x0C#8, 0x10#8, 0x14#8], o ≠ 0 ∧ o.toNat % 4 = 0 := by decide
  obtain ⟨h0, h4⟩ := hword off hoff
  refine ⟨_, step_writeRegister hturns h0 h4, writeRegister_operand hoff v _, ?_⟩
  rw [step_readRegister (ts := ts) (by rw [writeRegister_operand hoff]) h4,
    readRegister_writeRegister_operand hoff, writeRegister_operand hoff]

theorem writeRegister_readOnly {off : BitVec 8} (h : 0x30 ≤ off.toNat) (v : Word) (s : State) :
    writeRegister off v s = s := by
  unfold writeRegister
  split
  iterate 11 omega
  rfl

/-- Settles O42: reads of CTRL and above the map are 0, and no write from 0x30 on has an effect. -/
theorem reservedAndReadOnlyOffsets : Obligations.ReservedAndReadOnlyOffsets := by
  refine fun s off v ts h4 => ⟨fun hres hturns => ?_, fun hro hturns => ?_⟩
  · have hread : readRegister s off = 0 := by
      obtain hres | rfl := hres
      · exact readRegister_reserved s hres
      · exact readRegister_ctrl s
    rw [step_readRegister hturns h4, hread]
  · have h0 : off ≠ 0 := by
      rintro rfl
      simp at hro
    rw [step_writeRegister hturns h0 h4, writeRegister_readOnly hro]

/-- The configuration shows at its own six offsets alone. -/
theorem readRegister_setCfg {off : BitVec 8}
    (h : off ∉ [0x18#8, 0x1C#8, 0x20#8, 0x24#8, 0x28#8, 0x2C#8]) (c : CfgRegs) (s : State) :
    readRegister { s with regs := { s.regs with cfg := c } } off = readRegister s off := by
  have hoff : off.toNat ∉ [0x18, 0x1C, 0x20, 0x24, 0x28, 0x2C] := by
    simpa [BitVec.toNat_eq] using h
  unfold readRegister
  split <;> first | rfl | simp_all

/-- A read after a store into the configuration: the value at its offset, any other as before. -/
theorem readRegister_store {off : BitVec 8}
    (h : off ∈ [0x18#8, 0x1C#8, 0x20#8, 0x24#8, 0x28#8, 0x2C#8]) (off' : BitVec 8) (v : Word)
    (s : State) :
    readRegister { s with regs := { s.regs with cfg := s.regs.cfg.store off v } } off' =
      if off' = off then (if off = 0x20 then v &&& 0x0007FFFF else v) else readRegister s off' := by
  by_cases h' : off' ∈ [0x18#8, 0x1C#8, 0x20#8, 0x24#8, 0x28#8, 0x2C#8]
  · simp only [List.mem_cons, List.not_mem_nil, or_false] at h h'
    rcases h with rfl | rfl | rfl | rfl | rfl | rfl <;>
      rcases h' with rfl | rfl | rfl | rfl | rfl | rfl <;> rfl
  · rw [readRegister_setCfg h', if_neg (by rintro rfl; exact h' h)]

theorem busy_eq_false_iff (s : State) : s.busy = false ↔ s.op = none := by
  rw [State.busy, Option.isSome_eq_false_iff, Option.isNone_iff_eq_none]

theorem cfgWritable_iff_idle (s : State) :
    s.cfgWritable = true ↔ s.status.cfgLock = false ∧ s.op = none := by
  rw [cfgWritable_iff, busy_eq_false_iff]

@[simp] theorem writeRegister_turns (off : BitVec 8) (v : Word) (s : State) :
    (writeRegister off v s).turns = s.turns := by
  obtain h | ⟨-, h⟩ | ⟨_, _, _, _, h⟩ | ⟨-, -, _, -, h⟩ := writeRegister_cases off v s <;> rw [h]

@[simp] theorem writeRegister_reads (off : BitVec 8) (v : Word) (s : State) :
    (writeRegister off v s).reads = s.reads := by
  obtain h | ⟨-, h⟩ | ⟨_, _, _, _, h⟩ | ⟨-, -, _, -, h⟩ := writeRegister_cases off v s <;> rw [h]

/-- A read after a write to the configuration: stored only while unlocked and idle (R36). -/
theorem readRegister_writeRegister_cfg {off : BitVec 8}
    (h : off ∈ [0x18#8, 0x1C#8, 0x20#8, 0x24#8, 0x28#8, 0x2C#8]) (off' : BitVec 8) (v : Word)
    (s : State) :
    readRegister (writeRegister off v s) off' =
      if off' = off ∧ s.status.cfgLock = false ∧ s.op = none then
        (if off = 0x20 then v &&& 0x0007FFFF else v)
      else readRegister s off' := by
  rw [writeRegister_cfg h]
  simp only [← cfgWritable_iff_idle]
  by_cases hw : s.cfgWritable = true
  · simp only [writeCfg_of_writable hw, readRegister_store h, hw, and_true]
  · rw [writeCfg_of_not_writable hw, if_neg fun hc => hw hc.2]

/-- Settles O60: the write is one guarded store, and the read after it
`readRegister_writeRegister_cfg`. -/
theorem cfgRegistersReadBack : Obligations.CfgRegistersReadBack := by
  intro s off off' v ts hoff h4' hturns
  have hword : ∀ o ∈ [0x18#8, 0x1C#8, 0x20#8, 0x24#8, 0x28#8, 0x2C#8], o ≠ 0 ∧ o.toNat % 4 = 0 := by
    decide
  obtain ⟨h0, h4⟩ := hword off hoff
  refine ⟨_, step_writeRegister hturns h0 h4, ?_⟩
  rw [step_readRegister (writeRegister_turns _ _ _) h4', writeRegister_reads,
    readRegister_writeRegister_cfg hoff]
  rfl

/-! ### Host stores -/

theorem step_store {s : State} {a : Word} {v : Byte} {ts : List Turn}
    (h : s.turns = .host (.store a v) :: ts) :
    step s = .next (hostStore a v { s with turns := ts }) :=
  step_turn h

/-- Settles O49: the step is one `Memory.write`, and an idle block has no payload to race for. -/
theorem hostStoreWritesOneByte : Obligations.HostStoreWritesOneByte := by
  intro s a v ts hwf hturns
  refine ⟨_, step_store hturns, memory_write_wf hwf a.isLt, ?_, fun b hb => ?_, fun hidle ht => ?_⟩
  · exact (memory_read_write hwf a.toNat).trans (if_pos rfl)
  · exact (memory_read_write hwf b).trans (if_neg hb)
  · simp [hostStore, State.busy, hidle, ht]

/-- The two bytes of a pixel that has not been sent race alike. -/
theorem race_pixel {start a : Word} {v : Byte} {n : Nat} {ms : List Micro} {k : Nat}
    {r g b : Fetched} (hlow : (bytesToSend ms)[k]? = some (.pixelLow r g b))
    (hhigh : (bytesToSend ms)[k + 1]? = some (.pixelHigh r g b)) :
    ∃ r' g' b', (bytesToSend (raceProgram start a v n ms))[k]? = some (.pixelLow r' g' b') ∧
      (bytesToSend (raceProgram start a v n ms))[k + 1]? = some (.pixelHigh r' g' b') := by
  refine ⟨r.race start a v n, g.race start a v n, b.race start a v n, ?_⟩
  obtain h | ⟨r₀, g₀, b₀, bs, hbytes, h⟩ := bytesToSend_raceProgram start a v n ms
  · rw [h, List.getElem?_map, List.getElem?_map, hlow, hhigh]
    exact ⟨rfl, rfl⟩
  · rw [hbytes] at hlow hhigh
    cases k with
    | zero => simp at hlow
    | succ k =>
      rw [List.getElem?_cons_succ] at hlow hhigh
      rw [h, List.getElem?_cons_succ, List.getElem?_cons_succ, List.getElem?_map, List.getElem?_map,
        hlow, hhigh]
      exact ⟨rfl, rfl⟩

/-- Settles O50: what the store does to the program is `raceProgram`, whose laws give each clause. -/
theorem racingStoreGivesOldOrNewByte : Obligations.RacingStoreGivesOldOrNewByte := by
  intro s a v ts hturns
  refine ⟨_, step_store hturns, raceProgram_raced .., fun hno => ?_, fun r g b c ms ht => ?_,
    fun k r g b => race_pixel, rfl, rfl, rfl, rfl, rfl, rfl⟩
  · exact raceProgram_none _ _ _ _ fun i hi heq => hno ⟨i, hi, heq⟩
  · refine ⟨r.race s.latch.addr a v s.freeIx, race_fetched .., ?_⟩
    rw [hostStore, ht]
    rfl

end Sys2Proof.Machine

/-! Proofs about what any step of the machine can and cannot do: where it stops, what it may change, and
how a stalled block hangs (10_state.md, 40_transport.md, 60_exceptions.md). -/

namespace Sys2Proof.Machine

/-! ### Where the machine stops -/

/-- Settles O54: every turn has a next state but a register access that `accessLegal` excludes. -/
theorem nothingElseStopsTheMachine : Obligations.NothingElseStopsTheMachine := by
  intro s
  cases hturns : s.turns with
  | nil => exact .inl ⟨_, step_noTurn hturns⟩
  | cons tn ts =>
    rw [step_turn hturns]
    have hillegal : ∀ {off : BitVec 8} {w : Width}, ¬ accessLegal off w = true →
        w ≠ .w32 ∨ off.toNat % 4 ≠ 0 := by
      intro off w hl
      rwa [accessLegal_iff, not_and_or] at hl
    cases tn with
    | host a =>
      cases a with
      | read off w =>
        by_cases hl : accessLegal off w = true
        · exact .inl ⟨_, hostAccess_read_legal hl _⟩
        · exact .inr ⟨off, w, hostAccess_read_illegal hl _, hillegal hl⟩
      | write off w v =>
        by_cases hl : accessLegal off w = true
        · exact .inl (hostAccess_write_next hl v _)
        · exact .inr ⟨off, w, hostAccess_write_illegal hl v _, hillegal hl⟩
      | store a v => exact .inl ⟨_, rfl⟩
    | waitIdle => exact .inl ⟨_, rfl⟩
    | sequencer => exact .inl ⟨_, rfl⟩
    | pwmTick => exact .inl ⟨_, rfl⟩
    | blockReset => exact .inl ⟨_, rfl⟩

/-! ### Configuration and parameters -/

theorem TurnEffect.params_eq {s t : State} {tn : Turn} (he : TurnEffect s t tn) :
    t.params = s.params := by
  cases he with
  | read off _ h => rw [h]
  | ctrl v h => obtain rfl | ⟨-, rfl⟩ | ⟨-, o, -, rfl⟩ := writeCtrl_eq h <;> rfl
  | write off v _ _ h =>
    obtain hw | ⟨-, hw⟩ | ⟨_, _, _, _, hw⟩ | ⟨-, -, _, -, hw⟩ := writeRegister_cases off v s <;>
      rw [h, hw]
  | store a v h => rw [h]; rfl
  | waitIdle h => rw [h, pollIdle]; split <;> rfl
  | sequencer h => rw [h]; exact (seqStep_untouched s).params
  | pwmTick h => rw [h]; rfl
  | blockReset h => rw [h]; rfl

/-- The turns that can change the configuration: a block reset, and a write to one of its registers
while it is unlocked and the block is idle. -/
theorem TurnEffect.cfg_cases {s t : State} {tn : Turn} (he : TurnEffect s t tn) :
    t.regs.cfg = s.regs.cfg ∨ tn = .blockReset ∨
      (s.status.cfgLock = false ∧ s.op = none ∧ ∃ off v, tn = .host (.write off .w32 v) ∧
        off ∈ [0x18#8, 0x1C#8, 0x20#8, 0x24#8, 0x28#8, 0x2C#8]) := by
  cases he with
  | read off _ h => exact .inl (by rw [h])
  | ctrl v h => exact .inl (by obtain rfl | ⟨-, rfl⟩ | ⟨-, o, -, rfl⟩ := writeCtrl_eq h <;> rfl)
  | write off v _ _ h =>
    obtain hw | ⟨-, hw⟩ | ⟨_, _, _, _, hw⟩ | ⟨hoff, hcfg, _, -, -⟩ := writeRegister_cases off v s
    · exact .inl (by rw [h, hw])
    · exact .inl (by rw [h, hw])
    · exact .inl (by rw [h, hw])
    · obtain ⟨hlock, hidle⟩ := (cfgWritable_iff_idle s).1 hcfg
      exact .inr (.inr ⟨hlock, hidle, off, v, rfl, hoff⟩)
  | store a v h => exact .inl (by rw [h]; rfl)
  | waitIdle h => exact .inl (by rw [h, pollIdle]; split <;> rfl)
  | sequencer h => exact .inl (by rw [h, seqStep_cfg])
  | pwmTick h => exact .inl (by rw [h]; rfl)
  | blockReset _ => exact .inr (.inl rfl)

/-- Settles O55: no move of the sequencer changes either, and `TurnEffect.cfg_cases` names the turns
that change the configuration. -/
theorem configurationChangesOnlyUnlocked : Obligations.ConfigurationChangesOnlyUnlocked := by
  intro s t hstep
  obtain ⟨-, rfl⟩ | ⟨tn, ts, hturns, he⟩ := step_cases hstep
  · exact ⟨(seqStep_untouched s).params, fun hne => absurd (seqStep_cfg s) hne⟩
  · refine ⟨he.params_eq, fun hne => ?_⟩
    rw [hturns, List.head?_cons]
    obtain hsame | rfl | ⟨hlock, hidle, off, v, rfl, hoff⟩ := he.cfg_cases
    · exact absurd hsame hne
    · exact .inl rfl
    · exact .inr ⟨hlock, hidle, off, v, rfl, hoff⟩

/-! ### The trace -/

@[simp] theorem writeRegister_trace (off : BitVec 8) (v : Word) (s : State) :
    (writeRegister off v s).trace = s.trace := by
  obtain h | ⟨-, h⟩ | ⟨_, _, _, _, h⟩ | ⟨-, -, _, -, h⟩ := writeRegister_cases off v s <;> rw [h]

/-- No turn but the sequencer's emits an event. -/
theorem TurnEffect.trace_eq {s t : State} {tn : Turn} (he : TurnEffect s t tn)
    (hseq : tn ≠ .sequencer) : t.trace = s.trace := by
  cases he with
  | read off _ h => rw [h]
  | ctrl v h => obtain rfl | ⟨-, rfl⟩ | ⟨-, o, -, rfl⟩ := writeCtrl_eq h <;> rfl
  | write off v _ _ h => rw [h, writeRegister_trace]
  | store a v h => rw [h]; rfl
  | waitIdle h => rw [h, pollIdle]; split <;> rfl
  | sequencer _ => exact absurd rfl hseq
  | pwmTick h => rw [h]; rfl
  | blockReset h => rw [h]; rfl

/-- Settles O56: the sequencer's step is `seqStep_trace`, and no other turn emits. -/
theorem traceOnlyGrows : Obligations.TraceOnlyGrows := by
  intro s t hstep
  obtain ⟨hturns, rfl⟩ | ⟨tn, ts, hturns, he⟩ := step_cases hstep
  · obtain ⟨evs, htrace, hlen, hrun, -⟩ := seqStep_trace s
    refine ⟨evs, htrace, hlen, fun hne => ?_⟩
    obtain ⟨hop, hst⟩ := hrun hne
    exact ⟨hop, hst, .inl hturns⟩
  · by_cases hseq : tn = .sequencer
    · subst hseq
      cases he with
      | sequencer ht =>
        obtain ⟨evs, htrace, hlen, hrun, -⟩ := seqStep_trace { s with turns := ts }
        refine ⟨evs, ht ▸ htrace, hlen, fun hne => ?_⟩
        obtain ⟨hop, hst⟩ := hrun hne
        exact ⟨hop, hst, .inr (by rw [hturns, List.head?_cons])⟩
    · exact ⟨[], by rw [he.trace_eq hseq, List.append_nil], Nat.zero_le 2, fun hne => absurd rfl hne⟩

/-! ### How an operation can start -/

/-- From an idle block no turn but a CTRL write leaves an operation running. -/
theorem TurnEffect.starts {s t : State} {tn : Turn} {o : Operation} (he : TurnEffect s t tn)
    (hidle : s.op = none) (ht : t.op = some o) :
    ∃ v, tn = .host (.write 0 .w32 v) ∧ ctrlOp v = o.code := by
  have hno : ∀ {u : State}, t = u → u.op = none → False := by
    rintro u rfl hu
    rw [hu] at ht
    cases ht
  cases he with
  | read off _ h => exact (hno h hidle).elim
  | ctrl v h =>
    obtain rfl | ⟨-, rfl⟩ | ⟨-, o', hc, rfl⟩ := writeCtrl_eq h
    · exact (hno rfl hidle).elim
    · exact (hno rfl hidle).elim
    · cases ht
      exact ⟨v, rfl, hc.symm⟩
  | write off v _ _ h => exact (hno h ((writeRegister_op off v s).trans hidle)).elim
  | store a v h => exact (hno h hidle).elim
  | waitIdle h => exact (hno h ((pollIdle_op s).trans hidle)).elim
  | sequencer h => exact (hno h ((congrArg State.op (seqStep_idle hidle)).trans hidle)).elim
  | pwmTick h => exact (hno h hidle).elim
  | blockReset h => exact (hno h rfl).elim

/-- Settles O57: an idle sequencer does nothing, and `TurnEffect.starts` names the one turn. -/
theorem onlyCtrlWritesStartOperations : Obligations.OnlyCtrlWritesStartOperations := by
  refine ⟨fun s t o hidle hstep ht => ?_, readRegister_ctrl⟩
  obtain ⟨-, rfl⟩ | ⟨tn, ts, hturns, he⟩ := step_cases hstep
  · rw [seqStep_idle hidle, hidle] at ht
    cases ht
  · obtain ⟨v, rfl, hc⟩ := he.starts hidle ht
    exact ⟨v, ts, hturns, hc⟩

/-! ### A stalled block -/

theorem transfer_stall {s : State} (h : s.outcomeAt 0 = .stall) (bs : List Byte)
    (onFail : State → State) : transfer bs onFail s = { s.drawOutcome with stalled := true } := by
  simp [transfer, h]

theorem seqStep_stall {s : State} {m : Micro} {ms : List Micro} (hop : s.op ≠ none)
    (hst : s.stalled = false) (ht : s.todo = m :: ms) (hm : m.isTransfer = true)
    (ho : s.outcomeAt 0 = .stall) :
    seqStep s = { s.drawOutcome with todo := ms, stepIx := s.stepIx + 1, stalled := true } := by
  rw [seqStep_perform hop hst ht]
  cases m with
  | cmdTransfer b => exact transfer_stall (s := { s with todo := ms, stepIx := s.stepIx + 1 }) ho _ _
  | dataTransfer c => exact transfer_stall (s := { s with todo := ms, stepIx := s.stepIx + 1 }) ho _ _
  | _ => cases hm

@[simp] theorem writeRegister_stalled (off : BitVec 8) (v : Word) (s : State) :
    (writeRegister off v s).stalled = s.stalled := by
  obtain h | ⟨-, h⟩ | ⟨_, _, _, _, h⟩ | ⟨-, -, _, -, h⟩ := writeRegister_cases off v s <;> rw [h]

/-- A stalled operation keeps running under every turn but the block reset. -/
theorem TurnEffect.stalled_running {s t : State} {tn : Turn} (he : TurnEffect s t tn)
    (hop : s.op ≠ none) (hst : s.stalled = true) (hreset : tn ≠ .blockReset) :
    t.op = s.op ∧ t.stalled = true ∧ t.trace = s.trace := by
  cases he with
  | read off _ h => rw [h]; exact ⟨rfl, hst, rfl⟩
  | ctrl v h =>
    obtain rfl | ⟨-, rfl⟩ | ⟨hidle, -⟩ := writeCtrl_eq h
    · exact ⟨rfl, hst, rfl⟩
    · exact ⟨rfl, hst, rfl⟩
    · exact absurd hidle hop
  | write off v _ _ h =>
    rw [h]
    exact ⟨writeRegister_op off v s, (writeRegister_stalled off v s).trans hst,
      writeRegister_trace off v s⟩
  | store a v h => rw [h]; exact ⟨rfl, hst, rfl⟩
  | waitIdle h => rw [h, pollIdle]; split <;> exact ⟨rfl, hst, rfl⟩
  | sequencer h => rw [h, seqStep_stalled hst]; exact ⟨rfl, hst, rfl⟩
  | pwmTick h => rw [h]; exact ⟨rfl, hst, rfl⟩
  | blockReset _ => exact absurd rfl hreset

/-- Settles O26: the stalled transfer is `seqStep_stall`, the hanging block
`TurnEffect.stalled_running`, and the CTRL write to it a rejection. -/
theorem stallHangsUntilBlockReset : Obligations.StallHangsUntilBlockReset := by
  refine ⟨fun s o m ms hop hst ht hm ho => ?_, fun s t hop hst hstep hreset => ?_,
    fun s v ts hop _ h0 hturns => ?_, fun s ts hturns => ⟨_, step_blockReset hturns, rfl, rfl⟩⟩
  · have hne : s.op ≠ none := by simp [hop]
    rw [seqStep_stall hne hst ht hm ho]
    exact ⟨hop, rfl, rfl⟩
  · have hkeep : t.op = s.op ∧ t.stalled = true ∧ t.trace = s.trace := by
      obtain ⟨-, rfl⟩ | ⟨tn, ts, hturns, he⟩ := step_cases hstep
      · rw [seqStep_stalled hst]
        exact ⟨rfl, hst, rfl⟩
      · refine he.stalled_running (s := { s with turns := ts }) hop hst ?_
        rintro rfl
        exact hreset (by rw [hturns, List.head?_cons])
    obtain ⟨ho, hs, htr⟩ := hkeep
    exact ⟨ho, hs, (busy_iff t).2 (ho ▸ hop), htr⟩
  · exact ⟨_, (step_writeCtrl hturns).trans (writeCtrl_rejected h0 (.inl hop)), rfl⟩

end Sys2Proof.Machine

/-! Proofs about how an operation ends (40_transport.md, 60_exceptions.md): the first failing transfer of
any operation, the abort of INIT and SHUTDOWN, and the end of every operation under BUS_FAIR, with the
polling loop that waits for it. -/

namespace Sys2Proof.Machine

/-! ### A failing transfer of any kind -/

/-- A failing transfer raises BusIOError in a state that differs from the one before by its events, the
bus and, after a command, the level of DC. -/
theorem seqStep_fail {s : State} {m : Micro} {ms : List Micro} (hop : s.op ≠ none)
    (hst : s.stalled = false) (ht : s.todo = m :: ms) (hm : m.isTransfer = true)
    (hf : s.outcomeAt 0 = .fail) :
    ∃ w evs, seqStep s = raiseError .busIO w ∧ w.op = s.op ∧ w.regs = s.regs ∧
      w.status = s.status ∧ w.trace = s.trace ++ evs ∧ evs.countP Event.isXfer = 0 ∧
      evs.countP Event.isXferFail = 1 ∧
      (linesDisciplined s.dc s.rst s.todo = true → w.dc = .high ∧ w.rst = .high) := by
  rw [ht]
  cases m with
  | cmdTransfer b =>
    exact ⟨_, [.xferFail [b], .dcSet .high], seqStep_cmdTransfer_fail hop hst ht hf, rfl, rfl, rfl,
      List.append_assoc _ _ _, rfl, rfl, fun hl => ⟨rfl, (lines_of_abort (.inl rfl) hl).1⟩⟩
  | dataTransfer c =>
    refine ⟨_, [.xferFail (c.map OutByte.value)], seqStep_dataTransfer_fail hop hst ht hf, rfl, rfl,
      rfl, rfl, rfl, rfl, fun hl => ?_⟩
    obtain ⟨hrst, ⟨_, hb⟩ | hdc⟩ := lines_of_abort (.inl rfl) hl
    · cases hb
    · exact ⟨hdc, hrst⟩
  | _ => cases hm

/-- A bus error in INIT or SHUTDOWN clears INIT_DONE (41_init_sequencer.md R161). -/
theorem raiseError_busIO_initDone {w : State} {o : Operation} (hop : w.op = some o)
    (ho : o = .init ∨ o = .shutdown) : (raiseError .busIO w).status.initDone = false := by
  have hclear : abortClearsInitDone .busIO o = true := by rcases ho with rfl | rfl <;> rfl
  simp [raiseError_status .busIO hop, hclear]

/-- Settles O28: the failing step is one `raiseError .busIO`, which leaves the block idle. -/
theorem abortOfInitOrShutdown : Obligations.AbortOfInitOrShutdown := by
  intro s o m ms hop ho hst ht hm hf
  obtain ⟨w, _, hstep, hwop, hwregs, hwst, -⟩ := seqStep_fail (by simp [hop]) hst ht hm hf
  rw [hstep]
  refine ⟨raiseError_busIO_initDone (hwop.trans hop) ho, ?_, ?_, raiseError_op _ _,
    seqRun_idle (raiseError_op _ _)⟩
  · rw [raiseError_cfgLock, hwst]
  · rw [raiseError_regs, hwregs]

/-! ### A program up to its first failing transfer -/

/-- The transfer with index `k` of a program. -/
theorem split_at_transfer {ms : List Micro} {k : Nat} (hk : k < transfersIn ms) :
    ∃ a m b, ms = a ++ m :: b ∧ transfersIn a = k ∧ m.isTransfer = true := by
  induction ms generalizing k with
  | nil => exact absurd hk (Nat.not_lt_zero k)
  | cons x ms ih =>
    rw [transfersIn_cons] at hk
    by_cases hx : x.isTransfer = true
    · rw [if_pos hx] at hk
      cases k with
      | zero => exact ⟨[], x, ms, rfl, rfl, hx⟩
      | succ k =>
        obtain ⟨a, m, b, rfl, ha, hm⟩ := ih (Nat.lt_of_succ_lt_succ hk)
        exact ⟨x :: a, m, b, rfl, by rw [transfersIn_cons, ha, if_pos hx], hm⟩
    · rw [if_neg hx] at hk
      obtain ⟨a, m, b, rfl, ha, hm⟩ := ih hk
      exact ⟨x :: a, m, b, rfl, by rw [transfersIn_cons, ha, if_neg hx, Nat.add_zero], hm⟩

/-- The outcomes that are left after a completed micro-step. -/
theorem okStep_busOk {m : Micro} {s : State} {n : Nat} (hm : m.goesOn = true)
    (h : s.BusOk (n + if m.isTransfer then 1 else 0)) : (okStep m s).BusOk n := by
  intro k hk
  rw [okStep_outcomeAt hm]
  exact h _ (by omega)

/-- A running operation performs the first part of its program where the transfers in it complete. -/
theorem seqRun_firstPart {a rest : List Micro} {s : State} (hop : s.op ≠ none) (hst : s.stalled = false)
    (ht : s.todo = a ++ rest) (hgo : ∀ m ∈ a, m.goesOn = true) (hok : s.BusOk (transfersIn a)) :
    seqRun a.length s =
      { okFold a s with todo := rest, stepIx := s.stepIx + a.length } := by
  induction a generalizing s with
  | nil =>
    cases s
    simp_all
  | cons m a ih =>
    have ht' : s.todo = m :: (a ++ rest) := ht
    have hm : m.goesOn = true := hgo m List.mem_cons_self
    have ha : ∀ x ∈ a, x.goesOn = true := fun x hx => hgo x (List.mem_cons_of_mem m hx)
    rw [transfersIn_cons] at hok
    have hfirst : m.isTransfer = true → s.outcomeAt 0 = .ok := fun htr =>
      hok 0 (by rw [if_pos htr]; omega)
    rw [List.length_cons, seqRun_succ, seqStep_perform hop hst ht',
      perform_ok (s := { s with todo := a ++ rest, stepIx := s.stepIx + 1 }) hfirst,
      okStep_program hm, ih (s := { okStep m s with todo := a ++ rest, stepIx := s.stepIx + 1 })
        (by simpa [okStep_op hm] using hop) (by simpa [okStep_stalled hm] using hst) rfl ha
        (okStep_busOk hm hok),
      okFold_cons, okFold_program ha]
    simp [Nat.add_assoc, Nat.add_comm 1]

theorem okFold_op {ms : List Micro} (h : ∀ m ∈ ms, m.goesOn = true) (s : State) :
    (okFold ms s).op = s.op := by
  induction ms generalizing s with
  | nil => rfl
  | cons m ms ih =>
    rw [okFold_cons, ih (fun x hx => h x (List.mem_cons_of_mem m hx)),
      okStep_op (h m List.mem_cons_self)]

theorem okFold_lines {a rest : List Micro} {s : State}
    (h : linesDisciplined s.dc s.rst (a ++ rest) = true) :
    linesDisciplined (okFold a s).dc (okFold a s).rst rest = true := by
  induction a generalizing s with
  | nil => exact h
  | cons m a ih => exact ih (okStep_lines h)

theorem countP_events (m : Micro) (s : State) :
    (m.events s).countP Event.isXfer = (if m.isTransfer then 1 else 0) ∧
      (m.events s).countP Event.isXferFail = 0 := by
  cases m <;> exact ⟨rfl, rfl⟩

/-- The events of a program whose transfers complete: one `xfer` for each of them, and no failure. -/
theorem okFold_trace (ms : List Micro) (s : State) :
    ∃ evs, (okFold ms s).trace = s.trace ++ evs ∧ evs.countP Event.isXfer = transfersIn ms ∧
      evs.countP Event.isXferFail = 0 := by
  induction ms generalizing s with
  | nil => exact ⟨[], (List.append_nil _).symm, rfl, rfl⟩
  | cons m ms ih =>
    obtain ⟨evs, htrace, hxfer, hfail⟩ := ih (okStep m s)
    obtain ⟨hx, hf⟩ := countP_events m s
    refine ⟨m.events s ++ evs, ?_, ?_, ?_⟩
    · rw [okFold_cons, htrace, okStep_trace, List.append_assoc]
    · rw [List.countP_append, hxfer, hx, transfersIn_cons, Nat.add_comm]
    · rw [List.countP_append, hfail, hf]

theorem okFold_outcomeAt {ms : List Micro} (h : ∀ m ∈ ms, m.goesOn = true) (s : State) :
    (okFold ms s).outcomeAt 0 = s.outcomeAt (transfersIn ms) := by
  obtain ⟨hbus, hcount⟩ := okFold_bus h s
  simp [State.outcomeAt, hbus, hcount]

/-- The first failing transfer ends a running operation: the transfers before it have completed, it has
failed, and the error is recorded. -/
theorem finish_firstFailure {s : State} {o : Operation} {k : Nat} (hop : s.op = some o)
    (hst : s.stalled = false) (hgo : ∀ m ∈ s.todo, m.goesOn = true)
    (hlines : linesDisciplined s.dc s.rst s.todo = true) (hk : k < transfersIn s.todo)
    (hok : s.BusOk k) (hf : s.outcomeAt k = .fail) :
    ∃ evs, s.finish.trace = s.trace ++ evs ∧ evs.countP Event.isXfer = k ∧
      evs.countP Event.isXferFail = 1 ∧ s.finish.op = none ∧
      s.finish.dc = .high ∧ s.finish.rst = .high ∧ s.finish.status.busErr = true ∧
      s.finish.status.errOp = o.code ∧
      (o = .init ∨ o = .shutdown → s.finish.status.initDone = false) := by
  obtain ⟨a, m, b, ht, rfl, hm⟩ := split_at_transfer hk
  have hga : ∀ x ∈ a, x.goesOn = true := fun x hx => hgo x (ht ▸ List.mem_append_left _ hx)
  have hne : s.op ≠ none := by simp [hop]
  obtain ⟨evs, htrace, hxfer, hxfail⟩ := okFold_trace a s
  let v : State := { okFold a s with todo := m :: b, stepIx := s.stepIx + a.length }
  have hvop : v.op = some o := (okFold_op hga s).trans hop
  have hvne : v.op ≠ none := by simp [hvop]
  have hvst : v.stalled = false := (okFold_stalled hga s).trans hst
  have hvf : v.outcomeAt 0 = .fail := (okFold_outcomeAt hga s).trans hf
  have hvlines : linesDisciplined v.dc v.rst (m :: b) = true := okFold_lines (ht ▸ hlines)
  obtain ⟨w, evs', hstep, hwop, -, -, hwtrace, hx', hf', hwlines⟩ :=
    seqStep_fail hvne hvst rfl hm hvf
  obtain ⟨hwdc, hwrst⟩ := hwlines hvlines
  have hfin : s.finish = raiseError .busIO w := by
    have hlen : s.todo.length + 1 = a.length + ((b.length + 1) + 1) := by
      rw [ht, List.length_append, List.length_cons]
      omega
    rw [State.finish, hlen, seqRun_add, seqRun_firstPart hne hst ht hga hok, seqRun_succ, hstep,
      seqRun_idle (raiseError_op _ _)]
  have hwo : w.op = some o := hwop.trans hvop
  rw [hfin]
  refine ⟨evs ++ evs', ?_, ?_, ?_, raiseError_op _ _, (raiseError_dc _ _).trans hwdc,
    (raiseError_rst _ _).trans hwrst, raiseError_busErr (by simp [hwo]), raiseError_errOp _ hwo, raiseError_busIO_initDone hwo⟩
  · rw [raiseError_trace, hwtrace, ← List.append_assoc, ← htrace]
  · rw [List.countP_append, hxfer, hx', Nat.add_zero]
  · rw [List.countP_append, hxfail, hf']

/-- Settles O27: an operation that has transfers has no failing check in its program, so
`finish_firstFailure` speaks of it. -/
theorem firstFailureAbortsTheOperation : Obligations.FirstFailureAbortsTheOperation := by
  rintro s x y ⟨hidle, hdc, hrst⟩ io hio
  have hio' : operationOf io.1 = some io.2 := by
    simp only [List.mem_cons, List.not_mem_nil, or_false] at hio
    rcases hio with rfl | rfl | rfl | rfl | rfl | rfl | rfl | rfl | rfl <;> rfl
  refine ⟨_, exec_begin hidle hio', fun k hk hok hf => ?_⟩
  refine finish_firstFailure (s := s.begin io.2 io.1.omits.1 io.1.omits.2) rfl rfl ?_ ?_ hk hok hf
  · obtain ⟨e, he⟩ | hgo := programOf_goesOn s io.2 (s.latchNow io.1.omits.1 io.1.omits.2)
    · rw [State.begin, he] at hk
      exact absurd hk (Nat.not_lt_zero k)
    · exact hgo
  · rw [State.begin, hdc, hrst]
    exact programOf_lines s io.2 _

/-! ### The end of every operation under BUS_FAIR -/

/-- An operation none of whose transfers stalls has ended one step after its last micro-step. -/
theorem seqRun_ends {ms : List Micro} {s : State} (ht : s.todo = ms) (hst : s.stalled = false)
    (hfair : s.BusFair (transfersIn ms)) : (seqRun (ms.length + 1) s).op = none := by
  by_cases hop : s.op = none
  · rw [seqRun_idle hop, hop]
  induction ms generalizing s with
  | nil => rw [List.length_nil, seqRun_succ, seqRun_zero, seqStep_end hop hst ht, endOperation_op]
  | cons m ms ih =>
    rw [List.length_cons, seqRun_succ, seqStep_perform hop hst ht]
    rw [transfersIn_cons] at hfair
    obtain h | ⟨b, -, -, h⟩ | ⟨c, -, -, h⟩ | ⟨hm, hs, -⟩ :=
      perform_cases m { s with todo := ms, stepIx := s.stepIx + 1 }
    · rw [h]
      by_cases hgo : m.goesOn = true
      · refine ih (okStep_todo hgo _) ((okStep_stalled hgo _).trans hst) (fun k hk => ?_)
          (by rw [okStep_op hgo]; exact hop)
        rw [okStep_outcomeAt hgo]
        exact hfair _ (by omega)
      · obtain ⟨e, rfl⟩ : ∃ e, m = .raise e := by cases m <;> simp [Micro.goesOn] at hgo ⊢
        exact (congrArg State.op (seqRun_idle (raiseError_op e _) _)).trans (raiseError_op e _)
    · rw [h, failCommand, seqRun_idle (raiseError_op _ _), raiseError_op]
    · rw [h, failData, seqRun_idle (raiseError_op _ _), raiseError_op]
    · exact absurd hs (hfair 0 (by rw [if_pos hm]; omega))

/-- Settles O29. -/
theorem operationsEndUnderBusFair : Obligations.OperationsEndUnderBusFair :=
  fun _ hst hfair => seqRun_ends rfl hst hfair

/-! ### The polling loop -/

/-- The state with other turns to come and other reads recorded. -/
def State.withHost (ts : List Turn) (rs : List Word) (s : State) : State :=
  { s with turns := ts, reads := rs }

section host

variable (ts : List Turn) (rs : List Word)

theorem raiseError_withHost (e : ErrorKind) (s : State) :
    raiseError e (s.withHost ts rs) = (raiseError e s).withHost ts rs := by
  obtain ⟨_, _, _, op, _⟩ := s
  cases op <;> rfl

theorem reportWindow_withHost (s : State) :
    reportWindow (s.withHost ts rs) = (reportWindow s).withHost ts rs := by
  obtain ⟨_, _, _, op, _⟩ := s
  cases op <;> rfl

theorem transfer_withHost (bs : List Byte) {onFail : State → State}
    (hf : ∀ u : State, onFail (u.withHost ts rs) = (onFail u).withHost ts rs) (s : State) :
    transfer bs onFail (s.withHost ts rs) = (transfer bs onFail s).withHost ts rs := by
  have ho : (s.withHost ts rs).outcomeAt 0 = s.outcomeAt 0 := rfl
  unfold transfer
  rw [ho]
  cases s.outcomeAt 0 with
  | ok => rfl
  | fail => exact hf (s.drawOutcome.emit (.xferFail bs))
  | stall => rfl

/-- No micro-step looks at the turns or at what the host has read. -/
theorem perform_withHost (m : Micro) (s : State) :
    perform m (s.withHost ts rs) = (perform m s).withHost ts rs := by
  cases m with
  | raise e => exact raiseError_withHost ts rs e s
  | winWarn => exact reportWindow_withHost ts rs s
  | cmdTransfer b =>
    exact transfer_withHost ts rs [b] (fun u => raiseError_withHost ts rs .busIO (u.driveDc .high)) s
  | dataTransfer c => exact transfer_withHost ts rs _ (raiseError_withHost ts rs .busIO) s
  | _ => rfl

theorem seqStep_withHost (s : State) :
    seqStep (s.withHost ts rs) = (seqStep s).withHost ts rs := by
  obtain ⟨h, hop | hst⟩ | ⟨hop, hst, htodo, h⟩ | ⟨hop, hst, m, ms, htodo, h⟩ := seqStep_cases s
  · rw [h, seqStep_idle (s := s.withHost ts rs) hop]
  · rw [h, seqStep_stalled (s := s.withHost ts rs) hst]
  · rw [h, seqStep_end (s := s.withHost ts rs) hop hst htodo]
    rfl
  · rw [h, seqStep_perform (s := s.withHost ts rs) hop hst htodo, ← perform_withHost]
    rfl

theorem seqRun_withHost (n : Nat) (s : State) :
    seqRun n (s.withHost ts rs) = (seqRun n s).withHost ts rs := by
  induction n generalizing s with
  | zero => rfl
  | succ n ih => rw [seqRun_succ, seqRun_succ, seqStep_withHost, ih]

end host

/-- The value a poll reads shows BUSY in bit 0. -/
theorem statusWord_busy (s : State) : s.statusWord.getLsbD 0 = s.busy :=
  (statusWord_getLsbD s (by decide)).trans (if_pos rfl)

theorem step_poll_idle {s : State} (h : s.turns = [.waitIdle]) (hidle : s.op = none) :
    step s = .next (s.withHost [] (s.reads ++ [s.statusWord])) := by
  have hb : ({ s with turns := [] } : State).busy = false := (busy_eq_false_iff _).2 hidle
  rw [step_turn h, takeTurn, pollIdle, hb]
  rfl

/-- While BUSY reads 1 the loop takes two steps: the poll, and the step of the sequencer it asks for. -/
theorem run_poll_busy {s : State} (h : s.turns = [.waitIdle]) (hop : s.op ≠ none) (n : Nat) :
    Host.Core.run Sys2Proof.core (n + 2) s =
      Host.Core.run Sys2Proof.core n
        ((seqStep s).withHost [.waitIdle] (s.reads ++ [s.statusWord])) := by
  have hb : ({ s with turns := [] } : State).busy = true := (busy_iff _).2 hop
  have hpoll : step s =
      .next (s.withHost [.sequencer, .waitIdle] (s.reads ++ [s.statusWord])) := by
    rw [step_turn h, takeTurn, pollIdle, hb]
    rfl
  have hseq : step (s.withHost [.sequencer, .waitIdle] (s.reads ++ [s.statusWord])) =
      .next (seqStep (s.withHost [.waitIdle] (s.reads ++ [s.statusWord]))) := by
    rw [step_turn (ts := [.waitIdle]) rfl]
    rfl
  rw [core_run_next hpoll, core_run_next hseq, seqStep_withHost]

/-- The poll of an idle block is the last one. -/
theorem poll_of_idle {s : State} (h : s.turns = [.waitIdle]) (hidle : s.op = none) (k : Nat) :
    ∃ n rs, Host.Core.run Sys2Proof.core n s =
        .next ((seqRun k s).withHost [] (s.reads ++ rs)) ∧
      ∃ w, rs.getLast? = some w ∧ w.getLsbD 0 = false := by
  refine ⟨1, [s.statusWord], ?_, s.statusWord, rfl, ?_⟩
  · rw [core_run_next (step_poll_idle h hidle), seqRun_idle hidle]
    rfl
  · rw [statusWord_busy, busy_eq_false_iff, hidle]

/-- The polling loop ends in the state in which the sequencer leaves the block idle. -/
theorem waitIdle_ends {k : Nat} {s : State} (hturns : s.turns = [.waitIdle])
    (hend : (seqRun k s).op = none) :
    ∃ n rs, Host.Core.run Sys2Proof.core n s =
        .next ((seqRun k s).withHost [] (s.reads ++ rs)) ∧
      ∃ w, rs.getLast? = some w ∧ w.getLsbD 0 = false := by
  induction k generalizing s with
  | zero => exact poll_of_idle hturns hend 0
  | succ k ih =>
    by_cases hop : s.op = none
    · exact poll_of_idle hturns hop (k + 1)
    · let v : State := (seqStep s).withHost [.waitIdle] (s.reads ++ [s.statusWord])
      have hrun : seqRun k v =
          (seqRun (k + 1) s).withHost [.waitIdle] (s.reads ++ [s.statusWord]) :=
        seqRun_withHost _ _ k (seqStep s)
      have hreads : ∀ rs, v.reads ++ rs = s.reads ++ s.statusWord :: rs := fun rs =>
        List.append_assoc s.reads [s.statusWord] rs
      obtain ⟨n, rs, hn, w, hw, hw0⟩ := ih (s := v) rfl (by rw [hrun]; exact hend)
      refine ⟨n + 2, s.statusWord :: rs, ?_, w, ?_, hw0⟩
      · rw [run_poll_busy hturns hop, hn, hrun, hreads]
        rfl
      · rw [List.getLast?_cons, hw]
        rfl

/-- Settles O30: the loop ends where the sequencer alone would have come, which under BUS_FAIR is the
idle state after `State.stepsLeft` steps. -/
theorem waitIdleEndsUnderBusFair : Obligations.WaitIdleEndsUnderBusFair := by
  intro s hturns hst hfair
  have hend : (seqRun s.stepsLeft s).op = none := operationsEndUnderBusFair s hst hfair
  obtain ⟨n, rs, hn, hlast⟩ := waitIdle_ends hturns hend
  exact ⟨n, rs, hn, hend, hlast⟩

end Sys2Proof.Machine

/-! Proofs about what each operation does from its start to its end where its transfers complete
(40_transport.md, 42_window.md, 43_color.md, 41_init_sequencer.md). A program is followed frame by frame:
`Between` says what stands between two of its pieces, and one rule for each piece says what it adds. -/

namespace Sys2Proof.Machine

/-! ### Between two pieces of a program -/

/-- The operation `o` runs with the latch `l` and stands between two pieces of its program, with its lines
at their idle levels, registers `r`, STATUS `st` and the trace `tr`. -/
structure Between (u : State) (o : Operation) (l : Latch) (r : Regs) (st : Status)
    (tr : List Event) : Prop where
  op : u.op = some o
  latch : u.latch = l
  lines : u.dc = .high ∧ u.rst = .high
  regs : u.regs = r
  status : u.status = st
  trace : u.trace = tr

theorem begin_between {s : State} (hs : s.Ready) (o : Operation) (x y : Bool) :
    Between (s.begin o x y) o (s.latchNow x y) s.regs s.status s.trace :=
  ⟨rfl, rfl, hs.2, rfl, rfl, rfl⟩

/-- The panel's reset pulse (41_init_sequencer.md R153). -/
theorem okFold_hardwareReset (p : Params) (s : State) :
    okFold (hardwareReset p) s = { s with
      rst := .high
      trace := s.trace ++ [.rstSet .high, .wait p.tRstMs, .rstSet .low, .wait p.tRstMs,
        .rstSet .high, .wait p.tRstMs] } := by
  simp [hardwareReset, okStep, perform, State.driveRst, State.emit]

section between

variable {u : State} {o : Operation} {l : Latch} {r : Regs} {st : Status} {tr : List Event}
variable (h : Between u o l r st tr) (p : Params) (c : CfgRegs)
include h

theorem Between.cmdFrame (b : Byte) :
    Between (okFold (cmdFrame b) u) o l r st (tr ++ cmdEvents b) := by
  rw [okFold_cmdFrame]
  exact { h with lines := ⟨rfl, h.lines.2⟩, trace := by rw [← h.trace] }

theorem Between.dataFrame (bs : List OutByte) :
    Between (okFold (dataFrame p bs) u) o l r st (tr ++ dataEvents p (bs.map OutByte.value)) := by
  rw [okFold_dataFrame]
  exact { h with trace := by rw [← h.trace] }

theorem Between.litFrame (bs : List Byte) :
    Between (okFold (litFrame p bs) u) o l r st (tr ++ dataEvents p bs) := by
  rw [okFold_litFrame]
  exact { h with trace := by rw [← h.trace] }

theorem Between.waitIfPositive (n : Nat) :
    Between (okFold (waitIfPositive n) u) o l r st (tr ++ waitEvents n) := by
  rw [okFold_waitIfPositive]
  exact { h with trace := by rw [← h.trace] }

theorem Between.setWindowCore (x0 y0 x1 y1 : Half) :
    Between (okFold (setWindowCore p c x0 y0 x1 y1) u) o l
      { r with lastW := x1 - x0 + 1, lastH := y1 - y0 + 1 }
      (if windowLegal c x0 y0 x1 y1 then st else { st with winWarn := true, errOp := o.code })
      (tr ++ windowEvents p c x0 y0 x1 y1) := by
  rw [okFold_setWindowCore p c x0 y0 x1 y1 u o h.op]
  exact { h with
    lines := ⟨rfl, h.lines.2⟩
    regs := by rw [← h.regs]
    status := by rw [← h.status]
    trace := by rw [← h.trace] }

theorem Between.fullClear :
    Between (okFold (fullClear p c) u) o l { r with lastW := c.width, lastH := c.height }
      (if c.width = 0 ∨ c.height = 0 then { st with winWarn := true, errOp := o.code } else st)
      (tr ++ clearEvents p c) := by
  rw [okFold_fullClear p c u o h.op]
  exact { h with
    lines := ⟨rfl, h.lines.2⟩
    regs := by rw [← h.regs]
    status := by rw [← h.status]
    trace := by rw [← h.trace] }

/-- The replay of a table, entry by entry (41_init_sequencer.md R156). -/
theorem Between.replayEntries (es : List TableEntry) :
    Between (okFold (es.flatMap (replayEntry p)) u) o l r st
      (tr ++ es.flatMap (entryEvents p)) := by
  induction es generalizing u tr with
  | nil =>
    rw [List.flatMap_nil, List.flatMap_nil, List.append_nil]
    exact h
  | cons e es ih =>
    rw [List.flatMap_cons, List.flatMap_cons, okFold_append, replayEntry, okFold_append, okFold_append]
    have hentry := ((h.cmdFrame e.cmd).litFrame p e.bytes).waitIfPositive e.waitMs
    simpa only [entryEvents, List.append_assoc] using ih hentry

/-- The first two micro-steps of INIT (R160). -/
theorem Between.startInit :
    Between (okFold [.clearInitDone, .blackout] u) o l { r with blOut := 0 }
      { st with initDone := false } (tr ++ [.blSet 0]) :=
  { h with
    regs := by rw [← h.regs]; rfl
    status := by rw [← h.status]; rfl
    trace := by rw [← h.trace]; rfl }

theorem Between.hardwareReset :
    Between (okFold (hardwareReset p) u) o l r st
      (tr ++ [.rstSet .high, .wait p.tRstMs, .rstSet .low, .wait p.tRstMs, .rstSet .high,
        .wait p.tRstMs]) := by
  rw [okFold_hardwareReset]
  exact { h with lines := ⟨h.lines.1, rfl⟩, trace := by rw [← h.trace] }

theorem Between.configureOrientation (b : Byte) :
    Between (okFold (configureOrientation p c b) u) o l { r with orient := b } st
      (tr ++ cmdEvents p.cmdMadctl ++ dataEvents p [b] ++
        cmdEvents (if c.inv then p.cmdInvon else p.cmdInvoff)) := by
  have horient : Between (okStep (.setOrient b) u) o l { r with orient := b } st tr :=
    { h with regs := by rw [← h.regs]; rfl }
  rw [Machine.configureOrientation, okFold_cons, okFold_append, okFold_append]
  exact ((horient.cmdFrame _).litFrame p _).cmdFrame _

/-- The last two micro-steps of INIT (R160). -/
theorem Between.endInit :
    Between (okFold [.driveBacklight, .finishInit] u) o l
      { r with blOut := blout r.blDuty l.cfg.blm } { st with initDone := true, cfgLock := true }
      (tr ++ [.blSet (blout r.blDuty l.cfg.blm)]) :=
  { h with
    regs := by rw [← h.regs, ← h.latch]; rfl
    status := by rw [← h.status]; rfl
    trace := by rw [← h.trace, ← h.regs, ← h.latch]; rfl }

/-- The last three micro-steps of SHUTDOWN (R163). -/
theorem Between.endShutdown :
    Between (okFold [.setDuty 0, .blackout, .finishShutdown] u) o l
      { r with blDuty := 0, blOut := 0 } { st with initDone := false, cfgLock := false }
      (tr ++ [.blSet 0]) :=
  { h with
    regs := by rw [← h.regs]; rfl
    status := by rw [← h.status]; rfl
    trace := by rw [← h.trace]; rfl }

end between

/-! ### From the pieces to the completed operation -/

/-- The operation `o` from its start in `s`: its program performs as many transfers as `evs` shows, and
where they complete it leaves the registers `r`, STATUS `st` and the events `evs`. -/
structure Runs (s : State) (o : Operation) (x y : Bool) (r : Regs) (st : Status)
    (evs : List Event) : Prop where
  transfers : transfersIn (s.begin o x y).todo = evs.countP Event.isXfer
  completed : s.BusOk (evs.countP Event.isXfer) →
    Completed s (s.begin o x y).finish (s.latchNow x y) r st evs

theorem okStep_pwm {m : Micro} (h : m.inWindow = true) (s : State) :
    (okStep m s).pwmOut = s.pwmOut ∧ (okStep m s).freeIx = s.freeIx := by
  cases m with
  | winWarn => exact ⟨reportWindow_pwmOut s, reportWindow_freeIx s⟩
  | raise e => exact ⟨raiseError_pwmOut e s, raiseError_freeIx e s⟩
  | blackout => cases h
  | driveBacklight => cases h
  | _ => exact ⟨rfl, rfl⟩

/-- Frames do not touch the PWM waveform. -/
theorem okFold_pwm {ms : List Micro} (h : ∀ m ∈ ms, m.inWindow = true) (s : State) :
    (okFold ms s).pwmOut = s.pwmOut ∧ (okFold ms s).freeIx = s.freeIx := by
  induction ms generalizing s with
  | nil => exact ⟨rfl, rfl⟩
  | cons m ms ih =>
    obtain ⟨hp, hf⟩ := okStep_pwm (h m List.mem_cons_self) s
    obtain ⟨hp', hf'⟩ := ih (fun x hx => h x (List.mem_cons_of_mem m hx)) (okStep m s)
    exact ⟨hp'.trans hp, hf'.trans hf⟩

/-- A program has as many transfers as the events it emits show. -/
theorem transfersIn_of_trace {ms : List Micro} {s : State} {evs : List Event}
    (h : (okFold ms s).trace = s.trace ++ evs) : transfersIn ms = evs.countP Event.isXfer := by
  obtain ⟨evs', htrace, hcount, -⟩ := okFold_trace ms s
  rw [← List.append_cancel_left (htrace.symm.trans h), hcount]

/-- What stands after the last piece of its program is what an operation leaves. -/
theorem Between.runs {s : State} {o : Operation} {x y : Bool} {ms : List Micro} {r : Regs}
    {st : Status} {evs : List Event}
    (h : Between (okFold ms (s.begin o x y)) o (s.latchNow x y) r st (s.trace ++ evs))
    (hprog : programOf s o (s.latchNow x y) = ms) (hgo : ∀ m ∈ ms, m.goesOn = true)
    (hpwm : evs.any Event.isBlSet = false →
      (okFold ms (s.begin o x y)).pwmOut = s.pwmOut ∧ (okFold ms (s.begin o x y)).freeIx = s.freeIx) :
    Runs s o x y r st evs := by
  have hcount : transfersIn ms = evs.countP Event.isXfer :=
    transfersIn_of_trace (s := s.begin o x y) h.trace
  exact {
    transfers := (congrArg transfersIn hprog).trans hcount
    completed := fun hok => completed_begin hprog hgo (hcount ▸ hok) rfl h.lines h.regs h.status
      h.trace hcount hpwm }

/-- An operation of frames alone leaves the PWM waveform as it is. -/
theorem Between.runs_frames {s : State} {o : Operation} {x y : Bool} {ms : List Micro} {r : Regs}
    {st : Status} {evs : List Event}
    (h : Between (okFold ms (s.begin o x y)) o (s.latchNow x y) r st (s.trace ++ evs))
    (hprog : programOf s o (s.latchNow x y) = ms) (hwin : ∀ m ∈ ms, m.inWindow = true) :
    Runs s o x y r st evs :=
  h.runs hprog (fun m hm => goesOn_of_inInit (inInit_of_inWindow (hwin m hm)))
    fun _ => okFold_pwm hwin (s.begin o x y)

/-- An operation whose program is one data frame. -/
theorem runs_dataFrame {s : State} (hs : s.Ready) {o : Operation} {x y : Bool} {out : List OutByte}
    (hprog : programOf s o (s.latchNow x y) = dataFrame s.params out) {bs : List Byte}
    (hbs : out.map OutByte.value = bs) :
    Runs s o x y s.regs s.status (dataEvents s.params bs) := by
  subst hbs
  exact ((begin_between hs o x y).dataFrame s.params out).runs_frames hprog (dataFrame_inWindow _ _)

/-! ### The data-only operations -/

theorem payloadBytes_value (m : Memory) (a : Word) (n : Nat) :
    (payloadBytes m a n).map OutByte.value =
      (List.range n).map fun i => m.read ((a.toNat + i) % 2 ^ 32) := by
  rw [payloadBytes, List.map_map]
  exact List.map_congr_left fun i _ => congrArg m.read (payloadAddress_toNat a i)

theorem runs_writeData {s : State} (hs : s.Ready) (x y : Bool) :
    Runs s .writeData x y s.regs s.status (dataEvents s.params
      ((List.range s.regs.len.toNat).map fun i => s.mem.read ((s.regs.addr.toNat + i) % 2 ^ 32))) :=
  runs_dataFrame hs rfl (payloadBytes_value s.mem s.regs.addr s.regs.len.toNat)

theorem runs_clearWindow {s : State} (hs : s.Ready) (x y : Bool) :
    Runs s .clearWindow x y s.regs s.status (dataEvents s.params
      (List.replicate (2 * s.regs.lastW.toNat * s.regs.lastH.toNat) 0)) :=
  runs_dataFrame hs rfl List.map_replicate

theorem pixelBytes_value (o : SrcOrder) (m : Memory) (a : Word) (k : Nat) :
    (pixelBytes o m a k).map OutByte.value = emittedPixel (sourcePixel o m a k) := by
  cases o <;> rfl

/-- The bytes of the pixel program are the pixel stream (43_color.md R203). -/
theorem pixelProgram_value (p : Params) (m : Memory) (a : Word) (n : Nat) :
    ((List.range n).flatMap (pixelBytes p.srcOrder m a)).map OutByte.value = pixelStream p m a n := by
  rw [List.map_flatMap, pixelStream]
  exact congrArg ((List.range n).flatMap ·) (funext (pixelBytes_value p.srcOrder m a))

theorem length_pixelStream (p : Params) (m : Memory) (a : Word) (n : Nat) :
    (pixelStream p m a n).length = 2 * n := by
  induction n with
  | zero => rfl
  | succ n ih =>
    rw [pixelStream, List.range_succ, List.flatMap_append, List.length_append, ← pixelStream, ih]
    rfl

theorem runs_renderRaw {s : State} (hs : s.Ready) (x y : Bool) :
    Runs s .renderRaw x y s.regs s.status
      (dataEvents s.params (pixelStream s.params s.mem s.regs.addr s.regs.len.toNat)) :=
  runs_dataFrame hs rfl (pixelProgram_value s.params s.mem s.regs.addr s.regs.len.toNat)

/-- The transfers of a data frame complete where as many outcomes are ok as it has chunks. -/
theorem busOk_dataEvents {s : State} {p : Params} {bs : List Byte}
    (h : s.BusOk (chunks p bs).length) : s.BusOk ((dataEvents p bs).countP Event.isXfer) := by
  rwa [countP_dataEvents]

/-- Settles O12: the program is one data frame of the payload. -/
theorem writeDataSendsPayloadInChunks : Obligations.WriteDataSendsPayloadInChunks := by
  intro s x y hs bs hok
  exact ⟨s.begin .writeData x y, exec_begin (i := .writeData x y) hs.1 rfl, started_begin s _ x y,
    (runs_writeData hs x y).completed (busOk_dataEvents hok)⟩

/-- Settles O15: the program is one data frame of zero bytes. -/
theorem clearWindowZeroFillsLastWindow : Obligations.ClearWindowZeroFillsLastWindow := by
  intro s x y hs bs hok
  exact ⟨s.begin .clearWindow x y, exec_begin (i := .clearWindow x y) hs.1 rfl,
    started_begin s _ x y, (runs_clearWindow hs x y).completed (busOk_dataEvents hok)⟩

/-- Settles O16: the program is one data frame of the pixel stream. -/
theorem renderRawStreamsPixels : Obligations.RenderRawStreamsPixels := by
  intro s x y hs bs hok
  exact ⟨length_pixelStream _ _ _ _, s.begin .renderRaw x y,
    exec_begin (i := .renderRaw x y) hs.1 rfl, started_begin s _ x y,
    (runs_renderRaw hs x y).completed (busOk_dataEvents hok)⟩

/-! ### CLEAR and RENDER -/

theorem runs_clear {s : State} (hs : s.Ready) (x y : Bool) :
    Runs s .clear x y { s.regs with lastW := s.regs.cfg.width, lastH := s.regs.cfg.height }
      (if s.regs.cfg.width = 0 ∨ s.regs.cfg.height = 0 then
        { s.status with winWarn := true, errOp := 0x07 } else s.status)
      (clearEvents s.params s.regs.cfg) :=
  ((begin_between hs .clear x y).fullClear s.params s.regs.cfg).runs_frames rfl
    (fullClear_inWindow _ _)

/-- Settles O14: the program is `fullClear`. -/
theorem clearZeroFillsThePanel : Obligations.ClearZeroFillsThePanel := by
  intro s x y hs c evs hok
  exact ⟨s.begin .clear x y, exec_begin (i := .clear x y) hs.1 rfl, started_begin s _ x y,
    (runs_clear hs x y).completed hok⟩

/-- The events of RENDER for the placement of the latched image. -/
def renderEvents (p : Params) (m : Memory) (l : Latch) : List Event :=
  windowEvents p l.cfg (placeStart l.cfg.width l.imageW) (placeStart l.cfg.height l.imageH)
      (placeEnd l.cfg.width l.imageW) (placeEnd l.cfg.height l.imageH) ++
    dataEvents p (pixelStream p m l.addr (l.imageW.toNat * l.imageH.toNat))

/-- RENDER of an image that fits: the legal window of its placement, then its pixels (R207). -/
theorem Between.renderProgram {u : State} {o : Operation} {l : Latch} {r : Regs} {st : Status}
    {tr : List Event} (h : Between u o l r st tr) (p : Params) (m : Memory) {i : Latch}
    (hfit : imageUnfit i = false) :
    Between (okFold (renderProgram p m i) u) o l { r with lastW := i.imageW, lastH := i.imageH } st
      (tr ++ renderEvents p m i) := by
  obtain ⟨-, -, -, -, hw, hh, hlegal⟩ := placementFitsThePanel i hfit
  have hwin := h.setWindowCore p i.cfg (placeStart i.cfg.width i.imageW)
    (placeStart i.cfg.height i.imageH) (placeEnd i.cfg.width i.imageW)
    (placeEnd i.cfg.height i.imageH)
  rw [hlegal, if_pos rfl, hw, hh] at hwin
  have hall := hwin.dataFrame p
    ((List.range (i.imageW.toNat * i.imageH.toNat)).flatMap (pixelBytes p.srcOrder m i.addr))
  rw [pixelProgram_value, List.append_assoc] at hall
  rw [renderProgram_fit hfit, okFold_append]
  exact hall

theorem runs_render {s : State} (hs : s.Ready) {x y : Bool}
    (hfit : imageUnfit (s.latchNow x y) = false) :
    Runs s .render x y
      { s.regs with lastW := (s.latchNow x y).imageW, lastH := (s.latchNow x y).imageH } s.status
      (renderEvents s.params s.mem (s.latchNow x y)) :=
  ((begin_between hs .render x y).renderProgram s.params s.mem hfit).runs_frames rfl
    (renderProgram_fit_inWindow hfit s.params s.mem)

/-- The last coordinate of an image that fits, in naturals. -/
theorem placeEnd_eq {extent size : Half} (hpos : 1 ≤ size.toNat)
    (hfit : size.toNat ≤ extent.toNat) :
    placeEnd extent size = BitVec.ofNat 16 ((extent.toNat - size.toNat) / 2 + size.toNat - 1) := by
  obtain ⟨hstart, hend, -⟩ := placement_fits hpos hfit
  have hlt := (placeEnd extent size).isLt
  refine BitVec.eq_of_toNat_eq ?_
  rw [BitVec.toNat_ofNat, Nat.mod_eq_of_lt (by omega)]
  omega

theorem imageUnfit_eq_false {l : Latch} (hw : 1 ≤ l.imageW.toNat) (hh : 1 ≤ l.imageH.toNat)
    (hwW : l.imageW.toNat ≤ l.cfg.width.toNat) (hhH : l.imageH.toNat ≤ l.cfg.height.toNat) :
    imageUnfit l = false := by
  simp only [imageUnfit, Bool.or_eq_false_iff, decide_eq_false_iff_not]
  omega

/-- Settles O17: the program addresses the window of `placementFitsThePanel`, which is legal, and
streams the pixels. -/
theorem renderCentresAndStreams : Obligations.RenderCentresAndStreams := by
  intro s x y hs c iw ih hw hh hwW hhH x0 y0 evs hok
  have hfit : imageUnfit (s.latchNow x y) = false := imageUnfit_eq_false hw hh hwW hhH
  have hevs : renderEvents s.params s.mem (s.latchNow x y) = evs := by
    have hx := placeEnd_eq (extent := (s.latchNow x y).cfg.width) (size := (s.latchNow x y).imageW) hw hwW
    have hy := placeEnd_eq (extent := (s.latchNow x y).cfg.height) (size := (s.latchNow x y).imageH) hh hhH
    rw [renderEvents, hx, hy]
    rfl
  have hrun := runs_render hs hfit
  rw [hevs] at hrun
  exact ⟨s.begin .render x y, exec_begin (i := .render x y) hs.1 rfl, started_begin s _ x y,
    hrun.completed hok⟩

/-! ### INIT and SHUTDOWN -/

/-- A configuration that is not malformed has one of the four rotations, so an orientation byte. -/
theorem exists_orientByte {c : CfgRegs} (h : malformed c = false) (p : Params) :
    ∃ o, orientByte p c = some o := by
  have hrot : c.rotDeg.toNat ∈ [0, 90, 180, 270] := by
    by_contra hn
    exact absurd ((malformed_iff c).2 (.inl hn)) (by simp [h])
  simp only [List.mem_cons, List.not_mem_nil, or_false] at hrot
  obtain ⟨h0, h90, h180, h270⟩ := orientByte_rotations p c
  rcases hrot with hd | hd | hd | hd
  · exact ⟨_, h0 (BitVec.eq_of_toNat_eq hd)⟩
  · exact ⟨_, h90 (BitVec.eq_of_toNat_eq hd)⟩
  · exact ⟨_, h180 (BitVec.eq_of_toNat_eq hd)⟩
  · exact ⟨_, h270 (BitVec.eq_of_toNat_eq hd)⟩

theorem initProgram_legal {l : Latch} {b : Byte} {p : Params} (h : malformed l.cfg = false)
    (hb : orientByte p l.cfg = some b) : initProgram p l = initSequence p l.cfg b := by
  rw [initProgram, h, hb]

theorem sides_ne_zero {c : CfgRegs} (h : malformed c = false) : ¬(c.width = 0 ∨ c.height = 0) := by
  rintro (hw | hh)
  · exact absurd ((malformed_iff c).2 (.inr (.inl hw))) (by simp [h])
  · exact absurd ((malformed_iff c).2 (.inr (.inr (.inl hh)))) (by simp [h])

/-- The whole sequence of INIT, piece by piece (R160). -/
theorem Between.initSequence {u : State} {o : Operation} {l : Latch} {r : Regs} {st : Status}
    {tr : List Event} (h : Between u o l r st tr) (p : Params) {c : CfgRegs} (b : Byte)
    (hc : malformed c = false) :
    Between (okFold (initSequence p c b) u) o l
      { r with lastW := c.width, lastH := c.height, orient := b, blOut := blout r.blDuty l.cfg.blm }
      { st with initDone := true, cfgLock := true }
      (tr ++ initEvents p c b (blout r.blDuty l.cfg.blm)) := by
  have hfirst := (((((h.startInit.hardwareReset p).cmdFrame p.cmdSwreset).waitIfPositive
    p.tSwresetMs).configureOrientation p c b).replayEntries p p.initTable)
  have hon := (((hfirst.cmdFrame p.cmdSlpout).waitIfPositive p.tSlpoutMs).cmdFrame
    p.cmdDispon).waitIfPositive p.tDisponMs
  have hwin := hon.setWindowCore p c 0 0 (c.width - 1) (c.height - 1)
  rw [windowLegal_full, decide_eq_false (fun hw => sides_ne_zero hc (.inl hw)),
    decide_eq_false (fun hh => sides_ne_zero hc (.inr hh)), Bool.or_false, Bool.not_false,
    if_pos rfl] at hwin
  have hclear := hwin.fullClear p c
  rw [if_neg (sides_ne_zero hc)] at hclear
  have hend := hclear.endInit
  simp only [Machine.initSequence, softReset, replayTable, exitSleep, displayOn, setDefaultWindow,
    okFold_append]
  simpa only [initEvents, List.append_assoc, List.cons_append, List.nil_append] using hend

theorem initEvents_blSet (p : Params) (c : CfgRegs) (b : Byte) (d : Duty) :
    (initEvents p c b d).any Event.isBlSet = true := by
  simp [initEvents, Event.isBlSet]

theorem runs_init {s : State} (hs : s.Ready) (x y : Bool) {b : Byte}
    (hc : malformed s.regs.cfg = false) (hb : orientByte s.params s.regs.cfg = some b) :
    Runs s .init x y
      { s.regs with
        lastW := s.regs.cfg.width, lastH := s.regs.cfg.height, orient := b
        blOut := blout s.regs.blDuty s.regs.cfg.blm }
      { s.status with initDone := true, cfgLock := true }
      (initEvents s.params s.regs.cfg b (blout s.regs.blDuty s.regs.cfg.blm)) := by
  refine ((begin_between hs .init x y).initSequence s.params b hc).runs
    (initProgram_legal (l := s.latchNow x y) hc hb)
    (fun m hm => goesOn_of_inInit (initSequence_inInit _ _ _ m hm)) fun hnone => ?_
  rw [initEvents_blSet] at hnone
  cases hnone

/-- Settles O20: the sequence is followed piece by piece in `Between.initSequence`. -/
theorem initRunsTheSequence : Obligations.InitRunsTheSequence := by
  intro s x y hs hc
  obtain ⟨b, hb⟩ := exists_orientByte hc s.params
  refine ⟨b, hb, ?_⟩
  intro c out evs hok
  have hrun := runs_init hs x y hc hb
  rw [show blout s.regs.blDuty s.regs.cfg.blm = out from blout_eq _ _] at hrun
  exact ⟨s.begin .init x y, exec_begin (i := .init x y) hs.1 rfl, started_begin s _ x y,
    hrun.completed hok⟩

/-- SHUTDOWN, piece by piece (R163). -/
theorem Between.shutdownProgram {u : State} {l : Latch} {r : Regs} {st : Status} {tr : List Event}
    (h : Between u .shutdown l r st tr) (p : Params) (i : Latch) :
    Between (okFold (shutdownProgram p i) u) .shutdown l
      { r with lastW := i.cfg.width, lastH := i.cfg.height, blDuty := 0, blOut := 0 }
      (if i.cfg.width = 0 ∨ i.cfg.height = 0 then
        { st with initDone := false, cfgLock := false, winWarn := true, errOp := 0x0A }
        else { st with initDone := false, cfgLock := false })
      (tr ++ (clearEvents p i.cfg ++ cmdEvents p.cmdDispoff ++ [.blSet 0])) := by
  have hend := ((h.fullClear p i.cfg).cmdFrame p.cmdDispoff).endShutdown
  rw [Machine.shutdownProgram, okFold_append, okFold_append, ← List.append_assoc,
    ← List.append_assoc]
  exact { hend with status := hend.status.trans (by split <;> rfl) }

theorem shutdownProgram_goesOn (p : Params) (l : Latch) :
    ∀ m ∈ shutdownProgram p l, m.goesOn = true :=
  goesOn_append (goesOn_append (fullClear_goesOn _ _) (cmdFrame_goesOn _)) (List.all_eq_true.1 rfl)

theorem runs_shutdown {s : State} (hs : s.Ready) (x y : Bool) :
    Runs s .shutdown x y
      { s.regs with
        lastW := s.regs.cfg.width, lastH := s.regs.cfg.height, blDuty := 0, blOut := 0 }
      (if s.regs.cfg.width = 0 ∨ s.regs.cfg.height = 0 then
        { s.status with initDone := false, cfgLock := false, winWarn := true, errOp := 0x0A }
        else { s.status with initDone := false, cfgLock := false })
      (clearEvents s.params s.regs.cfg ++ cmdEvents s.params.cmdDispoff ++ [.blSet 0]) := by
  refine ((begin_between hs .shutdown x y).shutdownProgram s.params (s.latchNow x y)).runs rfl
    (shutdownProgram_goesOn _ _) fun hnone => ?_
  simp [Event.isBlSet] at hnone

/-- Settles O22: the clear, the command and the three last micro-steps of SHUTDOWN. -/
theorem shutdownClearsAndUnlocks : Obligations.ShutdownClearsAndUnlocks := by
  intro s x y hs c evs hok
  exact ⟨s.begin .shutdown x y, exec_begin (i := .shutdown x y) hs.1 rfl, started_begin s _ x y,
    (runs_shutdown hs x y).completed hok⟩

/-! ### A second INIT -/

section completed

variable {s u : State} {l : Latch} {r : Regs} {st : Status} {evs : List Event}

theorem Completed.ready (h : Completed s u l r st evs) : u.Ready := ⟨h.idle.1, h.lines⟩

/-- The outcomes left after a completed operation. -/
theorem Completed.busOk (h : Completed s u l r st evs) {n : Nat}
    (hok : s.BusOk (evs.countP Event.isXfer + n)) : u.BusOk n := by
  intro k hk
  obtain ⟨hbus, hcount⟩ := h.bus
  rw [← hok (evs.countP Event.isXfer + k) (by omega)]
  simp [State.outcomeAt, hbus, hcount, Nat.add_assoc]

end completed

/-- Settles O23: the second INIT starts with the parameters, the configuration and BL_DUTY of the first,
which are all that its events and the registers it writes depend on. -/
theorem initAgainIsIdempotent : Obligations.InitAgainIsIdempotent := by
  intro s x y x' y' hs hc
  obtain ⟨b, hb⟩ := exists_orientByte hc s.params
  have hfirst := runs_init hs x y hc hb
  obtain ⟨u, hu⟩ := exec_next (.init x' y') (s.begin .init x y).finish
  refine ⟨s.begin .init x y, u, exec_begin (i := .init x y) hs.1 rfl, hu, fun hok => ?_⟩
  rw [hfirst.transfers] at hok
  have h := hfirst.completed fun k hk => hok k (by omega)
  generalize (s.begin .init x y).finish = t at h hu hok
  cases hu.symm.trans (exec_begin (i := .init x' y') h.idle.1 rfl)
  have hcfg : t.regs.cfg = s.regs.cfg := by rw [h.regs]
  have hduty : t.regs.blDuty = s.regs.blDuty := by rw [h.regs]
  have hsecond := runs_init h.ready x' y' (b := b) (hcfg ▸ hc) (by rw [h.params, hcfg, hb])
  rw [h.params, hcfg, hduty] at hsecond
  have hok' : s.BusOk (_ + transfersIn (t.begin .init x' y').todo) := hok
  rw [hsecond.transfers] at hok'
  have h' := hsecond.completed (h.busOk hok')
  refine ⟨_, h.trace, h'.trace, ?_, ?_⟩
  · exact h'.regs.trans (by rw [h.regs])
  · exact h'.status.trans (by rw [h.status])

end Sys2Proof.Machine

/-! Proofs about the armed state of the panel controller (10_state.md R47, 70_reset_and_hazards.md) as the
trace shows it. -/

namespace Sys2Proof.Machine

/-! ### The view of the panel after an operation -/

theorem Inv.ready {s : State} (h : Inv s) (hidle : s.op = none) : s.Ready :=
  ⟨hidle, h.lines_idle (h.idle hidle).1⟩

/-- While no transfer is stalled the armed state is what the events show. -/
theorem panelArmed_of_not_stalled {s : State} (h : s.stalled = false) :
    panelArmed s = s.panelView.armed := by
  rw [panelArmed, h]
  rfl

/-- What the panel has seen after an operation whose transfers complete. -/
theorem Runs.panelView {s : State} {o : Operation} {x y : Bool} {r : Regs} {st : Status}
    {evs : List Event} (h : Runs s o x y r st evs) (hinv : Inv s)
    (hok : s.BusOk (transfersIn (s.begin o x y).todo)) :
    (s.begin o x y).finish.panelView = s.panelView.seeAll s.params.cmdRamwr evs ∧
      panelArmed (s.begin o x y).finish =
        (s.panelView.seeAll s.params.cmdRamwr evs).armed := by
  have hc := h.completed (h.transfers ▸ hok)
  obtain ⟨-, -, hmark⟩ := hc.host
  obtain ⟨-, -, hst⟩ := hc.idle
  have hview := panelView_append hinv.mark hc.params hc.trace hmark
  exact ⟨hview, by rw [panelArmed_of_not_stalled hst, hview]⟩

/-- Data events leave the view of an idle panel as it is. -/
theorem Runs.panelArmed_data {s : State} {o : Operation} {x y : Bool} {r : Regs} {st : Status}
    {bs : List Byte} (h : Runs s o x y r st (dataEvents s.params bs)) (hinv : Inv s)
    (hidle : s.op = none) (hok : s.BusOk (transfersIn (s.begin o x y).todo)) :
    panelArmed (s.begin o x y).finish = panelArmed s := by
  have hdc : s.panelView.dc = .high := hinv.seen.trans (hinv.ready hidle).2.1
  rw [(h.panelView hinv hok).2, seeAll_dataEvents _ _ hdc,
    panelArmed_of_not_stalled (hinv.idle hidle).2]

/-! ### The addressing operations -/

theorem runs_setWindow {s : State} (hs : s.Ready) (x y : Bool) :
    ∃ x0 y0 x1 y1 r st,
      Runs s .setWindow x y r st (windowEvents s.params s.regs.cfg x0 y0 x1 y1) :=
  ⟨_, _, _, _, _, _, ((begin_between hs .setWindow x y).setWindowCore s.params s.regs.cfg
    (s.latchNow x y).startX (s.latchNow x y).startY (s.latchNow x y).endX
    (s.latchNow x y).endY).runs_frames rfl (setWindowCore_inWindow _ _ _ _ _ _)⟩

theorem runs_writeCmd {s : State} (hs : s.Ready) (x y : Bool) :
    Runs s .writeCmd x y s.regs s.status (cmdEvents (s.regs.arg0.extractLsb' 0 8)) :=
  ((begin_between hs .writeCmd x y).cmdFrame _).runs_frames rfl (cmdFrame_inWindow _)

/-- Once the reset pulse has been seen the panel's state is known. -/
theorem seeAll_known_of_pulse (q : Byte) (v : PanelView) {evs : List Event}
    (h : .rstSet .low ∈ evs) : (v.seeAll q evs).known = true := by
  induction evs generalizing v with
  | nil => cases h
  | cons e evs ih =>
    rw [seeAll_cons]
    rcases List.mem_cons.1 h with rfl | h
    · exact seeAll_known q _ rfl evs
    · exact ih _ h

/-- INIT's pulse makes the panel's state known, and its last command is CMD_RAMWR. -/
theorem seeAll_initEvents (p : Params) (v : PanelView) (c : CfgRegs) (b : Byte) (d : Duty) :
    (v.seeAll p.cmdRamwr (initEvents p c b d)).armed = .armed ∧
      (v.seeAll p.cmdRamwr (initEvents p c b d)).known = true := by
  refine ⟨?_, seeAll_known_of_pulse _ _ (by simp [initEvents])⟩
  rw [initEvents, seeAll_append, seeAll_append, seeAll_clearEvents,
    seeAll_known_of_pulse _ _ (by simp)]
  rfl

theorem armed_renderEvents {p : Params} {v : PanelView} (h : v.known = true) (m : Memory)
    (l : Latch) : (v.seeAll p.cmdRamwr (renderEvents p m l)).armed = .armed := by
  rw [renderEvents, seeAll_append, seeAll_windowEvents, seeAll_dataEvents _ _ rfl, h]
  rfl

/-- Settles O59: each clause is the view of the panel after the events of its operation. -/
theorem addressingArmsTheController : Obligations.AddressingArmsTheController := by
  intro s x y hinv hidle
  have hs := hinv.ready hidle
  refine ⟨fun hc => ?_, fun hknown => ⟨fun i hi => ?_, fun hfit => ?_, ?_⟩, fun i hi => ?_,
    fun ts hturns => ⟨_, step_blockReset hturns, ?_⟩⟩
  · obtain ⟨b, hb⟩ := exists_orientByte hc s.params
    refine ⟨s.begin .init x y, exec_begin (i := .init x y) hidle rfl, fun hok => ?_⟩
    obtain ⟨hview, harmed⟩ := (runs_init hs x y hc hb).panelView hinv hok
    obtain ⟨ha, hk⟩ := seeAll_initEvents s.params s.panelView s.regs.cfg b
      (blout s.regs.blDuty s.regs.cfg.blm)
    exact ⟨harmed.trans ha, by rw [hview, hk]⟩
  · simp only [List.mem_cons, List.not_mem_nil, or_false] at hi
    rcases hi with rfl | rfl
    · refine ⟨s.begin .setWindow x y, exec_begin (i := .setWindow x y) hidle rfl, fun hok => ?_⟩
      obtain ⟨x0, y0, x1, y1, r, st, hrun⟩ := runs_setWindow hs x y
      refine (hrun.panelView hinv hok).2.trans ?_
      rw [seeAll_windowEvents, hknown]
      rfl
    · refine ⟨s.begin .clear x y, exec_begin (i := .clear x y) hidle rfl, fun hok => ?_⟩
      refine ((runs_clear hs x y).panelView hinv hok).2.trans ?_
      rw [seeAll_clearEvents, hknown]
      rfl
  · refine ⟨s.begin .render x y, exec_begin (i := .render x y) hidle rfl, fun hok => ?_⟩
    exact ((runs_render hs hfit).panelView hinv hok).2.trans (armed_renderEvents hknown _ _)
  · refine ⟨s.begin .writeCmd x y, exec_begin (i := .writeCmd x y) hidle rfl, fun hok => ?_⟩
    rw [State.StreamSafe, ((runs_writeCmd hs x y).panelView hinv hok).2, seeAll_cmdEvents, hknown,
      if_pos rfl]
    split <;> simp [*]
  · simp only [List.mem_cons, List.not_mem_nil, or_false] at hi
    rcases hi with rfl | rfl | rfl
    · exact ⟨s.begin .writeData x y, exec_begin (i := .writeData x y) hidle rfl,
        (runs_writeData hs x y).panelArmed_data hinv hidle⟩
    · exact ⟨s.begin .renderRaw x y, exec_begin (i := .renderRaw x y) hidle rfl,
        (runs_renderRaw hs x y).panelArmed_data hinv hidle⟩
    · exact ⟨s.begin .clearWindow x y, exec_begin (i := .clearWindow x y) hidle rfl,
        (runs_clearWindow hs x y).panelArmed_data hinv hidle⟩
  · rw [panelArmed_of_not_stalled rfl, panelView_blockReset]
    rfl

end Sys2Proof.Machine

/-! Proofs about which operations change which of the read-only registers and lines (10_state.md). -/

namespace Sys2Proof.Machine

/-- What an operation recorded under `code` leaves as it was: every read-only register and line that the
spec does not name for it, and all that the host writes. -/
structure Kept (code : Byte) (s t : State) : Prop where
  blDuty : code ∉ [0x09#8, 0x0A#8] → t.regs.blDuty = s.regs.blDuty
  blOut : code ∉ [0x01#8, 0x09#8, 0x0A#8] → t.regs.blOut = s.regs.blOut
  orient : code ≠ 0x01 → t.regs.orient = s.regs.orient
  initDone : code ∉ [0x01#8, 0x0A#8] → t.status.initDone = s.status.initDone
  cfgLock : code ∉ [0x01#8, 0x0A#8] → t.status.cfgLock = s.status.cfgLock
  window : code ∉ [0x01#8, 0x04#8, 0x05#8, 0x07#8, 0x0A#8] →
    t.regs.lastW = s.regs.lastW ∧ t.regs.lastH = s.regs.lastH
  dc : code ∉ [0x01#8, 0x02#8, 0x04#8, 0x05#8, 0x07#8, 0x0A#8] → t.dc = s.dc
  rst : code ≠ 0x01 → t.rst = s.rst
  host : t.regs.hostPart = s.regs.hostPart
  mem : t.mem = s.mem

theorem Kept.refl (code : Byte) (s : State) : Kept code s s :=
  ⟨fun _ => rfl, fun _ => rfl, fun _ => rfl, fun _ => rfl, fun _ => rfl, fun _ => ⟨rfl, rfl⟩,
    fun _ => rfl, fun _ => rfl, rfl, rfl⟩

theorem Kept.trans {code : Byte} {s t u : State} (h : Kept code s t) (h' : Kept code t u) :
    Kept code s u where
  blDuty hn := (h'.blDuty hn).trans (h.blDuty hn)
  blOut hn := (h'.blOut hn).trans (h.blOut hn)
  orient hn := (h'.orient hn).trans (h.orient hn)
  initDone hn := (h'.initDone hn).trans (h.initDone hn)
  cfgLock hn := (h'.cfgLock hn).trans (h.cfgLock hn)
  window hn := ⟨(h'.window hn).1.trans (h.window hn).1, (h'.window hn).2.trans (h.window hn).2⟩
  dc hn := (h'.dc hn).trans (h.dc hn)
  rst hn := (h'.rst hn).trans (h.rst hn)
  host := h'.host.trans h.host
  mem := h'.mem.trans h.mem

/-- An error keeps INIT_DONE in every operation but INIT and SHUTDOWN. -/
theorem kept_raiseError {s : State} {o : Operation} (e : ErrorKind) (hop : s.op = some o) :
    Kept o.code s (raiseError e s) where
  blDuty _ := by rw [raiseError_regs]
  blOut _ := by rw [raiseError_regs]
  orient _ := by rw [raiseError_regs]
  initDone hn := by
    have hkeep : abortClearsInitDone e o = false := by
      cases o with
      | init => exact absurd (by decide) hn
      | shutdown => exact absurd (by decide) hn
      | _ => exact Bool.and_false _
    rw [raiseError_status e hop, hkeep, Bool.not_false, Bool.and_true]
  cfgLock _ := raiseError_cfgLock e s
  window _ := by rw [raiseError_regs]; exact ⟨rfl, rfl⟩
  dc _ := raiseError_dc e s
  rst _ := raiseError_rst e s
  host := by rw [raiseError_regs]
  mem := raiseError_mem e s

theorem kept_driveDc {s : State} {code : Byte} (l : Level)
    (h : code ∈ [0x01#8, 0x02#8, 0x04#8, 0x05#8, 0x07#8, 0x0A#8]) : Kept code s (s.driveDc l) :=
  { Kept.refl code s with dc := fun hn => absurd h hn }

/-- The operations whose programs hold command frames. -/
theorem code_of_command {o : Operation} {m : Micro} (hm : m.inCommand = true)
    (h : o.admits m = true) : o.code ∈ [0x01#8, 0x02#8, 0x04#8, 0x05#8, 0x07#8, 0x0A#8] := by
  obtain ⟨l, rfl⟩ | ⟨b, rfl⟩ : (∃ l, m = .dcSet l) ∨ ∃ b, m = .cmdTransfer b := by
    cases m with
    | dcSet l => exact .inl ⟨l, rfl⟩
    | cmdTransfer b => exact .inr ⟨b, rfl⟩
    | _ => cases hm
  all_goals
    cases o with
    | writeData => cases h
    | renderRaw => cases h
    | clearWindow => cases h
    | setBrightness => cases h
    | _ => decide

/-- A completed micro-step of an operation's own program changes nothing that the spec does not name for
it. -/
theorem okStep_kept {s : State} {o : Operation} {m : Micro} (hop : s.op = some o)
    (h : o.admits m = true) : Kept o.code s (okStep m s) := by
  cases m with
  | raise e => exact kept_raiseError e hop
  | dcSet l => exact kept_driveDc l (code_of_command rfl h)
  | rstSet l =>
    refine { Kept.refl o.code s with rst := fun hn => absurd ?_ hn }
    cases o with
    | init => rfl
    | _ => cases h
  | clearInitDone =>
    refine { Kept.refl o.code s with initDone := fun hn => absurd ?_ hn }
    cases o with
    | init => decide
    | _ => cases h
  | blackout =>
    refine { Kept.refl o.code s with blOut := fun hn => absurd ?_ hn }
    cases o with
    | init => decide
    | shutdown => decide
    | _ => cases h
  | setOrient b =>
    refine { Kept.refl o.code s with orient := fun hn => absurd ?_ hn }
    cases o with
    | init => rfl
    | _ => cases h
  | recordWindow w k =>
    refine { Kept.refl o.code s with window := fun hn => absurd ?_ hn }
    cases o with
    | init => decide
    | setWindow => decide
    | render => decide
    | clear => decide
    | shutdown => decide
    | _ => cases h
  | winWarn =>
    show Kept o.code s (reportWindow s)
    rw [reportWindow_running s hop]
    exact { Kept.refl o.code s with }
  | setDuty d =>
    refine { Kept.refl o.code s with blDuty := fun hn => absurd ?_ hn }
    cases o with
    | setBrightness => decide
    | shutdown => decide
    | _ => cases h
  | driveBacklight =>
    refine { Kept.refl o.code s with blOut := fun hn => absurd ?_ hn }
    cases o with
    | init => decide
    | setBrightness => decide
    | _ => cases h
  | finishInit =>
    have ho : o.code ∈ [0x01#8, 0x0A#8] := by
      cases o with
      | init => decide
      | _ => cases h
    exact { Kept.refl o.code s with
      initDone := fun hn => absurd ho hn, cfgLock := fun hn => absurd ho hn }
  | finishShutdown =>
    have ho : o.code ∈ [0x01#8, 0x0A#8] := by
      cases o with
      | shutdown => decide
      | _ => cases h
    exact { Kept.refl o.code s with
      initDone := fun hn => absurd ho hn, cfgLock := fun hn => absurd ho hn }
  | _ => exact { Kept.refl o.code s with }

/-- A micro-step of an operation's own program changes nothing that the spec does not name for it. -/
theorem perform_kept {s : State} {o : Operation} {m : Micro} (hop : s.op = some o)
    (h : o.admits m = true) : Kept o.code s (perform m s) := by
  obtain ht | ⟨b, rfl, -, ht⟩ | ⟨c, rfl, -, ht⟩ | ⟨-, -, ht⟩ := perform_cases m s <;> rw [ht]
  · exact okStep_kept hop h
  · have hdraw : Kept o.code s (s.drawOutcome.emit (.xferFail [b])) := { Kept.refl o.code s with }
    exact (hdraw.trans (kept_driveDc .high (code_of_command rfl h))).trans
      (kept_raiseError .busIO hop)
  · exact Kept.trans (t := s.drawOutcome.emit (.xferFail (c.map OutByte.value)))
      { Kept.refl o.code s with } (kept_raiseError .busIO hop)
  · exact { Kept.refl o.code s with }
/-- However far a running operation gets, it changes only what the spec names for it. -/
theorem seqRun_kept {s : State} {o : Operation} (n : Nat) (hop : s.op = some o)
    (h : ∀ m ∈ s.todo, o.admits m = true) : Kept o.code s (seqRun n s) := by
  induction n generalizing s with
  | zero => exact Kept.refl _ _
  | succ n ih =>
    have hne : s.op ≠ none := by simp [hop]
    rw [seqRun_succ]
    obtain ⟨hs, hidle | hst⟩ | ⟨-, -, ht, hs⟩ | ⟨-, -, m, ms, ht, hs⟩ := seqStep_cases s
    · exact absurd hidle hne
    · rw [hs]
      exact ih hop h
    · rw [hs, seqRun_idle (endOperation_op s)]
      exact { Kept.refl o.code s with }
    · rw [ht, List.forall_mem_cons] at h
      let u : State := { s with todo := ms, stepIx := s.stepIx + 1 }
      have hstep : Kept o.code s (perform m u) :=
        Kept.trans (t := u) { Kept.refl o.code s with } (perform_kept (s := u) hop h.1)
      rw [hs]
      obtain ⟨ho, htodo⟩ | ⟨ho, -⟩ := perform_op_todo m (s := u) hne
      · exact hstep.trans (ih (ho.trans hop) (htodo ▸ h.2))
      · rw [seqRun_idle ho]
        exact hstep

theorem exec_kept {i : Instr} {s t : State} (hidle : s.op = none) (h : exec i s = .next t)
    (n : Nat) : Kept i.opcode s (seqRun n t) := by
  by_cases hi : i = .nop
  · subst hi
    cases h
    rw [seqRun_idle hidle]
    exact Kept.refl _ _
  · obtain ⟨o, ho⟩ := operationOf_isSome hi
    cases (exec_begin hidle ho).symm.trans h
    rw [← (exec_start ho s).2]
    have hrun := seqRun_kept (s := s.begin o i.omits.1 i.omits.2) n rfl (programOf_admits s o _)
    exact Kept.trans (t := s.begin o i.omits.1 i.omits.2) { Kept.refl o.code s with } hrun

/-- Settles O58: `exec_kept`, field by field. -/
theorem readOnlyRegistersChangeOnlyInTheirOperations :
    Obligations.ReadOnlyRegistersChangeOnlyInTheirOperations := by
  intro i s t n hidle hexec
  have h := exec_kept hidle hexec n
  have hhost := h.host
  simp only [Regs.hostPart, Prod.mk.injEq] at hhost
  obtain ⟨⟨harg0, harg1, haddr, hlen⟩, hcfg⟩ := hhost
  exact ⟨fun hne => by_contra fun hn => hne (h.blDuty hn),
    fun hne => by_contra fun hn => hne (h.blOut hn),
    fun hne => by_contra fun hn => hne (h.orient hn),
    fun hne => by_contra fun hn => hne (h.initDone hn),
    fun hne => by_contra fun hn => hne (h.cfgLock hn),
    fun hne => by_contra fun hn => hne.elim (absurd (h.window hn).1) (absurd (h.window hn).2),
    fun hne => by_contra fun hn => hne (h.dc hn),
    fun hne => by_contra fun hn => hne (h.rst hn),
    harg0, harg1, haddr, hlen, hcfg, h.mem⟩

end Sys2Proof.Machine

/-! Proofs about ERR_OP and the error bits of STATUS (60_exceptions.md): who sets them in one step, and who
clears them. -/

namespace Sys2Proof.Machine

/-! ### What a step does to the error bits -/

/-- The error bits and ERR_OP. -/
def Status.errors (st : Status) : (Bool × Bool × Bool × Bool × Bool) × Byte :=
  ((st.cfgErr, st.precondErr, st.busErr, st.opErr, st.winWarn), st.errOp)

/-- An error or a warning of the operation recorded under `code` has been recorded. -/
structure Status.Records (code : Byte) (st st' : Status) : Prop where
  errOp : st'.errOp = code
  opErr : st'.opErr = st.opErr
  keeps : (st.cfgErr = true → st'.cfgErr = true) ∧ (st.precondErr = true → st'.precondErr = true) ∧
    (st.busErr = true → st'.busErr = true) ∧ (st.winWarn = true → st'.winWarn = true)
  some : st'.cfgErr = true ∨ st'.precondErr = true ∨ st'.busErr = true ∨ st'.winWarn = true

theorem raiseError_records {s : State} {o : Operation} (e : ErrorKind) (hop : s.op = some o) :
    Status.Records o.code s.status (raiseError e s).status := by
  rw [raiseError_status e hop]
  refine ⟨rfl, rfl, ?_, ?_⟩
  · simp +contextual
  · cases e <;> simp

theorem recordWinWarn_records (code : Byte) (st : Status) :
    Status.Records code st (st.recordWinWarn code) :=
  ⟨rfl, rfl, ⟨id, id, id, fun _ => rfl⟩, .inr (.inr (.inr rfl))⟩

/-- A micro-step leaves the error bits and ERR_OP alone or records an error of its own operation. -/
theorem perform_errors (m : Micro) {s : State} {o : Operation} (hop : s.op = some o) :
    (perform m s).status.errors = s.status.errors ∨
      Status.Records o.code s.status (perform m s).status := by
  obtain h | ⟨b, -, -, h⟩ | ⟨c, -, -, h⟩ | ⟨-, -, h⟩ := perform_cases m s <;> rw [h]
  · cases m with
    | raise e => exact .inr (raiseError_records e hop)
    | winWarn =>
      refine .inr ?_
      show Status.Records o.code s.status (reportWindow s).status
      rw [reportWindow_running s hop]
      exact recordWinWarn_records _ _
    | _ => exact .inl rfl
  · exact .inr (raiseError_records (s := (s.drawOutcome.emit _).driveDc .high) .busIO hop)
  · exact .inr (raiseError_records (s := s.drawOutcome.emit _) .busIO hop)
  · exact .inl rfl

theorem seqStep_errors (s : State) :
    (seqStep s).status.errors = s.status.errors ∨
      ∃ o, s.op = some o ∧ Status.Records o.code s.status (seqStep s).status := by
  obtain ⟨h, -⟩ | ⟨-, -, -, h⟩ | ⟨hop, -, m, ms, -, h⟩ := seqStep_cases s <;> rw [h]
  · exact .inl rfl
  · exact .inl rfl
  · obtain ⟨o, ho⟩ := Option.ne_none_iff_exists'.1 hop
    exact (perform_errors m (s := { s with todo := ms, stepIx := s.stepIx + 1 }) ho).imp id
      fun hr => ⟨o, ho, hr⟩

/-- Everything one step can do to the error bits and ERR_OP. -/
inductive ErrorsEffect (s t : State) : Prop
  | same : t.status.errors = s.status.errors → ErrorsEffect s t
  | reset : s.turns.head? = some .blockReset → t.status = Status.reset → ErrorsEffect s t
  | reject (v : Word) (ts : List Turn) : s.turns = .host (.write 0 .w32 v) :: ts →
      t.status = s.status.recordReject (ctrlOp v) → ErrorsEffect s t
  | clear (v : Word) : s.turns.head? = some (.host (.write 0x04 .w32 v)) →
      t.status = s.status.writeOneToClear v → ErrorsEffect s t
  | record (o : Operation) : s.turns = [] ∨ s.turns.head? = some .sequencer → s.op = some o →
      Status.Records o.code s.status t.status → ErrorsEffect s t

theorem step_errors {s t : State} (h : step s = .next t) : ErrorsEffect s t := by
  obtain ⟨hturns, rfl⟩ | ⟨tn, ts, hturns, he⟩ := step_cases h
  · obtain hsame | ⟨o, ho, hr⟩ := seqStep_errors s
    · exact .same hsame
    · exact .record o (.inl hturns) ho hr
  · have hhead : s.turns.head? = some tn := by rw [hturns, List.head?_cons]
    cases he with
    | read off _ ht => exact .same (by rw [ht])
    | ctrl v hw =>
      obtain rfl | ⟨-, rfl⟩ | ⟨-, o, -, rfl⟩ := writeCtrl_eq hw
      · exact .same rfl
      · exact .reject v ts hturns rfl
      · exact .same rfl
    | write off v _ _ ht =>
      obtain hw | ⟨rfl, hw⟩ | ⟨_, _, _, _, hw⟩ | ⟨-, -, _, -, hw⟩ :=
        writeRegister_cases off v { s with turns := ts }
      · exact .same (by rw [ht, hw])
      · exact .clear v hhead (by rw [ht, hw])
      · exact .same (by rw [ht, hw])
      · exact .same (by rw [ht, hw])
    | store a v ht => exact .same (by rw [ht]; rfl)
    | waitIdle ht => exact .same (by rw [ht, pollIdle]; split <;> rfl)
    | sequencer ht =>
      subst ht
      obtain hsame | ⟨o, ho, hr⟩ := seqStep_errors { s with turns := ts }
      · exact .same hsame
      · exact .record o (.inr hhead) ho hr
    | pwmTick ht => exact .same (by rw [ht]; rfl)
    | blockReset ht => exact .reset hhead (by rw [ht]; rfl)

/-! ### The four clauses -/

/-- A bit that rises is not one that a conjunction has kept. -/
theorem not_and_rises {a b : Bool} (h : (a && b) = true ∧ a = false) : False := by
  obtain ⟨hab, ha⟩ := h
  rw [ha] at hab
  exact Bool.false_ne_true hab

/-- An error bit that rises was set for the running operation or for the rejected write. -/
theorem risen_errOp {s t : State} (h : step s = .next t) :
    (t.status.cfgErr = true ∧ s.status.cfgErr = false ∨
      t.status.precondErr = true ∧ s.status.precondErr = false ∨
      t.status.busErr = true ∧ s.status.busErr = false ∨
      t.status.winWarn = true ∧ s.status.winWarn = false →
      ∃ o, s.op = some o ∧ t.status.errOp = o.code) ∧
    (t.status.opErr = true ∧ s.status.opErr = false →
      ∃ v ts, s.turns = .host (.write 0 .w32 v) :: ts ∧ t.status.errOp = ctrlOp v) := by
  cases step_errors h with
  | same hs =>
    simp only [Status.errors, Prod.mk.injEq] at hs
    obtain ⟨⟨hc, hp, hb, ho, hw⟩, -⟩ := hs
    rw [hc, hp, hb, ho, hw]
    simp
  | reset _ hs =>
    rw [hs]
    simp [Status.reset]
  | reject v ts hturns hs =>
    rw [hs]
    exact ⟨by simp [Status.recordReject], fun _ => ⟨v, ts, hturns, rfl⟩⟩
  | clear v _ hs =>
    rw [hs]
    refine ⟨fun hr => ?_, fun hr => (not_and_rises hr).elim⟩
    rcases hr with hr | hr | hr | hr <;> exact (not_and_rises hr).elim
  | record o _ hop hr =>
    refine ⟨fun _ => ⟨o, hop, hr.errOp⟩, fun hrise => ?_⟩
    rw [hr.opErr] at hrise
    simp_all

/-- ERR_OP changes only with a block reset, a rejected CTRL write or an error the sequencer records. -/
theorem errOp_changed {s t : State} (h : step s = .next t) (hne : t.status.errOp ≠ s.status.errOp) :
    s.turns.head? = some .blockReset ∨
    (∃ v, s.turns.head? = some (.host (.write 0 .w32 v)) ∧
      t.status.errOp = ctrlOp v ∧ t.status.opErr = true) ∨
    ((s.turns = [] ∨ s.turns.head? = some .sequencer) ∧
      ∃ o, s.op = some o ∧ t.status.errOp = o.code ∧
        (t.status.cfgErr = true ∨ t.status.precondErr = true ∨ t.status.busErr = true ∨
          t.status.winWarn = true)) := by
  cases step_errors h with
  | same hs => exact absurd (congrArg Prod.snd hs) hne
  | reset hturn _ => exact .inl hturn
  | reject v ts hturns hs =>
    refine .inr (.inl ⟨v, by rw [hturns, List.head?_cons], ?_, ?_⟩) <;> rw [hs] <;> rfl
  | clear v _ hs => exact absurd (by rw [hs]; rfl) hne
  | record o hturn hop hr => exact .inr (.inr ⟨hturn, o, hop, hr.errOp, hr.some⟩)

/-- Every error and every warning of the sequencer sets ERR_OP. -/
theorem seqStep_errOp {s : State} {o : Operation} {m : Micro} {ms : List Micro}
    (hop : s.op = some o) (hst : s.stalled = false) (ht : s.todo = m :: ms)
    (hm : m = .winWarn ∨ (∃ e, m = .raise e) ∨ (m.isTransfer = true ∧ s.outcomeAt 0 = .fail)) :
    (seqStep s).status.errOp = o.code := by
  have hne : s.op ≠ none := by simp [hop]
  let u : State := { s with todo := ms, stepIx := s.stepIx + 1 }
  rcases hm with rfl | ⟨e, rfl⟩ | ⟨htr, hf⟩
  · rw [seqStep_perform hne hst ht, perform, reportWindow_running u hop]
    rfl
  · rw [seqStep_perform hne hst ht]
    exact raiseError_errOp (s := u) e hop
  · obtain ⟨w, _, hstep, hwop, -⟩ := seqStep_fail hne hst ht htr hf
    rw [hstep, raiseError_errOp _ (hwop.trans hop)]

/-- The error bit at bit `i` of STATUS (10_state.md R24). -/
def Status.errorBit (st : Status) (i : Nat) : Bool :=
  if i = 8 then st.cfgErr else if i = 9 then st.precondErr else if i = 10 then st.busErr
  else if i = 11 then st.opErr else st.winWarn

theorem statusWord_errorBit (s : State) {i : Nat} (hlo : 8 ≤ i) (hhi : i ≤ 12) :
    s.statusWord.getLsbD i = s.status.errorBit i := by
  rw [statusWord_getLsbD s (by omega)]
  interval_cases i <;> rfl

/-- An error bit falls only at a write of 1 to it or at a block reset. -/
theorem errorBit_falls {s t : State} (h : step s = .next t) {i : Nat} (hlo : 8 ≤ i) (hhi : i ≤ 12)
    (hs : s.statusWord.getLsbD i = true) (ht : t.statusWord.getLsbD i = false) :
    s.turns.head? = some .blockReset ∨
      ∃ v, s.turns.head? = some (.host (.write 0x04 .w32 v)) ∧ v.getLsbD i = true := by
  rw [statusWord_errorBit _ hlo hhi] at hs ht
  have hkept : (s.status.errorBit i = true → t.status.errorBit i = true) → False := fun hk => by
    rw [hk hs] at ht
    cases ht
  cases step_errors h with
  | same hsame =>
    simp only [Status.errors, Prod.mk.injEq] at hsame
    obtain ⟨⟨hc, hp, hb, ho, hw⟩, -⟩ := hsame
    exact (hkept (by simp only [Status.errorBit, hc, hp, hb, ho, hw, imp_self])).elim
  | reset hturn _ => exact .inl hturn
  | reject v ts _ hst =>
    refine (hkept ?_).elim
    rw [hst]
    interval_cases i <;> simp [Status.errorBit, Status.recordReject]
  | clear v hturn hst =>
    refine .inr ⟨v, hturn, ?_⟩
    rw [← statusWord_errorBit s hlo hhi] at hs
    have hbit := statusWord_writeOneToClear s v (i := i) (by omega)
    rw [statusWord_errorBit _ hlo hhi, hs] at hbit
    rw [hst, hbit] at ht
    simpa [hlo, hhi] using ht
  | record o _ _ hr =>
    obtain ⟨hc, hp, hb, hw⟩ := hr.keeps
    refine (hkept ?_).elim
    have ho := hr.opErr
    interval_cases i <;> simp_all [Status.errorBit]

/-- Settles O47, one lemma for each clause. -/
theorem errOpNamesTheLastSetter : Obligations.ErrOpNamesTheLastSetter :=
  ⟨fun _ _ => risen_errOp, fun _ _ => errOp_changed, fun _ _ _ _ => seqStep_errOp,
    fun _ _ h _ hlo hhi => errorBit_falls h hlo hhi⟩

end Sys2Proof.Machine
